-- ==== Sys2Proof/Word.lean ====
section
/-! DEFINITION. The unit's fixed-width words and the index types of its registers. -/

namespace Sys2Proof

/-- One byte of a payload, of a response or of text (20_memory.md R50). -/
abbrev Byte := BitVec 8

/-- The 32-bit command word, and the content of a control register (30_encoding.md R70, 10_state.md R31). -/
abbrev Word32 := BitVec 32

/-- The index of a value register, V0 to V15 (10_state.md R21). -/
abbrev VReg := Fin 16

/-- A text: one byte per character, in text order (20_memory.md R52, R54). -/
abbrev Text := List Byte

end Sys2Proof
end

