-- ==== Sys2Proof/Syntax.lean ====
section
/-! DEFINITION. The 26 commands of the unit, one constructor per row of spec/opcode_table.json. -/

namespace Sys2Proof

/-- The control registers CSRR can name, in the order of their numbers 0 to 3 (10_state.md R31). -/
inductive Csr where
  | base
  | flags
  | ecode
  | ecmd
deriving DecidableEq, Repr

/-- A command with its operands (30_encoding.md R72, R75). Register operands come destination first
(30_encoding.md R80). -/
inductive Instr where
  /-- SETBASE n (R100). -/
  | setbase (n : BitVec 16)
  /-- LDL Vd, "text"; the payload is the text (R101). -/
  | ldl (rd : VReg) (text : Text)
  /-- LDI Vd, n; the payload is the 64-bit integer (R104). -/
  | ldi (rd : VReg) (n : BitVec 64)
  /-- DISP Va (R106). -/
  | disp (ra : VReg)
  /-- DIGIT Va, i (R110). -/
  | digit (ra : VReg) (i : BitVec 16)
  /-- CSRR name (R112). -/
  | csrr (c : Csr)
  /-- CLRERR (R113). -/
  | clrerr
  /-- SM.NEG Vd, Va (R138). -/
  | smNeg (rd ra : VReg)
  /-- SM.CMP Va, Vb (R139). -/
  | smCmp (ra rb : VReg)
  /-- SM.ADD Vd, Va, Vb (R141). -/
  | smAdd (rd ra rb : VReg)
  /-- SM.SUB Vd, Va, Vb (R142). -/
  | smSub (rd ra rb : VReg)
  /-- SM.MUL Vd, Va, Vb (R143). -/
  | smMul (rd ra rb : VReg)
  /-- SM.DIV Vd, Va, Vb (R144). -/
  | smDiv (rd ra rb : VReg)
  /-- SM.MOD Vd, Va, Vb (R145). -/
  | smMod (rd ra rb : VReg)
  /-- SM.POW Vd, Va, Vb (R146). -/
  | smPow (rd ra rb : VReg)
  /-- BIN.NEG Vd, Va (R176). -/
  | binNeg (rd ra : VReg)
  /-- BIN.CMP Va, Vb (R183). -/
  | binCmp (ra rb : VReg)
  /-- BIN.ADD Vd, Va, Vb (R184). -/
  | binAdd (rd ra rb : VReg)
  /-- BIN.SUB Vd, Va, Vb (R185). -/
  | binSub (rd ra rb : VReg)
  /-- BIN.MUL Vd, Va, Vb (R186). -/
  | binMul (rd ra rb : VReg)
  /-- BIN.DIV Vd, Va, Vb (R187). -/
  | binDiv (rd ra rb : VReg)
  /-- BIN.MOD Vd, Va, Vb (R188). -/
  | binMod (rd ra rb : VReg)
  /-- BIN.RESIZE Vd, Va, m (R181). -/
  | binResize (rd ra : VReg) (m : BitVec 16)
  /-- BIN.NORM Vd, Va (R177). -/
  | binNorm (rd ra : VReg)
  /-- CVT.S2B Vd, Va (R212). -/
  | cvtS2b (rd ra : VReg)
  /-- CVT.B2S Vd, Va, t (R216). -/
  | cvtB2s (rd ra : VReg) (t : BitVec 16)
deriving DecidableEq, Repr

end Sys2Proof
end

