-- ==== Sys2Proof/WellFormed.lean ====
section
/-! DEFINITION. Which instruction terms a command word with its payload can stand for. The operand types already bound
every field but two: the length of LDL's text and the zero bit count of BIN.RESIZE. -/

namespace Sys2Proof

/-- A term is well formed when some word and payload decode to it: LDL's payload length fits the 16-bit length field
(30_encoding.md R70, R71), and BIN.RESIZE's bit count is not 0 (30_encoding.md R77). -/
def Instr.wellFormed : Instr → Bool
  | .ldl _ text => decide (text.length < 65536)
  | .binResize _ _ m => decide (m ≠ 0)
  | .setbase _ | .ldi _ _ | .disp _ | .digit _ _ | .csrr _ | .clrerr
  | .smNeg _ _ | .smCmp _ _ | .smAdd _ _ _ | .smSub _ _ _ | .smMul _ _ _ | .smDiv _ _ _ | .smMod _ _ _ | .smPow _ _ _
  | .binNeg _ _ | .binCmp _ _ | .binAdd _ _ _ | .binSub _ _ _ | .binMul _ _ _ | .binDiv _ _ _ | .binMod _ _ _
  | .binNorm _ _ | .cvtS2b _ _ | .cvtB2s _ _ _ => true

end Sys2Proof
end

