-- ==== Sys2Proof/Decode.lean ====
section
/-! DEFINITION. The opcode table of 30_encoding.md R75, the decoder of R79, the encoder of R71 and R80, and the
numbering of an instruction's bits that spec/opcode_table.json uses. -/

namespace Sys2Proof

/-- The rows of the opcode table, one name each (30_encoding.md R75). -/
inductive Op where
  | setbase | ldl | ldi | disp | digit | csrr | clrerr
  | smNeg | smCmp | smAdd | smSub | smMul | smDiv | smMod | smPow
  | binNeg | binCmp | binAdd | binSub | binMul | binDiv | binMod | binResize | binNorm
  | cvtS2b | cvtB2s
deriving DecidableEq, Repr

/-- One row: `w` is the command exactly when `(w AND mask) = value` (30_encoding.md R75). -/
structure OpRow where
  op : Op
  value : Word32
  mask : Word32
deriving DecidableEq, Repr

/-- Rows of the setup and transfer commands (30_encoding.md R75). -/
def setupRows : List OpRow :=
  [ { op := .setbase, value := 0x01000000, mask := 0xFFFF0000 },
    { op := .ldl, value := 0x02000000, mask := 0xFF0F0000 },
    { op := .ldi, value := 0x03000008, mask := 0xFF0FFFFF },
    { op := .disp, value := 0x04000000, mask := 0xFFF0FFFF },
    { op := .digit, value := 0x05000000, mask := 0xFFF00000 },
    { op := .csrr, value := 0x06000000, mask := 0xFFFF0000 },
    { op := .clrerr, value := 0x07000000, mask := 0xFFFFFFFF } ]

/-- Rows of the sign-magnitude engine (30_encoding.md R75). -/
def smRows : List OpRow :=
  [ { op := .smNeg, value := 0x10000000, mask := 0xFF00FFFF },
    { op := .smCmp, value := 0x11000000, mask := 0xFFF00FFF },
    { op := .smAdd, value := 0x12000000, mask := 0xFF000FFF },
    { op := .smSub, value := 0x13000000, mask := 0xFF000FFF },
    { op := .smMul, value := 0x14000000, mask := 0xFF000FFF },
    { op := .smDiv, value := 0x15000000, mask := 0xFF000FFF },
    { op := .smMod, value := 0x16000000, mask := 0xFF000FFF },
    { op := .smPow, value := 0x17000000, mask := 0xFF000FFF } ]

/-- Rows of the base-2 engine (30_encoding.md R75). -/
def binRows : List OpRow :=
  [ { op := .binNeg, value := 0x20000000, mask := 0xFF00FFFF },
    { op := .binCmp, value := 0x21000000, mask := 0xFFF00FFF },
    { op := .binAdd, value := 0x22000000, mask := 0xFF000FFF },
    { op := .binSub, value := 0x23000000, mask := 0xFF000FFF },
    { op := .binMul, value := 0x24000000, mask := 0xFF000FFF },
    { op := .binDiv, value := 0x25000000, mask := 0xFF000FFF },
    { op := .binMod, value := 0x26000000, mask := 0xFF000FFF },
    { op := .binResize, value := 0x28000000, mask := 0xFF000000 },
    { op := .binNorm, value := 0x29000000, mask := 0xFF00FFFF } ]

/-- Rows of the converter (30_encoding.md R75). -/
def cvtRows : List OpRow :=
  [ { op := .cvtS2b, value := 0x30000000, mask := 0xFF00FFFF },
    { op := .cvtB2s, value := 0x31000000, mask := 0xFF000000 } ]

/-- The whole table (30_encoding.md R75). -/
def opTable : List OpRow := setupRows ++ smRows ++ binRows ++ cvtRows

/-- Whether `w` matches a row (30_encoding.md R75). -/
def OpRow.hits (r : OpRow) (w : Word32) : Bool := (w &&& r.mask) == r.value

/-! ## Fields (30_encoding.md R71, R72) -/

/-- The opcode, `w[31:24]`. -/
def opcodeField (w : Word32) : BitVec 8 := w.extractLsb' 24 8

/-- The destination register index, `w[23:20]`. -/
def rdField (w : Word32) : VReg := (w.extractLsb' 20 4).toFin

/-- The first source register index, `w[19:16]`. -/
def raField (w : Word32) : VReg := (w.extractLsb' 16 4).toFin

/-- The second source register index, `w[15:12]`. -/
def rbField (w : Word32) : VReg := (w.extractLsb' 12 4).toFin

/-- The immediate or payload length, `w[15:0]`. -/
def imm16Field (w : Word32) : BitVec 16 := w.extractLsb' 0 16

/-- The control register a CSRR number names; numbers 4 to 65535 are reserved (10_state.md R31). -/
def csrOfNumber (n : BitVec 16) : Option Csr :=
  if n = 0 then some .base
  else if n = 1 then some .flags
  else if n = 2 then some .ecode
  else if n = 3 then some .ecmd
  else none

/-- The number of a control register (10_state.md R31). -/
def Csr.number : Csr → BitVec 16
  | .base => 0
  | .flags => 1
  | .ecode => 2
  | .ecmd => 3

/-- The number a byte list denotes, byte 0 least significant (20_memory.md R53). -/
def leNat : List Byte → Nat
  | [] => 0
  | b :: bs => b.toNat + 256 * leNat bs

/-- The `k` low bytes of a number, least significant first (20_memory.md R53). -/
def leBytes : Nat → Nat → List Byte
  | 0, _ => []
  | k + 1, n => BitVec.ofNat 8 n :: leBytes k (n / 256)

/-- A command that takes the empty payload (30_encoding.md R73). -/
def withoutPayload (payload : List Byte) (i : Instr) : Option Instr :=
  match payload with
  | [] => some i
  | _ :: _ => none

/-- Steps (2) and (3) of the decoder: the payload length and the two value conditions, then the fields
(30_encoding.md R79, R73, R77). -/
def buildInstr (op : Op) (w : Word32) (payload : List Byte) : Option Instr :=
  match op with
  | .setbase => withoutPayload payload (.setbase (imm16Field w))
  | .ldl => if payload.length = (imm16Field w).toNat then some (.ldl (rdField w) payload) else none
  | .ldi => if payload.length = 8 then some (.ldi (rdField w) (BitVec.ofNat 64 (leNat payload))) else none
  | .disp => withoutPayload payload (.disp (raField w))
  | .digit => withoutPayload payload (.digit (raField w) (imm16Field w))
  | .csrr =>
    match csrOfNumber (imm16Field w) with
    | some c => withoutPayload payload (.csrr c)
    | none => none
  | .clrerr => withoutPayload payload .clrerr
  | .smNeg => withoutPayload payload (.smNeg (rdField w) (raField w))
  | .smCmp => withoutPayload payload (.smCmp (raField w) (rbField w))
  | .smAdd => withoutPayload payload (.smAdd (rdField w) (raField w) (rbField w))
  | .smSub => withoutPayload payload (.smSub (rdField w) (raField w) (rbField w))
  | .smMul => withoutPayload payload (.smMul (rdField w) (raField w) (rbField w))
  | .smDiv => withoutPayload payload (.smDiv (rdField w) (raField w) (rbField w))
  | .smMod => withoutPayload payload (.smMod (rdField w) (raField w) (rbField w))
  | .smPow => withoutPayload payload (.smPow (rdField w) (raField w) (rbField w))
  | .binNeg => withoutPayload payload (.binNeg (rdField w) (raField w))
  | .binCmp => withoutPayload payload (.binCmp (raField w) (rbField w))
  | .binAdd => withoutPayload payload (.binAdd (rdField w) (raField w) (rbField w))
  | .binSub => withoutPayload payload (.binSub (rdField w) (raField w) (rbField w))
  | .binMul => withoutPayload payload (.binMul (rdField w) (raField w) (rbField w))
  | .binDiv => withoutPayload payload (.binDiv (rdField w) (raField w) (rbField w))
  | .binMod => withoutPayload payload (.binMod (rdField w) (raField w) (rbField w))
  | .binResize => if imm16Field w = 0 then none else withoutPayload payload (.binResize (rdField w) (raField w) (imm16Field w))
  | .binNorm => withoutPayload payload (.binNorm (rdField w) (raField w))
  | .cvtS2b => withoutPayload payload (.cvtS2b (rdField w) (raField w))
  | .cvtB2s => withoutPayload payload (.cvtB2s (rdField w) (raField w) (imm16Field w))

/-- Step (1) of the decoder: the row a word matches (30_encoding.md R79). -/
def findRow (w : Word32) : Option OpRow := opTable.find? (fun r => r.hits w)

/-- The decoder: total, reading no state; `none` is an illegal command (30_encoding.md R76, R77, R79). -/
def decode (w : Word32) (payload : List Byte) : Option Instr :=
  match findRow w with
  | some r => buildInstr r.op w payload
  | none => none

/-! ## Encoding (30_encoding.md R71, R75, R80) -/

/-- Format R: opcode, rd, ra, rb, twelve zero bits. -/
def formatR (opcode : BitVec 8) (rd ra rb : VReg) : Word32 :=
  opcode ++ BitVec.ofFin (w := 4) rd ++ BitVec.ofFin (w := 4) ra ++ BitVec.ofFin (w := 4) rb ++ 0#12

/-- Format I: opcode, rd, ra, imm16. Format P is the same with the payload length as imm16 and ra zero. -/
def formatI (opcode : BitVec 8) (rd ra : VReg) (imm16 : BitVec 16) : Word32 :=
  opcode ++ BitVec.ofFin (w := 4) rd ++ BitVec.ofFin (w := 4) ra ++ imm16

/-- The command word of an instruction. -/
def encodeWord : Instr → Word32
  | .setbase n => formatI 0x01 0 0 n
  | .ldl rd text => formatI 0x02 rd 0 (BitVec.ofNat 16 text.length)
  | .ldi rd _ => formatI 0x03 rd 0 8
  | .disp ra => formatI 0x04 0 ra 0
  | .digit ra i => formatI 0x05 0 ra i
  | .csrr c => formatI 0x06 0 0 c.number
  | .clrerr => formatI 0x07 0 0 0
  | .smNeg rd ra => formatR 0x10 rd ra 0
  | .smCmp ra rb => formatR 0x11 0 ra rb
  | .smAdd rd ra rb => formatR 0x12 rd ra rb
  | .smSub rd ra rb => formatR 0x13 rd ra rb
  | .smMul rd ra rb => formatR 0x14 rd ra rb
  | .smDiv rd ra rb => formatR 0x15 rd ra rb
  | .smMod rd ra rb => formatR 0x16 rd ra rb
  | .smPow rd ra rb => formatR 0x17 rd ra rb
  | .binNeg rd ra => formatR 0x20 rd ra 0
  | .binCmp ra rb => formatR 0x21 0 ra rb
  | .binAdd rd ra rb => formatR 0x22 rd ra rb
  | .binSub rd ra rb => formatR 0x23 rd ra rb
  | .binMul rd ra rb => formatR 0x24 rd ra rb
  | .binDiv rd ra rb => formatR 0x25 rd ra rb
  | .binMod rd ra rb => formatR 0x26 rd ra rb
  | .binResize rd ra m => formatI 0x28 rd ra m
  | .binNorm rd ra => formatR 0x29 rd ra 0
  | .cvtS2b rd ra => formatR 0x30 rd ra 0
  | .cvtB2s rd ra t => formatI 0x31 rd ra t

/-- The payload of an instruction: LDL's characters, LDI's eight bytes, else none (30_encoding.md R73). -/
def encodePayload : Instr → List Byte
  | .ldl _ text => text
  | .ldi _ n => leBytes 8 n.toNat
  | .setbase _ | .disp _ | .digit _ _ | .csrr _ | .clrerr
  | .smNeg _ _ | .smCmp _ _ | .smAdd _ _ _ | .smSub _ _ _ | .smMul _ _ _ | .smDiv _ _ _ | .smMod _ _ _ | .smPow _ _ _
  | .binNeg _ _ | .binCmp _ _ | .binAdd _ _ _ | .binSub _ _ _ | .binMul _ _ _ | .binDiv _ _ _ | .binMod _ _ _
  | .binResize _ _ _ | .binNorm _ _ | .cvtS2b _ _ | .cvtB2s _ _ _ => []

/-- A whole command: its word and its payload. -/
def encode (i : Instr) : Word32 × List Byte := (encodeWord i, encodePayload i)

/-! ## The opcode table's numbering of an instruction's bits -/

/-- How many payload bytes follow a word: `len16` of them for opcodes 0x02 and 0x03, none for any other
(30_encoding.md R79). -/
def payloadLength (w : Word32) : Nat :=
  if opcodeField w = 0x02 ∨ opcodeField w = 0x03 then (imm16Field w).toNat else 0

/-- The command word of an instruction whose bits are numbered as the table numbers them: bits 31 to 0. -/
def numberedWord (nbits w : Nat) : Word32 := BitVec.ofNat 32 (w % 2 ^ nbits)

/-- The payload bytes of such an instruction: payload byte k is bits 39+8k to 32+8k; a bit at or above `nbits` is 0
(DESIGN CHOICE, notes/assumptions/10.md). -/
def numberedPayload (nbits w : Nat) : List Byte :=
  leBytes (payloadLength (numberedWord nbits w)) (w % 2 ^ nbits / 2 ^ 32)

/-- The instruction the decoder reads from an instruction whose bits are `w`. -/
def decodeTableWord (nbits w : Nat) : Option Instr :=
  decode (numberedWord nbits w) (numberedPayload nbits w)

end Sys2Proof
end

