-- ==== Sys2Proof/Config.lean ====
section
/-! DEFINITION. The parameters of the unit that the spec leaves open (00_scope.md R9). -/

namespace Sys2Proof

/-- The two open parameters. The spec says of each that a model takes it as an argument: `lmax`, the greatest
digit count of a value held in a register, `none` for unbounded (92_eei_decisions.md D16); `negOrderReversed`,
whether two negative sign-magnitude values are ordered as integers (92_eei_decisions.md D23).
DESIGN CHOICE (notes/assumptions/1.md): they are plain data inside the state, which no step changes, so a claim about every state is a
claim about every choice of them. Safe. -/
structure Params where
  lmax : Option Nat
  negOrderReversed : Bool
deriving DecidableEq, Repr

/-- The defaults the spec names: unbounded, and the source's literal order (92_eei_decisions.md, last table). -/
def Params.default : Params := { lmax := none, negOrderReversed := false }

end Sys2Proof
end

