-- ==== Sys2Proof/Machine/State.lean ====
section
/-! DEFINITION. The state of the unit, its values, errors and responses, the host's actions, and the state after reset. -/

namespace Sys2Proof.Machine

/-- The base of a sign-magnitude value: 8, 10 or 16 (10_state.md R22). -/
inductive SmBase where
  | eight
  | ten
  | sixteen
deriving DecidableEq, Repr

/-- A sign-magnitude value `SM(B, neg, D)`; the digits are least significant first (10_state.md R22). -/
structure Sm where
  base : SmBase
  neg : Bool
  digits : List Nat
deriving DecidableEq, Repr

/-- A base-2 value `BIN(s, bits)`; the bits are least significant first, each 0 or 1 (10_state.md R25). -/
structure Bin where
  sign : Bool
  bits : List Nat
deriving DecidableEq, Repr

/-- A value: one of two tagged variants (10_state.md R21). -/
inductive Value where
  | sm (x : Sm)
  | bin (x : Bin)
deriving DecidableEq, Repr

/-- What a value register holds: EMPTY, which is the register's own state since reset, or a value (10_state.md R21). -/
inductive Content where
  | empty
  | held (v : Value)
deriving DecidableEq, Repr

/-- The base a command may need: base 2 selects BIN values, the others SM values (00_scope.md R3). -/
inductive NumBase where
  | two
  | sm (b : SmBase)
deriving DecidableEq, Repr

/-- The errors a command can raise, and code 6, which only the host driver uses (60_exceptions.md R261). The codes 7, 14
and 15 are reserved and never produced, so they have no constructor. -/
inductive ErrorCode where
  | unsupportedBase
  | invalidDigit
  | divisionByZero
  | negativeExponent
  | unknownRegister
  | emptyStackUnderflow
  | illegalCommand
  | operandMismatch
  | malformedLiteral
  | indexOutOfRange
  | capacityExceeded
  | widthOverflow
deriving DecidableEq, Repr

/-- The answer to one command: a 4-bit code, 0 for success, and data bytes (30_encoding.md R74). -/
structure Response where
  code : BitVec 4
  data : List Byte
deriving DecidableEq, Repr

/-- What the host can do to the unit: issue a command, or assert reset between commands (00_scope.md R10,
70_reset_and_hazards.md R290). -/
inductive HostAction where
  | command (word : Word32) (payload : List Byte)
  | reset
deriving DecidableEq, Repr

/-- The state. `regs`, `base`, `flags`, `ecode` and `ecmd` are the whole architectural state (10_state.md R20).
`params` are the two open parameters, which no step changes (notes/assumptions/1.md); `pending` is what the host is
yet to do, first action first (notes/assumptions/2.md); `responses` is what the unit has answered, oldest first
(notes/assumptions/3.md). -/
structure State where
  regs : Vector Content 16
  base : Word32
  flags : Word32
  ecode : Word32
  ecmd : Word32
  params : Params
  pending : List HostAction
  responses : List Response
deriving DecidableEq, Repr

/-- No condition of this hardware stops the machine: every error is reported in a response and the unit goes on
(60_exceptions.md R270, R275; 93_implementation_defined.md). So there is no fault to name
(notes/assumptions/16.md). Safe: nothing is hidden in it, since it has no value. -/
inductive Fault
deriving DecidableEq, Repr

/-- Why the model has no meaning for an instruction. -/
inductive Refusal where
  /-- Raised by an arm of `exec` whose instruction has no meaning yet; no arm is such. Safe. -/
  | notModelled (mnemonic : String)
deriving DecidableEq, Repr

/-- The state after reset with given parameters: every register EMPTY and every control register 0
(10_state.md R39, 70_reset_and_hazards.md R291). -/
def State.resetWith (params : Params) : State :=
  { regs := Vector.replicate 16 .empty
    base := 0
    flags := 0
    ecode := 0
    ecmd := 0
    params := params
    pending := []
    responses := [] }

/-- The machine right after reset, with the spec's default parameters and no host action pending. -/
def State.reset : State := State.resetWith Params.default

end Sys2Proof.Machine
end

