-- ==== Sys2Proof/Machine/Ops.lean ====
section
/-! DEFINITION. The shared operations: reading and writing registers, answering, raising an error, reset, and the frame
every command runs in. -/

namespace Sys2Proof.Machine

/-- What a step can answer on this machine. -/
abbrev Result := Host.Outcome State Fault Refusal

/-- The content of a value register (10_state.md R21). -/
def State.reg (s : State) (i : VReg) : Content := s.regs[i]

/-- Replace the whole content of a value register (10_state.md R29). -/
def State.setReg (s : State) (i : VReg) (c : Content) : State := { s with regs := s.regs.set i c }

/-- Write BASE (10_state.md R32). -/
def State.setBase (s : State) (b : Word32) : State := { s with base := b }

/-- Write FLAGS (10_state.md R33). -/
def State.setFlags (s : State) (f : Word32) : State := { s with flags := f }

/-- Write ECODE and ECMD together (10_state.md R34, R35). -/
def State.setError (s : State) (code cmd : Word32) : State := { s with ecode := code, ecmd := cmd }

/-- Put the host's next actions in place. -/
def State.setPending (s : State) (todo : List HostAction) : State := { s with pending := todo }

/-- Give one response to the host (30_encoding.md R74). -/
def State.respond (s : State) (code : BitVec 4) (data : List Byte) : State :=
  { s with responses := s.responses ++ [{ code := code, data := data }] }

/-- The 32-bit content of a control register (10_state.md R31). -/
def State.csr (s : State) : Csr → Word32
  | .base => s.base
  | .flags => s.flags
  | .ecode => s.ecode
  | .ecmd => s.ecmd

/-- The number of an error (60_exceptions.md R261). -/
def ErrorCode.number : ErrorCode → BitVec 4
  | .unsupportedBase => 1
  | .invalidDigit => 2
  | .divisionByZero => 3
  | .negativeExponent => 4
  | .unknownRegister => 5
  | .emptyStackUnderflow => 6
  | .illegalCommand => 8
  | .operandMismatch => 9
  | .malformedLiteral => 10
  | .indexOutOfRange => 11
  | .capacityExceeded => 12
  | .widthOverflow => 13

/-- Record an error in ECODE and ECMD unless one is recorded already (60_exceptions.md R270, R271). -/
def State.recordError (s : State) (word : Word32) (e : ErrorCode) : State :=
  if s.ecode = 0 then s.setError (e.number.setWidth 32) word else s

/-- TAKING AN EXCEPTION: raise an error of the command whose word is `word`. The first error since reset or CLRERR is
recorded; the response carries the code and no data; nothing else changes (60_exceptions.md R270, R271). There is no
handler and so no return from it (60_exceptions.md R273). -/
def State.raise (s : State) (word : Word32) (e : ErrorCode) : State := (s.recordError word e).respond e.number []

/-- CLRERR's effect, the one thing that restores ECODE and ECMD (60_exceptions.md R273, 40_setup_and_transfer.md R113). -/
def State.clearError (s : State) : State := s.setError 0 0

/-- Reset: every piece of architectural state to its reset value, whatever it held, and no response
(70_reset_and_hazards.md R290). What the host still has to issue and what it has seen are not the unit's state
(notes/assumptions/5.md). -/
def State.applyReset (s : State) : State :=
  { State.resetWith s.params with pending := s.pending, responses := s.responses }

/-- The number of entries LMAX bounds: an SM value's digits, or a BIN value's bits, the sign bit not counted
(70_reset_and_hazards.md R297). -/
def Value.size : Value → Nat
  | .sm x => x.digits.length
  | .bin x => x.bits.length

/-- Whether a value of `n` entries may be held in a register (70_reset_and_hazards.md R297). -/
def admits (p : Params) (n : Nat) : Bool :=
  match p.lmax with
  | none => true
  | some most => decide (n ≤ most)

/-- What a command that raised nothing leaves: the state it wrote and the response's data. -/
structure Done where
  state : State
  data : List Byte

/-- A command's effect up to its response: an error, or what it did. -/
abbrev Effect := Except ErrorCode Done

/-- A command that changes the state and answers no data. -/
def doneState (s : State) : Effect := .ok { state := s, data := [] }

/-- A command that changes nothing and answers data. -/
def doneData (s : State) (data : List Byte) : Effect := .ok { state := s, data := data }

/-- Steps (6) and (7) for a command that writes `rd`: the capacity check, then the write (30_encoding.md R84,
70_reset_and_hazards.md R297). -/
def writeValue (rd : VReg) (v : Value) (s : State) : Effect :=
  if admits s.params v.size then doneState (s.setReg rd (.held v)) else .error .capacityExceeded

/-- The end of every command: a raise, or the state it wrote with the success response (30_encoding.md R84, R74). -/
def finish (word : Word32) (s : State) (e : Effect) : Result :=
  match e with
  | .ok d => .next (d.state.respond 0 d.data)
  | .error code => .next (s.raise word code)

/-- What a step does with a word that does not decode: IllegalCommand and nothing else (30_encoding.md R76). -/
def raiseIllegal (word : Word32) (s : State) : Result := .next (s.raise word .illegalCommand)

/-- Go on with the outcome's state, if it is a next state. -/
def andThen {α β : Type} (o : Host.Outcome α Fault Refusal) (f : α → Host.Outcome β Fault Refusal) :
    Host.Outcome β Fault Refusal :=
  match o with
  | .next a => f a
  | .fault r => .fault r
  | .refused r => .refused r

end Sys2Proof.Machine
end

