-- ==== Sys2Proof/Machine/Magnitude.lean ====
section
/-! DEFINITION. The magnitude primitives of 41_sign_magnitude.md section 1: digit lists, least significant digit first,
in a base B. The base-2 engine and the converter use them with B = 2 and B = 10. Their results outside the stated
domain (a digit not below B, an untrimmed list) are the model's own and reached by no command
(notes/assumptions/7.md). -/

namespace Sys2Proof.Machine

/-- The natural number a digit list denotes, `mag(D, B)` (10_state.md R23). -/
def mag (B : Nat) : List Nat → Nat
  | [] => 0
  | d :: ds => d + B * mag B ds

/-- The digits of `m`, at most `fuel` of them, with no leading zero. -/
def digitsUpTo (B : Nat) : Nat → Nat → List Nat
  | 0, _ => []
  | fuel + 1, m => if m = 0 then [] else m % B :: digitsUpTo B fuel (m / B)

/-- `DigitsOf(m, B)`: the trimmed digit list of a natural number (40_setup_and_transfer.md R104). -/
def digitsOf (B m : Nat) : List Nat := if m = 0 then [0] else digitsUpTo B (Nat.log2 m + 1) m

/-- `Trim(X)`: without its most significant zeros, at least one digit kept (41_sign_magnitude.md R130). -/
def trim : List Nat → List Nat
  | [] => []
  | d :: ds =>
    match trim ds with
    | [] => [d]
    | t => if t = [0] then [d] else d :: t

/-- Compare two lists of one length, most significant digit first: the higher digits decide before `x` and `y` do. -/
def cmpDigits : List Nat → List Nat → Ordering
  | x :: xs, y :: ys =>
    match cmpDigits xs ys with
    | .lt => .lt
    | .gt => .gt
    | .eq => compare x y
  | _, _ => .eq

/-- `MagCmp(X, Y)` for trimmed lists (41_sign_magnitude.md R131). -/
def magCmp (X Y : List Nat) : Ordering :=
  if X.length < Y.length then .lt
  else if Y.length < X.length then .gt
  else cmpDigits X Y

/-- `pad(X, L)`: zeros on the high end up to length L (41_sign_magnitude.md section 1). -/
def pad (X : List Nat) (L : Nat) : List Nat := X ++ List.replicate (L - X.length) 0

/-- The digit loop of `MagAdd` on lists of one length, with the carry in (41_sign_magnitude.md R132). -/
def addDigits (B : Nat) : List Nat → List Nat → Nat → List Nat
  | x :: xs, y :: ys, c => (x + y + c) % B :: addDigits B xs ys ((x + y + c) / B)
  | _, _, c => if c = 0 then [] else [c]

/-- `MagAdd(X, Y, B)` (41_sign_magnitude.md R132). -/
def magAdd (B : Nat) (X Y : List Nat) : List Nat :=
  let L := max X.length Y.length
  addDigits B (pad X L) (pad Y L) 0

/-- The digit loop of `MagSub` on lists of one length, with the borrow in (41_sign_magnitude.md R133). -/
def subDigits (B : Nat) : List Nat → List Nat → Nat → List Nat
  | x :: xs, y :: ys, br =>
    if x < y + br then (x + B - (y + br)) :: subDigits B xs ys 1
    else (x - (y + br)) :: subDigits B xs ys 0
  | _, _, _ => []

/-- `MagSub(X, Y, B)`, for `mag(X) ≥ mag(Y)` (41_sign_magnitude.md R133). -/
def magSub (B : Nat) (X Y : List Nat) : List Nat :=
  let L := max X.length Y.length
  trim (subDigits B (pad X L) (pad Y L) 0)

/-- Row `i` of `MagMul`: add `x` times Y into the accumulator from its place i on, with the carry in; the carry out
takes the place after the row (41_sign_magnitude.md R134). -/
def mulRow (B x : Nat) : List Nat → List Nat → Nat → List Nat
  | r :: rs, y :: ys, c => (r + x * y + c) % B :: mulRow B x rs ys ((r + x * y + c) / B)
  | _ :: rs, [], c => c :: rs
  | [], _, _ => []

/-- The rows of `MagMul`: each row starts one place higher than the one before (41_sign_magnitude.md R134). -/
def mulRows (B : Nat) (Y : List Nat) : List Nat → List Nat → List Nat
  | [], acc => acc
  | x :: xs, acc =>
    match mulRow B x acc Y 0 with
    | [] => []
    | r :: rs => r :: mulRows B Y xs rs

/-- `MagMul(X, Y, B)` (41_sign_magnitude.md R134). -/
def magMul (B : Nat) (X Y : List Nat) : List Nat := trim (mulRows B Y X (List.replicate (X.length + Y.length) 0))

/-- The inner loop of `MagDivMod`: subtract Y while the remainder is not less, counting. The fuel bounds the count; B
of it is enough, since each count is below B (41_sign_magnitude.md R135; notes/assumptions/8.md). -/
def countSub (B : Nat) (Y : List Nat) : Nat → List Nat → Nat × List Nat
  | 0, rem => (0, rem)
  | fuel + 1, rem =>
    match magCmp rem Y with
    | .lt => (0, rem)
    | _ =>
      let (n, r) := countSub B Y fuel (magSub B rem Y)
      (n + 1, r)

/-- The outer loop of `MagDivMod`: from the most significant digit of X down, bring a digit down and count
(41_sign_magnitude.md R135). -/
def divDigits (B : Nat) (Y : List Nat) : List Nat → List Nat × List Nat
  | [] => ([], [0])
  | x :: xs =>
    let (q, rem) := divDigits B Y xs
    let (n, r) := countSub B Y B (trim (x :: rem))
    (n :: q, r)

/-- `MagDivMod(X, Y, B)`, for Y not zero: quotient and remainder (41_sign_magnitude.md R135). -/
def magDivMod (B : Nat) (X Y : List Nat) : List Nat × List Nat :=
  let (q, rem) := divDigits B Y X
  (trim q, rem)

end Sys2Proof.Machine
end

