-- ==== Sys2Proof/Machine/Bits.lean ====
section
/-! DEFINITION. What a value denotes, and the bit-level primitives of the base-2 engine (42_twos_complement.md
section 1). -/

namespace Sys2Proof.Machine

/-- The base as a number (10_state.md R22). -/
def SmBase.toNat : SmBase → Nat
  | .eight => 8
  | .ten => 10
  | .sixteen => 16

/-- The integer an SM value denotes (10_state.md R23). -/
def Sm.val (x : Sm) : Int :=
  if x.neg then -(mag x.base.toNat x.digits : Int) else (mag x.base.toNat x.digits : Int)

/-- The integer a BIN value denotes: its bits and sign bit as a two's-complement word (10_state.md R26). -/
def Bin.val (x : Bin) : Int :=
  (mag 2 x.bits : Int) - (if x.sign then 2 ^ x.bits.length else 0)

/-- The two's-complement transform: copy through the first 1, invert the rest (42_twos_complement.md R170). -/
def tct : List Nat → List Nat
  | [] => []
  | b :: bs => if b = 1 then 1 :: bs.map (fun x => 1 - x) else b :: tct bs

/-- `Word(x)`: the bits with the sign bit on top (42_twos_complement.md R171). -/
def toWord (x : Bin) : List Nat := x.bits ++ [x.sign.toNat]

/-- `Unword(w)`: the top bit becomes the sign bit (42_twos_complement.md R171). -/
def unword (w : List Nat) : Bin := { sign := w.getLast? == some 1, bits := w.dropLast }

/-- `SExt(x, m)` for `m` at least the length: fill with copies of the sign (42_twos_complement.md R172). -/
def sExt (x : Bin) (m : Nat) : Bin :=
  { x with bits := x.bits ++ List.replicate (m - x.bits.length) x.sign.toNat }

/-- The value negated by the transform of its word, first widened by one sign bit; not normalised
(42_twos_complement.md R173, R176). -/
def negWord (x : Bin) : List Nat := tct (toWord (sExt x (x.bits.length + 1)))

/-- `Mag(x)`: the magnitude as a trimmed bit list (42_twos_complement.md R173). -/
def binMag (x : Bin) : List Nat := if x.sign then trim (negWord x).dropLast else trim x.bits

/-- `FromMag(negative, M)`: the canonical value of a sign and a trimmed magnitude (42_twos_complement.md R174). -/
def fromMag (negative : Bool) (M : List Nat) : Bin :=
  if !negative || M = [0] then { sign := false, bits := M }
  else { sign := true, bits := (tct (M ++ [0])).dropLast }

/-- `Canon(v)`: the canonical value of an integer (42_twos_complement.md R174). -/
def canon (v : Int) : Bin := fromMag (decide (v < 0)) (digitsOf 2 v.natAbs)

/-- `Norm(x)`: to canonical length (42_twos_complement.md R174). -/
def norm (x : Bin) : Bin := fromMag x.sign (binMag x)

/-- `RippleAdd(x, y)` on lists of one length, with the carry in; the last carry is dropped
(42_twos_complement.md R178). -/
def rippleAdd : List Nat → List Nat → Nat → List Nat
  | x :: xs, y :: ys, c => (x + y + c) % 2 :: rippleAdd xs ys ((x + y + c) / 2)
  | _, _, _ => []

/-- The loop of `ShiftAdd`: `X` is shifted one place further at each bit of Y (42_twos_complement.md R179). -/
def shiftAddFrom (X acc : List Nat) : List Nat → List Nat
  | [] => acc
  | y :: ys => shiftAddFrom (0 :: X) (if y = 1 then magAdd 2 acc X else acc) ys

/-- `ShiftAdd(X, Y)` (42_twos_complement.md R179). -/
def shiftAdd (X Y : List Nat) : List Nat := trim (shiftAddFrom X [0] Y)

end Sys2Proof.Machine
end

