-- ==== Sys2Proof/Machine/Characters.lean ====
section
/-! DEFINITION. The text of values: characters, literals in, display out (20_memory.md R52, R54;
40_setup_and_transfer.md R102, R103, R107, R108). -/

namespace Sys2Proof.Machine

/-- `digit(c)`: the value of a digit character, `0` to `9` and upper-case `A` to `F` only (20_memory.md R54). -/
def digitOfChar (c : Byte) : Option Nat :=
  if 0x30 ≤ c.toNat ∧ c.toNat ≤ 0x39 then some (c.toNat - 0x30)
  else if 0x41 ≤ c.toNat ∧ c.toNat ≤ 0x46 then some (c.toNat - 0x41 + 10)
  else none

/-- `chr(v)`: the character of a digit value, upper case (20_memory.md R54). -/
def charOfDigit (v : Nat) : Byte := if v < 10 then BitVec.ofNat 8 (0x30 + v) else BitVec.ofNat 8 (0x41 + (v - 10))

/-- The character `+` (20_memory.md R54). -/
def charPlus : Byte := 0x2B

/-- The character `-` (20_memory.md R54). -/
def charMinus : Byte := 0x2D

/-- The digit values of a text in text order, if every character is a digit valid for base B. -/
def digitsOfText (B : Nat) : Text → Option (List Nat)
  | [] => some []
  | c :: cs =>
    match digitOfChar c with
    | none => none
    | some d =>
      if d < B then
        match digitsOfText B cs with
        | none => none
        | some ds => some (d :: ds)
      else none

/-- A literal's optional sign and the characters after it; only the first character can be a sign
(40_setup_and_transfer.md R102). -/
def splitSign : Text → Bool × Text
  | [] => (false, [])
  | c :: cs => if c = charPlus then (false, cs) else if c = charMinus then (true, cs) else (false, c :: cs)

/-- `ParseSM(B, c)` (40_setup_and_transfer.md R102). -/
def parseSm (B : SmBase) (c : Text) : Except ErrorCode Sm :=
  match splitSign c with
  | (_, []) => .error .malformedLiteral
  | (neg, d :: ds) =>
    match digitsOfText B.toNat (d :: ds) with
    | none => .error .invalidDigit
    | some values => .ok { base := B, neg := neg, digits := trim values.reverse }

/-- `ParseBin(c)` (40_setup_and_transfer.md R103). -/
def parseBin (c : Text) : Except ErrorCode Bin :=
  match digitsOfText 2 c with
  | none => .error .invalidDigit
  | some [] => .error .malformedLiteral
  | some [_] => .error .malformedLiteral
  | some (s :: b :: bs) => .ok { sign := s == 1, bits := (b :: bs).reverse }

/-- `TextSM(neg, D)` (40_setup_and_transfer.md R107). -/
def textSm (x : Sm) : Text :=
  (if x.neg then [charMinus] else []) ++ x.digits.reverse.map charOfDigit

/-- `TextBin(s, bits)` (40_setup_and_transfer.md R108). -/
def textBin (x : Bin) : Text := charOfDigit x.sign.toNat :: x.bits.reverse.map charOfDigit

/-- The display text of a value, in the value's own base (40_setup_and_transfer.md R106). Read again in that base it gives
the same value, and it is no longer than any text the value was read from (R109: `parseLiteral_displayText` and
`displayText_length` in Laws/Literal.lean). -/
def displayText : Value → Text
  | .sm x => textSm x
  | .bin x => textBin x

/-- The digit list DIGIT indexes; the sign has no index (40_setup_and_transfer.md R110). -/
def digitList : Value → List Nat
  | .sm x => x.digits
  | .bin x => x.bits

end Sys2Proof.Machine
end

