-- ==== Sys2Proof/Machine/Operands.lean ====
section
/-! DEFINITION. How commands read their operands: source registers, their variants and bases, and the base a command
needs (30_encoding.md R84 steps 2 to 4). -/

namespace Sys2Proof.Machine

/-- `src(i)`: the value of a register, or UnknownRegister if it is EMPTY (10_state.md R28). -/
def src (s : State) (i : VReg) : Except ErrorCode Value :=
  match s.reg i with
  | .empty => .error .unknownRegister
  | .held v => .ok v

/-- `SMOne(ra)` (41_sign_magnitude.md R136). -/
def smOne (s : State) (ra : VReg) : Except ErrorCode Sm :=
  match src s ra with
  | .error e => .error e
  | .ok (.sm x) => .ok x
  | .ok (.bin _) => .error .operandMismatch

/-- `SMPair(ra, rb)`: both EMPTY checks first, `ra` before `rb`, then the variants, then the bases
(41_sign_magnitude.md R136). -/
def smPair (s : State) (ra rb : VReg) : Except ErrorCode (Sm × Sm) :=
  match src s ra, src s rb with
  | .error e, _ => .error e
  | .ok _, .error e => .error e
  | .ok (.sm x), .ok (.sm y) => if x.base = y.base then .ok (x, y) else .error .operandMismatch
  | .ok _, .ok _ => .error .operandMismatch

/-- `BINOne(ra)` (42_twos_complement.md R175). -/
def binOne (s : State) (ra : VReg) : Except ErrorCode Bin :=
  match src s ra with
  | .error e => .error e
  | .ok (.bin x) => .ok x
  | .ok (.sm _) => .error .operandMismatch

/-- `BINPair(ra, rb)` (42_twos_complement.md R175). -/
def binPair (s : State) (ra rb : VReg) : Except ErrorCode (Bin × Bin) :=
  match src s ra, src s rb with
  | .error e, _ => .error e
  | .ok _, .error e => .error e
  | .ok (.bin x), .ok (.bin y) => .ok (x, y)
  | .ok _, .ok _ => .error .operandMismatch

/-- The base a number names: 2, 8, 10 and 16 are legal, every other number, 0 among them, is UnsupportedBase
(00_scope.md R3, 60_exceptions.md R262). A BASE content that no command can store is treated alike
(notes/assumptions/9.md). -/
def resolveBase (n : Nat) : Except ErrorCode NumBase :=
  if n = 2 then .ok .two
  else if n = 8 then .ok (.sm .eight)
  else if n = 10 then .ok (.sm .ten)
  else if n = 16 then .ok (.sm .sixteen)
  else .error .unsupportedBase

/-- The active base of a command that needs one (10_state.md R32). -/
def activeBase (s : State) : Except ErrorCode NumBase := resolveBase s.base.toNat

/-- The target base of CVT.B2S: its field, or BASE when the field is 0 (43_base_converter.md R216). -/
def targetBase (s : State) (t : BitVec 16) : Except ErrorCode NumBase :=
  if t = 0 then activeBase s else resolveBase t.toNat

end Sys2Proof.Machine
end

