-- ==== Sys2Proof/Machine/Flags.lean ====
section
/-! DEFINITION. FLAGS: its fields and the two comparisons that write them (10_state.md R33; 41_sign_magnitude.md R139;
42_twos_complement.md R183). -/

namespace Sys2Proof.Machine

/-- The FLAGS word of two bits: EQ is bit 0, LT is bit 1, the rest zero (10_state.md R33). -/
def flagsWord (eq lt : Bool) : Word32 := 0#30 ++ BitVec.ofBool lt ++ BitVec.ofBool eq

/-- `FLAGS.EQ` (10_state.md R33). -/
def State.flagEq (s : State) : Bool := s.flags.getLsbD 0

/-- `FLAGS.LT` (10_state.md R33). -/
def State.flagLt (s : State) : Bool := s.flags.getLsbD 1

/-- EQ of SM.CMP: equal digits and, unless they are zero, equal signs (41_sign_magnitude.md R139). -/
def smEq (a b : Sm) : Bool := decide (a.digits = b.digits) && (a.neg == b.neg || decide (a.digits = [0]))

/-- LT of SM.CMP, under the parameter NEG_ORDER_REVERSED (41_sign_magnitude.md R139). -/
def smLt (negOrderReversed : Bool) (a b : Sm) : Bool :=
  if a.neg != b.neg then a.neg
  else if a.neg && negOrderReversed then magCmp a.digits b.digits == .gt
  else magCmp a.digits b.digits == .lt

/-- EQ of BIN.CMP (42_twos_complement.md R183). -/
def binEq (a b : Bin) : Bool :=
  if a.sign != b.sign then false else magCmp (binMag a) (binMag b) == .eq

/-- LT of BIN.CMP (42_twos_complement.md R183). -/
def binLt (a b : Bin) : Bool :=
  if a.sign != b.sign then a.sign
  else if a.sign then magCmp (binMag a) (binMag b) == .gt
  else magCmp (binMag a) (binMag b) == .lt

end Sys2Proof.Machine
end

