-- ==== Sys2Proof/Machine/Base2.lean ====
section
/-! DEFINITION. The base-2 engine (42_twos_complement.md sections 2 to 4). A value is a bit list of any
length, so nothing wraps, saturates or loses a bit; each result is the canonical value of the exact integer (R189). -/

namespace Sys2Proof.Machine

/-- The frame of a command on one BIN operand that writes `rd` or raises an error of its own, and then writes nothing
(42_twos_complement.md R175, R189, 30_encoding.md R84). -/
def binUnary (i : Instr) (rd ra : VReg) (s : State) (f : Bin → Except ErrorCode Bin) : Result :=
  finish (encodeWord i) s <|
    match binOne s ra with
    | .error e => .error e
    | .ok x =>
      match f x with
      | .error e => .error e
      | .ok r => writeValue rd (.bin r) s

/-- The frame of a command on two BIN operands that writes `rd` or raises an error of its own, and then writes nothing
(42_twos_complement.md R175, R189, 30_encoding.md R84). -/
def binBinary (i : Instr) (rd ra rb : VReg) (s : State) (f : Bin → Bin → Except ErrorCode Bin) : Result :=
  finish (encodeWord i) s <|
    match binPair s ra rb with
    | .error e => .error e
    | .ok (a, b) =>
      match f a b with
      | .error e => .error e
      | .ok r => writeValue rd (.bin r) s

/-- Negation: the transform of the widened word, normalised (R176, R189). -/
def binNegate (x : Bin) : Bin := norm (unword (negWord x))

/-- BIN.NEG (R176). -/
def execBinNeg (rd ra : VReg) (s : State) : Result :=
  binUnary (.binNeg rd ra) rd ra s (fun x => .ok (binNegate x))

/-- BIN.NORM (R177). -/
def execBinNorm (rd ra : VReg) (s : State) : Result :=
  binUnary (.binNorm rd ra) rd ra s (fun x => .ok (norm x))

/-- To exactly m bits: widen with the sign, narrow by dropping copies of it, else WidthOverflow (R181), the
engine's only width error (R189). A bit count
of 0 is an illegal command; the decoder never gives one (30_encoding.md R77). -/
def binResized (m : BitVec 16) (x : Bin) : Except ErrorCode Bin :=
  if m = 0 then .error .illegalCommand
  else if x.bits.length ≤ m.toNat then .ok (sExt x m.toNat)
  else if (x.bits.drop m.toNat).all (fun b => b == x.sign.toNat) then .ok { x with bits := x.bits.take m.toNat }
  else .error .widthOverflow

/-- BIN.RESIZE; the zero bit count comes before the operand check, as in the decoder (R181, 30_encoding.md R84). -/
def execBinResize (rd ra : VReg) (m : BitVec 16) (s : State) : Result :=
  if m = 0 then raiseIllegal (encodeWord (.binResize rd ra m)) s
  else binUnary (.binResize rd ra m) rd ra s (binResized m)

/-- BIN.CMP: both flags, no register (R183). -/
def execBinCmp (ra rb : VReg) (s : State) : Result :=
  finish (encodeWord (.binCmp ra rb)) s <|
    match binPair s ra rb with
    | .error e => .error e
    | .ok (a, b) => doneState (s.setFlags (flagsWord (binEq a b) (binLt a b)))

/-- `BinAdd(a, b)`: one bit more than the longer operand, so the carry is kept (R184, R189). -/
def binSum (a b : Bin) : Bin :=
  if a.sign = b.sign then
    let m := max a.bits.length b.bits.length + 1
    norm (unword (rippleAdd (toWord (sExt a m)) (toWord (sExt b m)) 0))
  else
    match magCmp (binMag a) (binMag b) with
    | .eq => { sign := false, bits := [0] }
    | .gt => fromMag a.sign (magSub 2 (binMag a) (binMag b))
    | .lt => fromMag b.sign (magSub 2 (binMag b) (binMag a))

/-- BIN.ADD (R184). -/
def execBinAdd (rd ra rb : VReg) (s : State) : Result :=
  binBinary (.binAdd rd ra rb) rd ra rb s (fun a b => .ok (binSum a b))

/-- Subtraction: on magnitudes for one sign, else the sum with the negated subtrahend (R185, R189). -/
def binDifference (a b : Bin) : Bin :=
  if a.sign = b.sign then
    match magCmp (binMag a) (binMag b) with
    | .lt => fromMag (!a.sign) (magSub 2 (binMag b) (binMag a))
    | _ => fromMag a.sign (magSub 2 (binMag a) (binMag b))
  else binSum a (binNegate b)

/-- BIN.SUB (R185). -/
def execBinSub (rd ra rb : VReg) (s : State) : Result :=
  binBinary (.binSub rd ra rb) rd ra rb s (fun a b => .ok (binDifference a b))

/-- Multiplication: shift and add on magnitudes, then the sign (R186, R189). -/
def binProduct (a b : Bin) : Bin := fromMag (a.sign != b.sign) (shiftAdd (binMag a) (binMag b))

/-- BIN.MUL (R186). -/
def execBinMul (rd ra rb : VReg) (s : State) : Result :=
  binBinary (.binMul rd ra rb) rd ra rb s (fun a b => .ok (binProduct a b))

/-- Division on magnitudes under the exclusive or of the signs: truncation toward zero (R187, R189). -/
def binQuotient (a b : Bin) : Except ErrorCode Bin :=
  if binMag b = [0] then .error .divisionByZero
  else .ok (fromMag (a.sign != b.sign) (magDivMod 2 (binMag a) (binMag b)).1)

/-- BIN.DIV (R187). -/
def execBinDiv (rd ra rb : VReg) (s : State) : Result := binBinary (.binDiv rd ra rb) rd ra rb s binQuotient

/-- Remainder on magnitudes under the dividend's sign (R188, R189). -/
def binRemainder (a b : Bin) : Except ErrorCode Bin :=
  if binMag b = [0] then .error .divisionByZero
  else .ok (fromMag a.sign (magDivMod 2 (binMag a) (binMag b)).2)

/-- BIN.MOD (R188). -/
def execBinMod (rd ra rb : VReg) (s : State) : Result := binBinary (.binMod rd ra rb) rd ra rb s binRemainder

end Sys2Proof.Machine
end

