-- ==== Sys2Proof/Machine/Converter.lean ====
section
/-! DEFINITION. The base converter (43_base_converter.md). -/

namespace Sys2Proof.Machine

/-- The k bits of one digit, least significant first (R211). -/
def digitBits : Nat → Nat → List Nat
  | 0, _ => []
  | k + 1, d => d % 2 :: digitBits k (d / 2)

/-- `DigitsToBits(D, k)`: k bits for each digit, none stripped (R211). -/
def digitsToBits (k : Nat) (D : List Nat) : List Nat := D.flatMap (digitBits k)

/-- The halving loop of `DecToBits`. The fuel bounds the number of halvings; the quotient falls strictly
(R213, 70_reset_and_hazards.md R296; notes/assumptions/8.md). -/
def halvings : Nat → List Nat → List Nat
  | 0, q => [q.headD 0]
  | fuel + 1, q =>
    match magCmp q [2] with
    | .lt => [q.headD 0]
    | _ =>
      let (half, rem) := magDivMod 10 q [2]
      rem.headD 0 :: halvings fuel half

/-- `DecToBits(D)`: repeated division by 2 in base 10; a decimal digit gives fewer than four bits (R213). -/
def decToBits (D : List Nat) : List Nat := halvings (4 * D.length) D

/-- The magnitude bits of a sign-magnitude value, by its base (R212). -/
def smBits (x : Sm) : List Nat :=
  match x.base with
  | .eight => digitsToBits 3 x.digits
  | .sixteen => digitsToBits 4 x.digits
  | .ten => decToBits x.digits

/-- A value in base 2: a BIN value is copied; a negative SM value's word is transformed (R212). -/
def toBinary : Value → Bin
  | .bin x => x
  | .sm x => if x.neg then unword (tct (smBits x ++ [0])) else { sign := false, bits := smBits x }

/-- CVT.S2B (R212). -/
def execCvtS2b (rd ra : VReg) (s : State) : Result :=
  finish (encodeWord (.cvtS2b rd ra)) s <|
    match src s ra with
    | .error e => .error e
    | .ok v => writeValue rd (.bin (toBinary v)) s

/-- The digits of the first `L` chunks of k bits (R214). -/
def chunkDigits (k : Nat) : Nat → List Nat → List Nat
  | 0, _ => []
  | L + 1, M => mag 2 (M.take k) :: chunkDigits k L (M.drop k)

/-- `BitsToDigits(M, k)`: chunks from the least significant end, the last padded with zeros (R214). -/
def bitsToDigits (k : Nat) (M : List Nat) : List Nat :=
  let L := (M.length + (k - 1)) / k
  trim (chunkDigits k L (pad M (k * L)))

/-- The weighted sum of `BitsToDec`: `p` is the weight of the next bit (R215). -/
def weightedSum (acc p : List Nat) : List Nat → List Nat
  | [] => acc
  | b :: bs => weightedSum (if b = 1 then magAdd 10 acc p else acc) (magAdd 10 p p) bs

/-- `BitsToDec(M)`: in base-10 digit lists throughout, exact at every length (R215, R218). -/
def bitsToDec (M : List Nat) : List Nat := weightedSum [0] [1] M

/-- The digits of a magnitude in a base (R216). -/
def bitsToBase (b : SmBase) (M : List Nat) : List Nat :=
  match b with
  | .eight => bitsToDigits 3 M
  | .sixteen => bitsToDigits 4 M
  | .ten => bitsToDec M

/-- A BIN value in a target base; target 2 copies (R216). -/
def toBase (T : NumBase) (x : Bin) : Value :=
  match T with
  | .two => .bin x
  | .sm b => .sm { base := b, neg := x.sign, digits := bitsToBase b (binMag x) }

/-- CVT.B2S: the variant is checked before the target base (R216, 60_exceptions.md R269). -/
def execCvtB2s (rd ra : VReg) (t : BitVec 16) (s : State) : Result :=
  finish (encodeWord (.cvtB2s rd ra t)) s <|
    match binOne s ra with
    | .error e => .error e
    | .ok x =>
      match targetBase s t with
      | .error e => .error e
      | .ok T => writeValue rd (toBase T x) s

end Sys2Proof.Machine
end

