-- ==== Sys2Proof/Machine/SignMagnitude.lean ====
section
/-! DEFINITION. The sign-magnitude engine (41_sign_magnitude.md sections 2 and 3). A value is a digit list of
any length, so nothing wraps, overflows or loses a digit (R137, R147). -/

namespace Sys2Proof.Machine

/-- The frame of a command on one SM operand that writes `rd` (41_sign_magnitude.md R136, R137, R147,
30_encoding.md R84). -/
def smUnary (i : Instr) (rd ra : VReg) (s : State) (f : Sm → Sm) : Result :=
  finish (encodeWord i) s <|
    match smOne s ra with
    | .error e => .error e
    | .ok a => writeValue rd (.sm (f a)) s

/-- The frame of a command on two SM operands that writes `rd` or raises an error of its own, and then writes nothing
(41_sign_magnitude.md R136, R137, R147, 30_encoding.md R84). -/
def smBinary (i : Instr) (rd ra rb : VReg) (s : State) (f : Sm → Sm → Except ErrorCode Sm) : Result :=
  finish (encodeWord i) s <|
    match smPair s ra rb with
    | .error e => .error e
    | .ok (a, b) =>
      match f a b with
      | .error e => .error e
      | .ok r => writeValue rd (.sm r) s

/-- Negation: flip the sign, zero of either sign to positive zero (R138). -/
def smNegate (a : Sm) : Sm :=
  if a.digits = [0] then { a with neg := false, digits := [0] } else { a with neg := !a.neg }

/-- SM.NEG (R138). -/
def execSmNeg (rd ra : VReg) (s : State) : Result := smUnary (.smNeg rd ra) rd ra s smNegate

/-- SM.CMP: both flags, no register (R139). -/
def execSmCmp (ra rb : VReg) (s : State) : Result :=
  finish (encodeWord (.smCmp ra rb)) s <|
    match smPair s ra rb with
    | .error e => .error e
    | .ok (a, b) => doneState (s.setFlags (flagsWord (smEq a b) (smLt s.params.negOrderReversed a b)))

/-- `SignedAdd(B, a, b)` (R140). -/
def signedAdd (a b : Sm) : Sm :=
  if a.neg = b.neg then { a with digits := magAdd a.base.toNat a.digits b.digits }
  else
    match magCmp a.digits b.digits with
    | .eq => { a with neg := false, digits := [0] }
    | .gt => { a with digits := magSub a.base.toNat a.digits b.digits }
    | .lt => { a with neg := b.neg, digits := magSub a.base.toNat b.digits a.digits }

/-- SM.ADD (R141). -/
def execSmAdd (rd ra rb : VReg) (s : State) : Result :=
  smBinary (.smAdd rd ra rb) rd ra rb s (fun a b => .ok (signedAdd a b))

/-- Subtraction: addition with the subtrahend's sign flipped, also of a zero (R142). -/
def signedSub (a b : Sm) : Sm := signedAdd a { b with neg := !b.neg }

/-- SM.SUB (R142). -/
def execSmSub (rd ra rb : VReg) (s : State) : Result :=
  smBinary (.smSub rd ra rb) rd ra rb s (fun a b => .ok (signedSub a b))

/-- Multiplication: the sign is the exclusive or, of a zero product too (R143). -/
def smProduct (a b : Sm) : Sm :=
  { a with neg := xor a.neg b.neg, digits := magMul a.base.toNat a.digits b.digits }

/-- SM.MUL (R143). -/
def execSmMul (rd ra rb : VReg) (s : State) : Result :=
  smBinary (.smMul rd ra rb) rd ra rb s (fun a b => .ok (smProduct a b))

/-- Division: the quotient of the magnitudes under the exclusive or of the signs (R144). -/
def smQuotient (a b : Sm) : Except ErrorCode Sm :=
  if b.digits = [0] then .error .divisionByZero
  else .ok { a with neg := xor a.neg b.neg, digits := (magDivMod a.base.toNat a.digits b.digits).1 }

/-- SM.DIV (R144). -/
def execSmDiv (rd ra rb : VReg) (s : State) : Result := smBinary (.smDiv rd ra rb) rd ra rb s smQuotient

/-- Remainder: of the magnitudes, under the dividend's sign (R145). -/
def smRemainder (a b : Sm) : Except ErrorCode Sm :=
  if b.digits = [0] then .error .divisionByZero
  else .ok { a with digits := (magDivMod a.base.toNat a.digits b.digits).2 }

/-- SM.MOD (R145). -/
def execSmMod (rd ra rb : VReg) (s : State) : Result := smBinary (.smMod rd ra rb) rd ra rb s smRemainder

/-- One times `a`, n times over, each time as SM.MUL (R146); by recursion on the exponent's value
(70_reset_and_hazards.md R296, notes/assumptions/17.md). -/
def powTimes (a : Sm) : Nat → Sm
  | 0 => { a with neg := false, digits := [1] }
  | n + 1 => smProduct (powTimes a n) a

/-- Power: a negative exponent is an error, negative zero counts as zero (R146). -/
def smPower (a e : Sm) : Except ErrorCode Sm :=
  if e.neg && decide (e.digits ≠ [0]) then .error .negativeExponent
  else .ok (powTimes a (mag e.base.toNat e.digits))

/-- SM.POW (R146). -/
def execSmPow (rd ra rb : VReg) (s : State) : Result := smBinary (.smPow rd ra rb) rd ra rb s smPower

end Sys2Proof.Machine
end

