-- ==== Sys2Proof/Machine/Transfer.lean ====
section
/-! DEFINITION. The setup and transfer commands (40_setup_and_transfer.md). -/

namespace Sys2Proof.Machine

/-- SETBASE: choose the active base (R100). -/
def execSetbase (n : BitVec 16) (s : State) : Result :=
  finish (encodeWord (.setbase n)) s <|
    match resolveBase n.toNat with
    | .error e => .error e
    | .ok _ => doneState (s.setBase (n.setWidth 32))

/-- The value of a literal in a base (R101); on the text `displayText` gives it is the identity (R109). -/
def parseLiteral (b : NumBase) (c : Text) : Except ErrorCode Value :=
  match b with
  | .two =>
    match parseBin c with
    | .error e => .error e
    | .ok x => .ok (.bin x)
  | .sm b =>
    match parseSm b c with
    | .error e => .error e
    | .ok x => .ok (.sm x)

/-- LDL: load a literal in the active base; the base is checked before the text (R101). -/
def execLdl (rd : VReg) (text : Text) (s : State) : Result :=
  finish (encodeWord (.ldl rd text)) s <|
    match activeBase s with
    | .error e => .error e
    | .ok b =>
      match parseLiteral b text with
      | .error e => .error e
      | .ok v => writeValue rd v s

/-- The value of an integer in a base (R104). -/
def valueOfInt (b : NumBase) (x : Int) : Value :=
  match b with
  | .two => .bin (canon x)
  | .sm b => .sm { base := b, neg := decide (x < 0), digits := digitsOf b.toNat x.natAbs }

/-- LDI: load a 64-bit signed integer in the active base (R104). -/
def execLdi (rd : VReg) (n : BitVec 64) (s : State) : Result :=
  finish (encodeWord (.ldi rd n)) s <|
    match activeBase s with
    | .error e => .error e
    | .ok b => writeValue rd (valueOfInt b n.toInt) s

/-- DISP: answer the text of a value (R106). -/
def execDisp (ra : VReg) (s : State) : Result :=
  finish (encodeWord (.disp ra)) s <|
    match src s ra with
    | .error e => .error e
    | .ok v => doneData s (displayText v)

/-- DIGIT: answer one digit's value (R110). -/
def execDigit (ra : VReg) (i : BitVec 16) (s : State) : Result :=
  finish (encodeWord (.digit ra i)) s <|
    match src s ra with
    | .error e => .error e
    | .ok v =>
      match (digitList v)[i.toNat]? with
      | none => .error .indexOutOfRange
      | some d => doneData s [BitVec.ofNat 8 d]

/-- CSRR: answer the four bytes of a control register, least significant first (R112). -/
def execCsrr (c : Csr) (s : State) : Result :=
  finish (encodeWord (.csrr c)) s (doneData s (leBytes 4 (s.csr c).toNat))

/-- CLRERR: forget the recorded error (R113). -/
def execClrerr (s : State) : Result :=
  finish (encodeWord .clrerr) s (doneState s.clearError)

end Sys2Proof.Machine
end

