-- ==== Sys2Proof/Machine/Dispatch.lean ====
section
/-! DEFINITION. The meaning of every instruction: one arm per constructor. -/

namespace Sys2Proof.Machine

def exec (i : Instr) (s : State) : Host.Outcome State Fault Refusal :=
  match i with
  -- setup and transfer
  | .setbase n => Sys2Proof.Machine.execSetbase n s
  | .ldl rd text => Sys2Proof.Machine.execLdl rd text s
  | .ldi rd n => Sys2Proof.Machine.execLdi rd n s
  | .disp ra => Sys2Proof.Machine.execDisp ra s
  | .digit ra k => Sys2Proof.Machine.execDigit ra k s
  | .csrr c => Sys2Proof.Machine.execCsrr c s
  | .clrerr => Sys2Proof.Machine.execClrerr s
  -- sign-magnitude engine
  | .smNeg rd ra => Sys2Proof.Machine.execSmNeg rd ra s
  | .smCmp ra rb => Sys2Proof.Machine.execSmCmp ra rb s
  | .smAdd rd ra rb => Sys2Proof.Machine.execSmAdd rd ra rb s
  | .smSub rd ra rb => Sys2Proof.Machine.execSmSub rd ra rb s
  | .smMul rd ra rb => Sys2Proof.Machine.execSmMul rd ra rb s
  | .smDiv rd ra rb => Sys2Proof.Machine.execSmDiv rd ra rb s
  | .smMod rd ra rb => Sys2Proof.Machine.execSmMod rd ra rb s
  | .smPow rd ra rb => Sys2Proof.Machine.execSmPow rd ra rb s
  -- base-2 engine
  | .binNeg rd ra => Sys2Proof.Machine.execBinNeg rd ra s
  | .binCmp ra rb => Sys2Proof.Machine.execBinCmp ra rb s
  | .binAdd rd ra rb => Sys2Proof.Machine.execBinAdd rd ra rb s
  | .binSub rd ra rb => Sys2Proof.Machine.execBinSub rd ra rb s
  | .binMul rd ra rb => Sys2Proof.Machine.execBinMul rd ra rb s
  | .binDiv rd ra rb => Sys2Proof.Machine.execBinDiv rd ra rb s
  | .binMod rd ra rb => Sys2Proof.Machine.execBinMod rd ra rb s
  | .binResize rd ra m => Sys2Proof.Machine.execBinResize rd ra m s
  | .binNorm rd ra => Sys2Proof.Machine.execBinNorm rd ra s
  -- base converter
  | .cvtS2b rd ra => Sys2Proof.Machine.execCvtS2b rd ra s
  | .cvtB2s rd ra t => Sys2Proof.Machine.execCvtB2s rd ra t s

end Sys2Proof.Machine
end

