-- ==== Sys2Proof/Machine/Step.lean ====
section
/-! DEFINITION. One step: the unit takes the host's next action and carries it out (00_scope.md R10, R11). -/

namespace Sys2Proof.Machine

/-- Carry out one command word with its payload: decode, then the command's meaning, or IllegalCommand
(30_encoding.md R79, R84). -/
def runWord (word : Word32) (payload : List Byte) (s : State) : Host.Outcome State Fault Refusal :=
  match decode word payload with
  | some i => exec i s
  | none => raiseIllegal word s

/-- One step. With no action pending the unit is idle and holds its state (60_exceptions.md R285,
notes/assumptions/4.md); a reset puts the architectural state back (70_reset_and_hazards.md R290); a command is
carried out to completion, and the position in the host's list moves on by exactly one whether it succeeded or raised
(10_state.md R30). -/
def step (s : State) : Host.Outcome State Fault Refusal :=
  match s.pending with
  | [] => .next s
  | .reset :: rest => .next (s.setPending rest).applyReset
  | .command word payload :: rest => runWord word payload (s.setPending rest)

/-- `s` with an instruction, its bits numbered as spec/opcode_table.json numbers them, as the host's very next action
(notes/assumptions/2.md). -/
def State.withFetchWord (s : State) (nbits w : Nat) : State :=
  s.setPending (.command (numberedWord nbits w) (numberedPayload nbits w) :: s.pending)

end Sys2Proof.Machine
end

