-- ==== Sys2Proof/Machine/Driver.lean ====
section
/-! DEFINITION. The host RPN driver (49_host_rpn_driver.md): software outside the unit that turns script lines into
commands and hands them to `step` one at a time (notes/assumptions/12.md). -/

namespace Sys2Proof.Machine

/-! ## The driver's state (R230, R231) -/

/-- What the driver holds outside the unit: the keys with their registers in order of creation, the evaluation stack with
its top first, and the active base as it last set it (R230). -/
structure Driver where
  names : List (Text × VReg)
  stack : List Text
  base : Nat
deriving DecidableEq, Repr

/-- The driver at the start of a script; the unit is then in its reset state, whose BASE is 0 too (R230). -/
def Driver.start : Driver := { names := [], stack := [], base := 0 }

/-- The driver with nothing on its stack (R230, R237). -/
def Driver.emptyStack (d : Driver) : Driver := { d with stack := [] }

/-- The registers keys can be paired with, lowest first (R231). -/
def nameRegs : List VReg := [0, 1, 2, 3, 4, 5, 6, 7, 8, 9, 10, 11, 12]

/-- The driver's temporary for the left operand, `T0` (R231). -/
def tempLeft : VReg := 13

/-- The driver's temporary for the right operand, `T1` (R231). -/
def tempRight : VReg := 14

/-- The driver's temporary for the result, `T2` (R231). -/
def tempResult : VReg := 15

/-- `Lookup(key)`: the register paired with a key, or absent (R231). -/
def lookupName (key : Text) : List (Text × VReg) → Option VReg
  | [] => none
  | (k, r) :: rest => if k = key then some r else lookupName key rest

/-- `Alloc(key)`: the key's register, or the lowest one not yet paired with the pair appended; CapacityExceeded when all
thirteen are taken (R231). -/
def allocName (key : Text) (names : List (Text × VReg)) : Except ErrorCode (VReg × List (Text × VReg)) :=
  match lookupName key names with
  | some r => .ok (r, names)
  | none =>
    match nameRegs.find? (fun r => !(names.map Prod.snd).contains r) with
    | some r => .ok (r, names ++ [(key, r)])
    | none => .error .capacityExceeded

/-! ## Issuing commands (R241) -/

/-- An outcome of the unit, carrying what the driver needs of it. -/
abbrev Issued (α : Type) := Host.Outcome α Fault Refusal

/-- Hand one command to the unit and wait for its response (R241). The answer is the last response the unit gave. -/
def issue (i : Instr) (unit : State) : Issued (State × Response) :=
  andThen (step (unit.setPending (.command (encodeWord i) (encodePayload i) :: unit.pending))) fun t =>
    .next (t, t.responses.getLast?.getD { code := 0, data := [] })

/-- Issue commands in order; stop at the first that answers an error, with its code (R235, R238). -/
def issueAll : List Instr → State → Issued (State × BitVec 4)
  | [], unit => .next (unit, 0)
  | i :: rest, unit =>
    andThen (issue i unit) fun (t, r) => if r.code = 0 then issueAll rest t else .next (t, r.code)

/-- The driver and the unit after a line or a part of one, and the line's code so far (R238). -/
structure Progress where
  driver : Driver
  unit : State
  code : BitVec 4
deriving DecidableEq, Repr

/-! ## The lines (R232 to R237) -/

/-- The operator tokens `+ - * / %` (R234). -/
inductive RpnOp where
  | add | sub | mul | div | mod
deriving DecidableEq, Repr

/-- The operator a token is, if it is one (R234). -/
def rpnOpOf (t : Text) : Option RpnOp :=
  if t = [0x2B] then some .add
  else if t = [0x2D] then some .sub
  else if t = [0x2A] then some .mul
  else if t = [0x2F] then some .div
  else if t = [0x25] then some .mod
  else none

/-- The command of an operator on the temporaries (R235). -/
def RpnOp.command : RpnOp → Instr
  | .add => .binAdd tempResult tempLeft tempRight
  | .sub => .binSub tempResult tempLeft tempRight
  | .mul => .binMul tempResult tempLeft tempRight
  | .div => .binDiv tempResult tempLeft tempRight
  | .mod => .binMod tempResult tempLeft tempRight

/-- An operator token: pop the right operand, then the left, compute in base 2, convert back to the active base, write
`key`, push `key`'s name (R235, R236). The register of `key` is found before the first command, so that a fourteenth name
fails with CapacityExceeded and nothing is issued (R231, 93_implementation_defined.md section 2); a new pair is kept only if
every command succeeded (R235, R239). How the two rules fit is in notes/assumptions/22.md. -/
def runOperator (key : Text) (op : RpnOp) (d : Driver) (unit : State) : Issued Progress :=
  match d.stack with
  | right :: left :: rest =>
    match lookupName left d.names, lookupName right d.names with
    | some a, some b =>
      match allocName key d.names with
      | .error e => .next { driver := { d with stack := rest }, unit := unit, code := e.number }
      | .ok (k, names) =>
        andThen (issueAll [.cvtS2b tempLeft a, .cvtS2b tempRight b, op.command, .cvtB2s k tempResult 0] unit)
          fun (u, code) =>
            if code = 0 then .next { driver := { d with names := names, stack := key :: rest }, unit := u, code := 0 }
            else .next { driver := { d with stack := rest }, unit := u, code := code }
    | _, _ => .next { driver := { d with stack := rest }, unit := unit, code := ErrorCode.unknownRegister.number }
  | _ => .next { driver := d, unit := unit, code := ErrorCode.emptyStackUnderflow.number }

/-- The tokens of a query, left to right: an operator, or a name to push, not looked up now; the first error ends the
line (R234, R238). -/
def runTokens (key : Text) : List Text → Driver → State → Issued Progress
  | [], d, unit => .next { driver := d, unit := unit, code := 0 }
  | t :: ts, d, unit =>
    match rpnOpOf t with
    | some op =>
      andThen (runOperator key op d unit) fun p =>
        if p.code = 0 then runTokens key ts p.driver p.unit else .next p
    | none => runTokens key ts { d with stack := t :: d.stack } unit

/-- A query line (R234). -/
def runQuery (key : Text) (tokens : List Text) (d : Driver) (unit : State) : Issued Progress :=
  runTokens key tokens d.emptyStack unit

/-- An assignment line; a new pair is kept only if the LDL succeeds (R233). A literal longer than a payload can be is
refused by the driver (notes/assumptions/13.md). -/
def runAssign (key value : Text) (d : Driver) (unit : State) : Issued Progress :=
  let d := d.emptyStack
  match allocName key d.names with
  | .error e => .next { driver := d, unit := unit, code := e.number }
  | .ok (r, names) =>
    if 65536 ≤ value.length then .next { driver := d, unit := unit, code := ErrorCode.capacityExceeded.number }
    else
      andThen (issueAll [.ldl r value] unit) fun (u, code) =>
        .next { driver := if code = 0 then { d with names := names } else d, unit := u, code := code }

/-! ## Line forms (R242) -/

/-- A space or a tab (R242). -/
def isBlank (c : Byte) : Bool := c == 0x20 || c == 0x09

/-- Cut a line at runs of spaces and tabs; `word` is the token being read (R242). -/
def tokensFrom : Text → Text → List Text
  | word, [] => if word = [] then [] else [word]
  | word, c :: cs =>
    if isBlank c then (if word = [] then tokensFrom [] cs else word :: tokensFrom [] cs)
    else tokensFrom (word ++ [c]) cs

/-- The tokens of a line (R242). -/
def tokensOf (line : Text) : List Text := tokensFrom [] line

/-- A line that fails with MalformedLiteral and issues nothing (R242). -/
def malformedLine (d : Driver) (unit : State) : Issued Progress :=
  .next { driver := d, unit := unit, code := ErrorCode.malformedLiteral.number }

/-- The stack is empty before and after each line, whatever the line's form and however it ends: it is emptied at the start
of the line, and a residue is discarded at its end without an error (R230, R237). -/
def asLine (run : Driver → State → Issued Progress) (d : Driver) (unit : State) : Issued Progress :=
  andThen (run d.emptyStack unit) fun p => .next { p with driver := p.driver.emptyStack }

/-- The forms of a line after line 0: skipped if it has no token, an assignment, a query, or of no known shape (R242). A
skipped line's code is 0 (notes/assumptions/14.md). -/
def runForm (line : Text) (d : Driver) (unit : State) : Issued Progress :=
  match tokensOf line with
  | [] => .next { driver := d, unit := unit, code := 0 }
  | key :: form :: rest =>
    if form = [0x3D] then
      match rest with
      | [value] => runAssign key value d unit
      | _ => malformedLine d unit
    else if form = [0x3F] then runQuery key rest d unit
    else malformedLine d unit
  | [_] => malformedLine d unit

/-- A line after line 0 (R242), with the stack empty before and after it (R230, R237). -/
def runLine (line : Text) (d : Driver) (unit : State) : Issued Progress := asLine (runForm line) d unit

/-- The number of a text of decimal digits, read from the most significant (R242). -/
def decimalFrom : Nat → Text → Option Nat
  | n, [] => some n
  | n, c :: cs =>
    match digitOfChar c with
    | some d => if d < 10 then decimalFrom (10 * n + d) cs else none
    | none => none

/-- The number of a `base=N` line, spaces and tabs removed; one digit at least (R242). -/
def baseOfLine (line : Text) : Option Nat :=
  match line.filter (fun c => !isBlank c) with
  | 0x62 :: 0x61 :: 0x73 :: 0x65 :: 0x3D :: c :: cs => decimalFrom 0 (c :: cs)
  | _ => none

/-- The form of line 0: one SETBASE; a number that does not fit its field is UnsupportedBase and issues nothing
(R232, R242). -/
def runBaseForm (line : Text) (d : Driver) (unit : State) : Issued Progress :=
  match baseOfLine line with
  | none => malformedLine d unit
  | some n =>
    if 65536 ≤ n then .next { driver := d, unit := unit, code := ErrorCode.unsupportedBase.number }
    else
      andThen (issueAll [.setbase (BitVec.ofNat 16 n)] unit) fun (u, code) =>
        .next { driver := if code = 0 then { d with base := n } else d, unit := u, code := code }

/-- Line 0 (R232, R242), with the stack empty before and after it (R230, R237). -/
def runBaseLine (line : Text) (d : Driver) (unit : State) : Issued Progress := asLine (runBaseForm line) d unit

/-! ## Scripts and output (R238, R240, R241) -/

/-- The driver and the unit after a script, and the code of every line (R238). -/
structure ScriptResult where
  driver : Driver
  unit : State
  codes : List (BitVec 4)
deriving DecidableEq, Repr

/-- The lines after line 0, in file order; a failed line does not stop the script (R238, R241). -/
def runLines : List Text → Driver → State → Issued ScriptResult
  | [], d, unit => .next { driver := d, unit := unit, codes := [] }
  | line :: rest, d, unit =>
    andThen (runLine line d unit) fun p =>
      andThen (runLines rest p.driver p.unit) fun r => .next { r with codes := p.code :: r.codes }

/-- A script: line 0, then the others, from a unit in its reset state and a driver with no names and an empty stack
(R230, R242). A script of no lines does nothing (notes/assumptions/15.md). -/
def runScript (lines : List Text) (params : Params) : Issued ScriptResult :=
  match lines with
  | [] => .next { driver := .start, unit := State.resetWith params, codes := [] }
  | first :: rest =>
    andThen (runBaseLine first .start (State.resetWith params)) fun p =>
      andThen (runLines rest p.driver p.unit) fun r => .next { r with codes := p.code :: r.codes }

/-- Key order: byte by byte as unsigned numbers, a proper prefix before the longer key (R240). -/
def keyBefore : Text → Text → Bool
  | [], [] => false
  | [], _ :: _ => true
  | _ :: _, [] => false
  | x :: xs, y :: ys => if x = y then keyBefore xs ys else decide (x.toNat < y.toNat)

/-- Insert a pair in key order. -/
def insertKey (p : Text × VReg) : List (Text × VReg) → List (Text × VReg)
  | [] => [p]
  | q :: rest => if keyBefore p.1 q.1 then p :: q :: rest else q :: insertKey p rest

/-- Store order: the pairs in key order (R240). -/
def storeOrder (names : List (Text × VReg)) : List (Text × VReg) := names.foldr insertKey []

/-- One output line: the key, ` => `, and the text DISP answers (R240, notes/assumptions/21.md). -/
def outputLine (key text : Text) : Text := key ++ [0x20, 0x3D, 0x3E, 0x20] ++ text

/-- The output lines of pairs in the order given, each by one DISP (R240). -/
def outputOf : List (Text × VReg) → State → Issued (State × List Text)
  | [], unit => .next (unit, [])
  | (key, r) :: rest, unit =>
    andThen (issue (.disp r) unit) fun (t, answer) =>
      andThen (outputOf rest t) fun (u, lines) => .next (u, outputLine key answer.data :: lines)

/-- The output of a store (R240). -/
def printStore (d : Driver) (unit : State) : Issued (State × List Text) := outputOf (storeOrder d.names) unit

end Sys2Proof.Machine
end

