-- ==== Sys2Proof/Safety.lean ====
section
/-! DEFINITION. The vocabulary of claims: well-formed values and states, and a command's destination. -/

namespace Sys2Proof.Machine

/-- Every digit is below the base and there is one at least (10_state.md R22 a and b, R25). -/
abbrev DigitsOk (B : Nat) (D : List Nat) : Prop := D ≠ [] ∧ ∀ d ∈ D, d < B

/-- One digit, or a most significant digit that is not 0 (10_state.md R22 c). -/
abbrev Trimmed (D : List Nat) : Prop := D.length = 1 ∨ D.getLast? ≠ some 0

/-- The invariants of an SM value (10_state.md R22). -/
abbrev Sm.WF (x : Sm) : Prop := DigitsOk x.base.toNat x.digits ∧ Trimmed x.digits

/-- The invariant of a BIN value: bits, at least one (10_state.md R25). -/
abbrev Bin.WF (x : Bin) : Prop := DigitsOk 2 x.bits

/-- The invariants of a value (10_state.md R22, R25). -/
def Value.wf : Value → Bool
  | .sm x => decide x.WF
  | .bin x => decide x.WF

/-- The integer a value denotes (10_state.md R23, R26). -/
def Value.val : Value → Int
  | .sm x => x.val
  | .bin x => x.val

/-- What a register may hold: EMPTY, or a well-formed value no longer than LMAX (10_state.md R21,
70_reset_and_hazards.md R297). -/
def Content.wf (p : Params) : Content → Bool
  | .empty => true
  | .held v => v.wf && admits p v.size

/-- The legal contents of the state: every register's content, BASE (10_state.md R32), FLAGS (R33), ECODE (R34), and ECMD
(R35). -/
structure State.WF (s : State) : Prop where
  regs : ∀ i : VReg, (s.reg i).wf s.params = true
  base : s.base = 0 ∨ s.base = 2 ∨ s.base = 8 ∨ s.base = 10 ∨ s.base = 16
  flags : s.flags &&& 0xFFFFFFFC = 0
  ecode : s.ecode = 0 ∨ ∃ e : ErrorCode, e ≠ .emptyStackUnderflow ∧ s.ecode = e.number.setWidth 32
  ecmd : s.ecode = 0 → s.ecmd = 0

/-- The register a command writes when it raises nothing (10_state.md R29). -/
def destination : Instr → Option VReg
  | .ldl rd _ | .ldi rd _ => some rd
  | .smNeg rd _ | .smAdd rd _ _ | .smSub rd _ _ | .smMul rd _ _ | .smDiv rd _ _ | .smMod rd _ _ | .smPow rd _ _ => some rd
  | .binNeg rd _ | .binAdd rd _ _ | .binSub rd _ _ | .binMul rd _ _ | .binDiv rd _ _ | .binMod rd _ _ => some rd
  | .binResize rd _ _ | .binNorm rd _ => some rd
  | .cvtS2b rd _ | .cvtB2s rd _ _ => some rd
  | .setbase _ | .disp _ | .digit _ _ | .csrr _ | .clrerr | .smCmp _ _ | .binCmp _ _ => none

/-- The registers a command reads through `src`, in the order it reads them (10_state.md R28, R29). -/
def sources : Instr → List VReg
  | .disp ra | .digit ra _ => [ra]
  | .smNeg _ ra | .binNeg _ ra | .binResize _ ra _ | .binNorm _ ra | .cvtS2b _ ra | .cvtB2s _ ra _ => [ra]
  | .smCmp ra rb | .binCmp ra rb => [ra, rb]
  | .smAdd _ ra rb | .smSub _ ra rb | .smMul _ ra rb | .smDiv _ ra rb | .smMod _ ra rb | .smPow _ ra rb => [ra, rb]
  | .binAdd _ ra rb | .binSub _ ra rb | .binMul _ ra rb | .binDiv _ ra rb | .binMod _ ra rb => [ra, rb]
  | .setbase _ | .ldl _ _ | .ldi _ _ | .csrr _ | .clrerr => []

/-- The SM value of a base, a sign and a magnitude given as a number (10_state.md R22, 40_setup_and_transfer.md R104). -/
def smOf (b : SmBase) (neg : Bool) (m : Nat) : Sm := { base := b, neg := neg, digits := digitsOf b.toNat m }

/-- What a two-operand SM command does with operands that are not two SM values of one base
(41_sign_magnitude.md R136). -/
def RefusesSmPair (i : Instr) (ra rb : VReg) : Prop :=
  ∀ (s : State) (v w : Value), s.reg ra = .held v → s.reg rb = .held w →
    (∀ a b : Sm, v = .sm a → w = .sm b → a.base ≠ b.base) → exec i s = .next (s.raise (encodeWord i) .operandMismatch)

/-- What a two-operand BIN command does with operands that are not two BIN values (42_twos_complement.md R175). -/
def RefusesBinPair (i : Instr) (ra rb : VReg) : Prop :=
  ∀ (s : State) (v w : Value), s.reg ra = .held v → s.reg rb = .held w →
    ((∃ a : Sm, v = .sm a) ∨ ∃ b : Sm, w = .sm b) → exec i s = .next (s.raise (encodeWord i) .operandMismatch)

/-- What a one-operand BIN command does with an SM operand (42_twos_complement.md R175). -/
def RefusesSmOperand (i : Instr) (ra : VReg) : Prop :=
  ∀ (s : State) (a : Sm), s.reg ra = .held (.sm a) → exec i s = .next (s.raise (encodeWord i) .operandMismatch)

/-- A machine with other parameters and the same state (00_scope.md R9). -/
def State.withParams (s : State) (p : Params) : State := { s with params := p }

end Sys2Proof.Machine
end

