-- ==== Sys2Proof/Certificates/Slice0/Obligations.lean ====
section
/-! DEFINITION. The statements for the provers, one definition each. `State.WF` is the model's invariant (Safety.lean):
`StepKeepsWellFormed` and `ResetStateWellFormed` below say that every state a run reaches has it. Responses and pending
actions are the model's own fields (notes/assumptions/2.md, 3.md). -/

section
open Sys2Proof Sys2Proof.Machine

/-! ## Encoding (30_encoding.md) -/

/-- Decoding what the encoder writes gives the instruction back, with every operand (R71, R72, R73, R75, R79, R80). -/
def Obligations.DecodeOfEncode : Prop :=
  ∀ i : Instr, i.wellFormed = true → decode (encodeWord i) (encodePayload i) = some i

/-- Every command that decodes is the encoding of a well-formed instruction, so each instruction has one word and one
payload (R71 to R73, R75, R77, R79). -/
def Obligations.EncodeOfDecode : Prop :=
  ∀ (w : Word32) (p : List Byte) (i : Instr), decode w p = some i →
    i.wellFormed = true ∧ encodeWord i = w ∧ encodePayload i = p

/-- No word matches two rows of the opcode table (R75). -/
def Obligations.OneRowPerWord : Prop :=
  ∀ (w : Word32) (r r' : OpRow), r ∈ opTable → r' ∈ opTable → w &&& r.mask = r.value → w &&& r'.mask = r'.value → r = r'

/-- Words the spec writes out decode to the commands it says they are (the examples of R100 to R113, R138 to R146, R176
to R188, R212, R216). -/
def Obligations.SampleWordsDecode : Prop :=
  decode 0x0100000A [] = some (.setbase 10) ∧
  decode 0x02000002 [0x31, 0x32] = some (.ldl 0 [0x31, 0x32]) ∧
  decode 0x03200008 [0xE6, 0xFF, 0xFF, 0xFF, 0xFF, 0xFF, 0xFF, 0xFF] = some (.ldi 2 (BitVec.ofInt 64 (-26))) ∧
  decode 0x04000000 [] = some (.disp 0) ∧
  decode 0x05010000 [] = some (.digit 1 0) ∧
  decode 0x06000001 [] = some (.csrr .flags) ∧
  decode 0x07000000 [] = some .clrerr ∧
  decode 0x10100000 [] = some (.smNeg 1 0) ∧
  decode 0x11001000 [] = some (.smCmp 0 1) ∧
  decode 0x12201000 [] = some (.smAdd 2 0 1) ∧
  decode 0x17201000 [] = some (.smPow 2 0 1) ∧
  decode 0x21010000 [] = some (.binCmp 1 0) ∧
  decode 0x26201000 [] = some (.binMod 2 0 1) ∧
  decode 0x28100008 [] = some (.binResize 1 0 8) ∧
  decode 0x29000000 [] = some (.binNorm 0 0) ∧
  decode 0x30100000 [] = some (.cvtS2b 1 0) ∧
  decode 0x3121000A [] = some (.cvtB2s 2 1 10)

/-- A word that matches no row raises IllegalCommand and does nothing else; such are the words of an unlisted opcode and
those of a listed opcode that fail the row's mask (R76). -/
def Obligations.IllegalWordRaises : Prop :=
  ∀ w : Word32,
    ((∀ r ∈ opTable, w &&& r.mask ≠ r.value) ∨
      (∃ r ∈ opTable, opcodeField w = opcodeField r.value ∧ w &&& r.mask ≠ r.value) ∨
      (∃ o : Nat, (opcodeField w).toNat = o ∧
        (o = 0x00 ∨ (0x08 ≤ o ∧ o ≤ 0x0F) ∨ (0x18 ≤ o ∧ o ≤ 0x1F) ∨ o = 0x27 ∨ (0x2A ≤ o ∧ o ≤ 0x2F) ∨ 0x32 ≤ o))) →
    ∀ (s : State) (p : List Byte) (rest : List HostAction), s.pending = .command w p :: rest →
      step s = .next ((s.setPending rest).raise w .illegalCommand)

/-- A payload of the wrong length, a reserved control-register number and a zero bit count raise IllegalCommand; a wrong
base number is no illegal command: it decodes, and the command raises UnsupportedBase (R77). -/
def Obligations.PayloadAndValueConditions : Prop :=
  (∀ (w : Word32) (p : List Byte),
    (p.length ≠ payloadLength w ∨ (opcodeField w = 0x06 ∧ 3 < (imm16Field w).toNat) ∨
      (opcodeField w = 0x28 ∧ imm16Field w = 0)) →
    ∀ (s : State) (rest : List HostAction), s.pending = .command w p :: rest →
      step s = .next ((s.setPending rest).raise w .illegalCommand)) ∧
  (∀ (n : BitVec 16) (s : State), decode (formatI 0x01 0 0 n) [] = some (.setbase n) ∧
    (¬(n = 2 ∨ n = 8 ∨ n = 10 ∨ n = 16) →
      exec (.setbase n) s = .next (s.raise (encodeWord (.setbase n)) .unsupportedBase))) ∧
  (∀ (rd ra : VReg) (t : BitVec 16) (s : State) (x : Bin), decode (formatI 0x31 rd ra t) [] = some (.cvtB2s rd ra t) ∧
    (s.reg ra = .held (.bin x) → ¬(t = 0 ∨ t = 2 ∨ t = 8 ∨ t = 10 ∨ t = 16) →
      exec (.cvtB2s rd ra t) s = .next (s.raise (encodeWord (.cvtB2s rd ra t)) .unsupportedBase)))

/-! ## The step (00_scope.md R10, R11; 10_state.md R30; 70_reset_and_hazards.md) -/

/-- When the host's next action is a command that decodes to `i`, the step is `exec i` on the state with that action
taken off the list. -/
def Obligations.StepRunsDecodedCommand : Prop :=
  ∀ (s : State) (w : Word32) (p : List Byte) (rest : List HostAction) (i : Instr),
    s.pending = .command w p :: rest → decode w p = some i → step s = exec i (s.setPending rest)

/-- A reset event puts every piece of architectural state to its reset value, whatever it held, and answers nothing
(R290). That the host's list and the responses survive it is the model's choice (notes/assumptions/5.md). -/
def Obligations.ResetEventClearsState : Prop :=
  ∀ (s : State) (rest : List HostAction), s.pending = .reset :: rest →
    ∃ t, step s = .next t ∧ (∀ i : VReg, t.reg i = .empty) ∧ t.base = 0 ∧ t.flags = 0 ∧ t.ecode = 0 ∧ t.ecmd = 0 ∧
      t.params = s.params ∧ t.pending = rest ∧ t.responses = s.responses

/-- With no action pending the unit holds its state (60_exceptions.md R285; the step itself is the model's,
notes/assumptions/4.md). -/
def Obligations.IdleUnitHoldsState : Prop := ∀ s : State, s.pending = [] → step s = .next s

/-- Every command, legal or not, runs to completion: one action is taken off the list, one response is added, an error
response carries no data, and the parameters stay (00_scope.md R11, 10_state.md R30, 30_encoding.md R74). -/
def Obligations.EveryCommandAnswersOnce : Prop :=
  ∀ (s : State) (w : Word32) (p : List Byte) (rest : List HostAction), s.pending = .command w p :: rest →
    ∃ t r, step s = .next t ∧ t.pending = rest ∧ t.responses = s.responses ++ [r] ∧ (r.code ≠ 0 → r.data = []) ∧
      t.params = s.params

/-- The state after reset (R39). -/
def Obligations.StateAfterReset : Prop :=
  (∀ i : VReg, State.reset.reg i = .empty) ∧ State.reset.base = 0 ∧ State.reset.flags = 0 ∧
    State.reset.flagEq = false ∧ State.reset.flagLt = false ∧ State.reset.ecode = 0 ∧ State.reset.ecmd = 0

/-- The invariant holds after reset, whatever the parameters. -/
def Obligations.ResetStateWellFormed : Prop := State.reset.WF ∧ ∀ p : Params, (State.resetWith p).WF

/-- Every step keeps the invariant: registers hold EMPTY or well-formed values no longer than LMAX, BASE is 0, 2, 8, 10 or
16, FLAGS has two bits, ECODE is 0 or a code of the unit, and ECMD is 0 while ECODE is (10_state.md R21, R22, R25, R32
to R35; 70_reset_and_hazards.md R297). -/
def Obligations.StepKeepsWellFormed : Prop := ∀ s t : State, s.WF → step s = .next t → t.WF

/-! ## Errors and frames (60_exceptions.md R269 to R271; 10_state.md R28, R29, R31) -/

/-- A command that raises records its code and word if none is recorded, answers the code with no data, and changes
nothing else; the code is one the unit has (R270). -/
def Obligations.RaiseOnlyRecordsError : Prop :=
  ∀ (i : Instr) (s : State), ∃ t r, exec i s = .next t ∧ t.responses = s.responses ++ [r] ∧
    (r.code ≠ 0 →
      r.data = [] ∧ r.code.toNat ≤ 13 ∧ r.code ≠ 6 ∧ r.code ≠ 7 ∧
      t.ecode = (if s.ecode = 0 then r.code.setWidth 32 else s.ecode) ∧
      t.ecmd = (if s.ecode = 0 then encodeWord i else s.ecmd) ∧
      t.regs = s.regs ∧ t.base = s.base ∧ t.flags = s.flags ∧ t.params = s.params ∧ t.pending = s.pending)

/-- The first raise is recorded; a later one answers its own code and leaves the record; only CLRERR clears it, no other
success changes it, and it changes nothing else a command does (R271); what CSRR answers about the record itself is
excepted. -/
def Obligations.ErrorRecordIsSticky : Prop :=
  (∀ (i : Instr) (s t : State) (e : ErrorCode), exec i s = .next t →
    t.responses = s.responses ++ [{ code := e.number, data := [] }] → s.ecode = 0 →
      t.ecode = e.number.setWidth 32 ∧ t.ecmd = encodeWord i) ∧
  (∀ (i : Instr) (s t : State), exec i s = .next t → s.ecode ≠ 0 → i ≠ .clrerr → t.ecode = s.ecode ∧ t.ecmd = s.ecmd) ∧
  (∀ (i : Instr) (s t : State) (data : List Byte), exec i s = .next t →
    t.responses = s.responses ++ [{ code := 0, data := data }] → i ≠ .clrerr → t.ecode = s.ecode ∧ t.ecmd = s.ecmd) ∧
  (∀ s : State, ∃ t, exec .clrerr s = .next t ∧ t.ecode = 0 ∧ t.ecmd = 0) ∧
  (∀ (i : Instr) (s : State) (code cmd : Word32), ∃ t u,
    exec i s = .next t ∧ exec i (s.setError code cmd) = .next u ∧
    u.regs = t.regs ∧ u.base = t.base ∧ u.flags = t.flags ∧ u.params = t.params ∧ u.pending = t.pending ∧
    (i ≠ .csrr .ecode → i ≠ .csrr .ecmd → u.responses = t.responses))

/-- Reading an EMPTY register raises UnknownRegister, before any other check of the command (R28, R266, R269). -/
def Obligations.EmptySourceRaises : Prop :=
  ∀ (i : Instr) (s : State) (r : VReg), i.wellFormed = true → r ∈ sources i → s.reg r = .empty →
    exec i s = .next (s.raise (encodeWord i) .unknownRegister)

/-- FRAME of the nineteen commands with a destination (`destination`): every other register, BASE, FLAGS, the
parameters and the host's list are unchanged; a success leaves ECODE and ECMD and fills the destination; a raise leaves
the destination. -/
def Obligations.WriterCommandsFrame : Prop :=
  ∀ (i : Instr) (rd : VReg) (s t : State), destination i = some rd → exec i s = .next t →
    (∀ j : VReg, j ≠ rd → t.reg j = s.reg j) ∧ t.base = s.base ∧ t.flags = s.flags ∧
    t.params = s.params ∧ t.pending = s.pending ∧
    ∃ k, t.responses = s.responses ++ [{ code := k, data := [] }] ∧
      (k = 0 → t.ecode = s.ecode ∧ t.ecmd = s.ecmd ∧ ∃ v, t.reg rd = .held v) ∧
      (k ≠ 0 → t.reg rd = s.reg rd)

/-- FRAME of SM.CMP and BIN.CMP: no register, not BASE, no parameter and not the host's list; a success leaves ECODE and
ECMD, and writes FLAGS with bits 31:2 zero; a raise leaves FLAGS. -/
def Obligations.CompareCommandsFrame : Prop :=
  ∀ (i : Instr) (ra rb : VReg) (s t : State), i = .smCmp ra rb ∨ i = .binCmp ra rb → exec i s = .next t →
    t.regs = s.regs ∧ t.base = s.base ∧ t.params = s.params ∧ t.pending = s.pending ∧
    ∃ k, t.responses = s.responses ++ [{ code := k, data := [] }] ∧
      (k = 0 → t.ecode = s.ecode ∧ t.ecmd = s.ecmd ∧ ∀ n, 2 ≤ n → t.flags.getLsbD n = false) ∧
      (k ≠ 0 → t.flags = s.flags)

/-- FRAME of DISP, DIGIT and CSRR: a success changes no state at all, a raise only ECODE and ECMD (20_memory.md R57). -/
def Obligations.ReadCommandsChangeNothing : Prop :=
  ∀ (i : Instr) (s : State), ((∃ ra, i = .disp ra) ∨ (∃ ra k, i = .digit ra k) ∨ ∃ c, i = .csrr c) →
    (∃ data, exec i s = .next (s.respond 0 data)) ∨ ∃ e, exec i s = .next (s.raise (encodeWord i) e)

/-- No command returns a register to EMPTY (R29). -/
def Obligations.NoCommandEmptiesRegister : Prop :=
  ∀ (i : Instr) (s t : State) (j : VReg), exec i s = .next t → s.reg j ≠ .empty → t.reg j ≠ .empty

/-- Which commands write which control register: BASE only SETBASE, FLAGS only SM.CMP and BIN.CMP, ECODE and ECMD only
a command that raises while ECODE is 0, and CLRERR (R31). -/
def Obligations.ControlRegisterWriters : Prop :=
  ∀ (i : Instr) (s t : State), exec i s = .next t →
    (t.base ≠ s.base → ∃ n, i = .setbase n) ∧
    (t.flags ≠ s.flags → ∃ ra rb, i = .smCmp ra rb ∨ i = .binCmp ra rb) ∧
    ((t.ecode ≠ s.ecode ∨ t.ecmd ≠ s.ecmd) → i = .clrerr ∨
      (s.ecode = 0 ∧ ∃ r, t.responses = s.responses ++ [r] ∧ r.code ≠ 0 ∧ t.ecode = r.code.setWidth 32 ∧
        t.ecmd = encodeWord i))

/-- LMAX is the last check of a command: without a bound no command raises CapacityExceeded; with a bound, a command does
what it does without one, unless its result is longer than the bound, and then it raises CapacityExceeded; a command that
raises another error raises that one (R297). -/
def Obligations.CapacityIsLastCheck : Prop :=
  (∀ (i : Instr) (s : State), s.params.lmax = none →
    exec i s ≠ .next (s.raise (encodeWord i) .capacityExceeded)) ∧
  (∀ (i : Instr) (rd : VReg) (s : State) (rev : Bool) (most : Nat), destination i = some rd →
    (∀ t v, exec i (s.withParams { lmax := none, negOrderReversed := rev }) = .next t →
      t.responses = s.responses ++ [{ code := 0, data := [] }] → t.reg rd = .held v →
      (v.size ≤ most →
        exec i (s.withParams { lmax := some most, negOrderReversed := rev }) =
          .next (t.withParams { lmax := some most, negOrderReversed := rev })) ∧
      (most < v.size →
        exec i (s.withParams { lmax := some most, negOrderReversed := rev }) =
          .next ((s.withParams { lmax := some most, negOrderReversed := rev }).raise (encodeWord i) .capacityExceeded))) ∧
    (∀ e, exec i (s.withParams { lmax := none, negOrderReversed := rev }) =
        .next ((s.withParams { lmax := none, negOrderReversed := rev }).raise (encodeWord i) e) →
      exec i (s.withParams { lmax := some most, negOrderReversed := rev }) =
        .next ((s.withParams { lmax := some most, negOrderReversed := rev }).raise (encodeWord i) e)))

/-! ## Setup and transfer (40_setup_and_transfer.md) -/

/-- SETBASE (R100). -/
def Obligations.SetbaseChoosesBase : Prop :=
  ∀ (n : BitVec 16),
    decode (formatI 0x01 0 0 n) [] = some (.setbase n) ∧
    ∀ s : State,
      ((n = 2 ∨ n = 8 ∨ n = 10 ∨ n = 16) →
        exec (.setbase n) s = .next ((s.setBase (n.setWidth 32)).respond 0 [])) ∧
      (¬(n = 2 ∨ n = 8 ∨ n = 10 ∨ n = 16) →
        exec (.setbase n) s = .next (s.raise (encodeWord (.setbase n)) .unsupportedBase))

/-- LDL in base 8, 10 or 16: an optional sign and then digits, least significant last; leading zeros dropped, the sign of
a zero kept; no digit is MalformedLiteral, a character that is no digit of the base is InvalidDigit (R102). The characters
are bytes: 0x30 to 0x39 for the digits 0 to 9, 0x41 to 0x46 for 10 to 15, in both directions, and no other byte is a digit,
lower-case `a` to `f` among them (20_memory.md R54). -/
def Obligations.LdlReadsSmLiteral : Prop :=
  (∀ (c : Byte) (d : Nat), digitOfChar c = some d ↔
    (d < 10 ∧ c.toNat = 0x30 + d) ∨ (10 ≤ d ∧ d < 16 ∧ c.toNat = 0x41 + (d - 10))) ∧
  (∀ d : Nat, d < 10 → (charOfDigit d).toNat = 0x30 + d) ∧
  (∀ d : Nat, 10 ≤ d → d < 16 → (charOfDigit d).toNat = 0x41 + (d - 10)) ∧
  (∀ (s : State) (rd : VReg) (b : SmBase), s.base.toNat = b.toNat →
    (∀ (sign : Text) (D : List Nat), (sign = [] ∨ sign = [0x2B] ∨ sign = [0x2D]) → D ≠ [] → (∀ d ∈ D, d < b.toNat) →
      ∀ x : Sm, x = { base := b, neg := decide (sign = [0x2D]), digits := trim D } →
        admits s.params x.digits.length = true →
        exec (.ldl rd (sign ++ D.reverse.map charOfDigit)) s = .next ((s.setReg rd (.held (.sm x))).respond 0 [])) ∧
    (∀ text : Text, (text = [] ∨ text = [0x2B] ∨ text = [0x2D]) →
      exec (.ldl rd text) s = .next (s.raise (encodeWord (.ldl rd text)) .malformedLiteral)) ∧
    (∀ sign body : Text, (sign = [] ∨ sign = [0x2B] ∨ sign = [0x2D]) →
      (sign = [] → body.head? ≠ some 0x2B ∧ body.head? ≠ some 0x2D) →
      (∃ c ∈ body, ∀ d, digitOfChar c = some d → b.toNat ≤ d) →
      exec (.ldl rd (sign ++ body)) s = .next (s.raise (encodeWord (.ldl rd (sign ++ body))) .invalidDigit)))

/-- LDL in base 2: a sign bit, then one bit at least, most significant first; nothing is trimmed (R103). -/
def Obligations.LdlReadsBinLiteral : Prop :=
  ∀ (s : State) (rd : VReg), s.base.toNat = 2 →
    (∀ x : Bin, x.bits ≠ [] → (∀ d ∈ x.bits, d < 2) → admits s.params x.bits.length = true →
      exec (.ldl rd (charOfDigit x.sign.toNat :: x.bits.reverse.map charOfDigit)) s =
        .next ((s.setReg rd (.held (.bin x))).respond 0 [])) ∧
    (∀ text : Text, (text = [] ∨ text = [0x30] ∨ text = [0x31]) →
      exec (.ldl rd text) s = .next (s.raise (encodeWord (.ldl rd text)) .malformedLiteral)) ∧
    (∀ text : Text, (∃ c ∈ text, c ≠ 0x30 ∧ c ≠ 0x31) →
      exec (.ldl rd text) s = .next (s.raise (encodeWord (.ldl rd text)) .invalidDigit))

/-- While no base is chosen, LDL and LDI raise UnsupportedBase, whatever the text, the integer or the registers, and CVT.B2S
to the active base does so for every BIN operand (10_state.md R32; 40_setup_and_transfer.md R101, R104;
43_base_converter.md R216). -/
def Obligations.NoBaseRaisesUnsupportedBase : Prop :=
  ∀ (s : State) (rd : VReg), s.base = 0 →
    (∀ text : Text, exec (.ldl rd text) s = .next (s.raise (encodeWord (.ldl rd text)) .unsupportedBase)) ∧
    (∀ n : BitVec 64, exec (.ldi rd n) s = .next (s.raise (encodeWord (.ldi rd n)) .unsupportedBase)) ∧
    (∀ (ra : VReg) (x : Bin), s.reg ra = .held (.bin x) →
      exec (.cvtB2s rd ra 0) s = .next (s.raise (encodeWord (.cvtB2s rd ra 0)) .unsupportedBase))

/-- LDI: eight little-endian bytes are a signed 64-bit integer, loaded in the active base, trimmed or canonical, exact at
every value (R104). -/
def Obligations.LdiLoadsInteger : Prop :=
  (∀ (rd : VReg) (p : List Byte), p.length = 8 →
    ∃ n : BitVec 64, decode (formatI 0x03 rd 0 8) p = some (.ldi rd n) ∧
      n.toInt = if leNat p < 2 ^ 63 then (leNat p : Int) else (leNat p : Int) - 2 ^ 64) ∧
  (∀ (s : State) (rd : VReg) (n : BitVec 64),
    (s.base = 0 → exec (.ldi rd n) s = .next (s.raise (encodeWord (.ldi rd n)) .unsupportedBase)) ∧
    (s.base.toNat = 2 → admits s.params (canon n.toInt).bits.length = true →
      (canon n.toInt).val = n.toInt ∧
      exec (.ldi rd n) s = .next ((s.setReg rd (.held (.bin (canon n.toInt)))).respond 0 [])) ∧
    (∀ b : SmBase, s.base.toNat = b.toNat →
      ∀ x : Sm, x = smOf b (decide (n.toInt < 0)) n.toInt.natAbs → admits s.params x.digits.length = true →
        x.val = n.toInt ∧ exec (.ldi rd n) s = .next ((s.setReg rd (.held (.sm x))).respond 0 [])))

/-- DISP: the text of a value in its own base: a minus sign for a negative SM value, its digits most significant first; a
sign bit and the bits of a BIN value (R106, R107, R108). -/
def Obligations.DispAnswersText : Prop :=
  ∀ (s : State) (ra : VReg),
    decode (formatI 0x04 0 ra 0) [] = some (.disp ra) ∧
    (∀ x : Sm, s.reg ra = .held (.sm x) →
      exec (.disp ra) s =
        .next (s.respond 0 ((if x.neg = true then [0x2D] else []) ++ x.digits.reverse.map charOfDigit))) ∧
    (∀ x : Bin, s.reg ra = .held (.bin x) →
      exec (.disp ra) s = .next (s.respond 0 (charOfDigit x.sign.toNat :: x.bits.reverse.map charOfDigit))) ∧
    (s.reg ra = .empty → exec (.disp ra) s = .next (s.raise (encodeWord (.disp ra)) .unknownRegister))

/-- For every literal LDL accepts, the text DISP answers is no longer, and loading it again leaves the same value
exactly (R109). -/
def Obligations.LoadDisplayReload : Prop :=
  ∀ (s t : State) (rd re : VReg) (text : Text), exec (.ldl rd text) s = .next t →
    t.responses = s.responses ++ [{ code := 0, data := [] }] →
    ∃ shown u, exec (.disp rd) t = .next (t.respond 0 shown) ∧ shown.length ≤ text.length ∧
      exec (.ldl re shown) (t.respond 0 shown) = .next u ∧ u.reg re = t.reg rd ∧
      u.responses = t.responses ++ [{ code := 0, data := shown }, { code := 0, data := [] }]

/-- DIGIT: one byte holding the digit at an index, least significant first; an index at or past the length raises
IndexOutOfRange (R110). -/
def Obligations.DigitAnswersOneDigit : Prop :=
  ∀ (s : State) (ra : VReg) (i : BitVec 16),
    decode (formatI 0x05 0 ra i) [] = some (.digit ra i) ∧
    (s.reg ra = .empty → exec (.digit ra i) s = .next (s.raise (encodeWord (.digit ra i)) .unknownRegister)) ∧
    ∀ D : List Nat,
      ((∃ x : Sm, s.reg ra = .held (.sm x) ∧ D = x.digits) ∨ (∃ x : Bin, s.reg ra = .held (.bin x) ∧ D = x.bits)) →
      (∀ h : i.toNat < D.length, exec (.digit ra i) s = .next (s.respond 0 [BitVec.ofNat 8 D[i.toNat]])) ∧
      (D.length ≤ i.toNat → exec (.digit ra i) s = .next (s.raise (encodeWord (.digit ra i)) .indexOutOfRange))

/-- CSRR: the four bytes of a control register, least significant first; a reserved number is an illegal command
(R112). -/
def Obligations.CsrrAnswersFourBytes : Prop :=
  (∀ (s : State) (r : Word32) (c : Csr),
    ((c = .base ∧ r = s.base) ∨ (c = .flags ∧ r = s.flags) ∨ (c = .ecode ∧ r = s.ecode) ∨ (c = .ecmd ∧ r = s.ecmd)) →
    exec (.csrr c) s = .next (s.respond 0
      [r.extractLsb' 0 8, r.extractLsb' 8 8, r.extractLsb' 16 8, r.extractLsb' 24 8])) ∧
  decode (formatI 0x06 0 0 0) [] = some (.csrr .base) ∧ decode (formatI 0x06 0 0 1) [] = some (.csrr .flags) ∧
  decode (formatI 0x06 0 0 2) [] = some (.csrr .ecode) ∧ decode (formatI 0x06 0 0 3) [] = some (.csrr .ecmd) ∧
  (∀ n : BitVec 16, 3 < n.toNat → ∀ p, decode (formatI 0x06 0 0 n) p = none)

/-- CLRERR: ECODE and ECMD to 0 and nothing else (R113). -/
def Obligations.ClrerrClearsRecord : Prop :=
  decode 0x07000000 [] = some .clrerr ∧
  ∀ s : State, exec .clrerr s = .next ((s.setError 0 0).respond 0 [])

/-! ## Magnitudes (41_sign_magnitude.md section 1) -/

/-- `digitsOf` and `trim`: the one trimmed list of digits of a number; trimming keeps the number (R104, R130). -/
def Obligations.DigitsOfIsTheTrimmedList : Prop :=
  ∀ B : Nat, 1 < B →
    (∀ m : Nat, mag B (digitsOf B m) = m ∧ DigitsOk B (digitsOf B m) ∧ Trimmed (digitsOf B m)) ∧
    (∀ X : List Nat, DigitsOk B X → mag B (trim X) = mag B X ∧ trim X = digitsOf B (mag B X)) ∧
    (∀ X : List Nat, DigitsOk B X → Trimmed X → X = digitsOf B (mag B X))

/-- The magnitude primitives compute what their names say, exactly, on trimmed lists (R131 to R135). -/
def Obligations.MagnitudePrimitivesExact : Prop :=
  ∀ (B : Nat) (X Y : List Nat), 1 < B → DigitsOk B X → Trimmed X → DigitsOk B Y → Trimmed Y →
    magCmp X Y = compare (mag B X) (mag B Y) ∧
    magAdd B X Y = digitsOf B (mag B X + mag B Y) ∧
    (mag B Y ≤ mag B X → magSub B X Y = digitsOf B (mag B X - mag B Y)) ∧
    magMul B X Y = digitsOf B (mag B X * mag B Y) ∧
    (Y ≠ [0] → magDivMod B X Y = (digitsOf B (mag B X / mag B Y), digitsOf B (mag B X % mag B Y)))

/-! ## Sign-magnitude engine (41_sign_magnitude.md) -/

/-- SM.NEG: the sign flipped, the digits copied; zero of either sign gives positive zero (R138). -/
def Obligations.SmNegFlipsSign : Prop :=
  ∀ (rd ra : VReg),
    decode (formatR 0x10 rd ra 0) [] = some (.smNeg rd ra) ∧
    (∀ (s : State) (x : Bin), s.reg ra = .held (.bin x) →
      exec (.smNeg rd ra) s = .next (s.raise (encodeWord (.smNeg rd ra)) .operandMismatch)) ∧
    ∀ (s : State) (a : Sm), s.WF → s.reg ra = .held (.sm a) →
      ∀ r : Sm, r = { base := a.base, neg := !a.neg && decide (a.digits ≠ [0]), digits := a.digits } →
        r.val = -a.val ∧ exec (.smNeg rd ra) s = .next ((s.setReg rd (.held (.sm r))).respond 0 [])

/-- SM.CMP (R139): EQ is equality of the integers, the reading R148 marks as derived; LT puts negative below positive
unconditionally, so also minus zero below plus zero, and orders equal signs by magnitude, reversed for two negatives under
NEG_ORDER_REVERSED. -/
def Obligations.SmCmpWritesFlags : Prop :=
  ∀ (ra rb : VReg),
    decode (formatR 0x11 0 ra rb) [] = some (.smCmp ra rb) ∧
    RefusesSmPair (.smCmp ra rb) ra rb ∧
    ∀ (s : State) (a b : Sm), s.WF → s.reg ra = .held (.sm a) → s.reg rb = .held (.sm b) → a.base = b.base →
      ∃ f : Word32, exec (.smCmp ra rb) s = .next ((s.setFlags f).respond 0 []) ∧
        f.getLsbD 0 = decide (a.val = b.val) ∧
        f.getLsbD 1 =
          (if a.neg ≠ b.neg then a.neg
           else if a.neg = true ∧ s.params.negOrderReversed = true then decide (b.val.natAbs < a.val.natAbs)
           else decide (a.val.natAbs < b.val.natAbs)) ∧
        ∀ n, 2 ≤ n → f.getLsbD n = false

/-- SM.ADD: the exact sum; equal signs keep the sign, else the sign of the larger magnitude, and positive zero for equal
magnitudes (R140, R141). That the digits are trimmed is the inference R132 and R137 mark as derived. -/
def Obligations.SmAddIsSignedSum : Prop :=
  ∀ (rd ra rb : VReg),
    decode (formatR 0x12 rd ra rb) [] = some (.smAdd rd ra rb) ∧
    RefusesSmPair (.smAdd rd ra rb) ra rb ∧
    ∀ (s : State) (a b : Sm), s.WF → s.reg ra = .held (.sm a) → s.reg rb = .held (.sm b) → a.base = b.base →
      ∀ r : Sm, r = smOf a.base (if a.neg = b.neg then a.neg else decide (a.val + b.val < 0)) (a.val + b.val).natAbs →
        r.val = a.val + b.val ∧
        (admits s.params r.digits.length = true →
          exec (.smAdd rd ra rb) s = .next ((s.setReg rd (.held (.sm r))).respond 0 []))

/-- SM.SUB: the exact difference, by the sum with the subtrahend's sign flipped (R142). That the digits are trimmed is the
inference R132 and R137 mark as derived. -/
def Obligations.SmSubIsSignedDifference : Prop :=
  ∀ (rd ra rb : VReg),
    decode (formatR 0x13 rd ra rb) [] = some (.smSub rd ra rb) ∧
    RefusesSmPair (.smSub rd ra rb) ra rb ∧
    ∀ (s : State) (a b : Sm), s.WF → s.reg ra = .held (.sm a) → s.reg rb = .held (.sm b) → a.base = b.base →
      ∀ r : Sm, r = smOf a.base (if a.neg = b.neg then decide (a.val - b.val < 0) else a.neg) (a.val - b.val).natAbs →
        r.val = a.val - b.val ∧
        (admits s.params r.digits.length = true →
          exec (.smSub rd ra rb) s = .next ((s.setReg rd (.held (.sm r))).respond 0 []))

/-- SM.MUL: the exact product under the exclusive or of the signs, of a zero product too (R143). -/
def Obligations.SmMulIsSignedProduct : Prop :=
  ∀ (rd ra rb : VReg),
    decode (formatR 0x14 rd ra rb) [] = some (.smMul rd ra rb) ∧
    RefusesSmPair (.smMul rd ra rb) ra rb ∧
    ∀ (s : State) (a b : Sm), s.WF → s.reg ra = .held (.sm a) → s.reg rb = .held (.sm b) → a.base = b.base →
      ∀ r : Sm, r = smOf a.base (xor a.neg b.neg) (a.val.natAbs * b.val.natAbs) →
        r.val = a.val * b.val ∧
        (admits s.params r.digits.length = true →
          exec (.smMul rd ra rb) s = .next ((s.setReg rd (.held (.sm r))).respond 0 []))

/-- SM.DIV: the quotient of the magnitudes under the exclusive or of the signs; a divisor of either zero raises
DivisionByZero (R144). -/
def Obligations.SmDivTruncates : Prop :=
  ∀ (rd ra rb : VReg),
    decode (formatR 0x15 rd ra rb) [] = some (.smDiv rd ra rb) ∧
    RefusesSmPair (.smDiv rd ra rb) ra rb ∧
    ∀ (s : State) (a b : Sm), s.WF → s.reg ra = .held (.sm a) → s.reg rb = .held (.sm b) → a.base = b.base →
      (b.val = 0 → exec (.smDiv rd ra rb) s = .next (s.raise (encodeWord (.smDiv rd ra rb)) .divisionByZero)) ∧
      (b.val ≠ 0 → ∀ r : Sm, r = smOf a.base (xor a.neg b.neg) (a.val.natAbs / b.val.natAbs) →
        r.val = Int.tdiv a.val b.val ∧
        (admits s.params r.digits.length = true →
          exec (.smDiv rd ra rb) s = .next ((s.setReg rd (.held (.sm r))).respond 0 [])))

/-- SM.MOD: the remainder of the magnitudes under the dividend's sign, of a zero remainder too (R145). -/
def Obligations.SmModKeepsDividendSign : Prop :=
  ∀ (rd ra rb : VReg),
    decode (formatR 0x16 rd ra rb) [] = some (.smMod rd ra rb) ∧
    RefusesSmPair (.smMod rd ra rb) ra rb ∧
    ∀ (s : State) (a b : Sm), s.WF → s.reg ra = .held (.sm a) → s.reg rb = .held (.sm b) → a.base = b.base →
      (b.val = 0 → exec (.smMod rd ra rb) s = .next (s.raise (encodeWord (.smMod rd ra rb)) .divisionByZero)) ∧
      (b.val ≠ 0 → ∀ r : Sm, r = smOf a.base a.neg (a.val.natAbs % b.val.natAbs) →
        r.val = Int.tmod a.val b.val ∧
        (admits s.params r.digits.length = true →
          exec (.smMod rd ra rb) s = .next ((s.setReg rd (.held (.sm r))).respond 0 [])))

/-- SM.POW: the exact power, one for an exponent of either zero; a negative exponent raises NegativeExponent (R146). -/
def Obligations.SmPowIsPower : Prop :=
  ∀ (rd ra rb : VReg),
    decode (formatR 0x17 rd ra rb) [] = some (.smPow rd ra rb) ∧
    RefusesSmPair (.smPow rd ra rb) ra rb ∧
    ∀ (s : State) (a e : Sm), s.WF → s.reg ra = .held (.sm a) → s.reg rb = .held (.sm e) → a.base = e.base →
      (e.val < 0 → exec (.smPow rd ra rb) s = .next (s.raise (encodeWord (.smPow rd ra rb)) .negativeExponent)) ∧
      (0 ≤ e.val → ∀ r : Sm,
        r = smOf a.base (a.neg && decide (e.val.toNat % 2 = 1)) (a.val.natAbs ^ e.val.toNat) →
        r.val = a.val ^ e.val.toNat ∧
        (admits s.params r.digits.length = true →
          exec (.smPow rd ra rb) s = .next ((s.setReg rd (.held (.sm r))).respond 0 [])))

/-- SM.DIV, SM.MUL, SM.MOD and SM.ADD together give the dividend back, for every combination of signs (R145, R148): the
four commands succeed when nothing bounds the lengths, and the last register holds a value equal to the dividend. -/
def Obligations.QuotientAndRemainderReconstruct : Prop :=
  ∀ (s : State) (a b : Sm), s.WF → s.params.lmax = none → s.reg 0 = .held (.sm a) → s.reg 1 = .held (.sm b) →
    a.base = b.base → b.val ≠ 0 →
    ∃ t u v w r, exec (.smDiv 2 0 1) s = .next t ∧ exec (.smMod 3 0 1) t = .next u ∧ exec (.smMul 4 2 1) u = .next v ∧
      exec (.smAdd 5 4 3) v = .next w ∧ w.reg 5 = .held (.sm r) ∧ r.base = a.base ∧ r.val = a.val ∧
      w.ecode = s.ecode

/-! ## Base-2 engine (42_twos_complement.md) -/

/-- The two's-complement transform: copy through the first 1, invert above it; it negates modulo the word, keeps the
length, and is its own inverse (R170, which marks the arithmetic reading as derived). -/
def Obligations.TransformNegatesWord : Prop :=
  (∀ k : Nat, tct (List.replicate k 0) = List.replicate k 0) ∧
  (∀ (k : Nat) (above : List Nat),
    tct (List.replicate k 0 ++ 1 :: above) = List.replicate k 0 ++ 1 :: above.map (fun b => 1 - b)) ∧
  (∀ w : List Nat, (∀ b ∈ w, b < 2) →
    (tct w).length = w.length ∧ mag 2 (tct w) = (2 ^ w.length - mag 2 w) % 2 ^ w.length ∧ tct (tct w) = w)

/-- The canonical form in closed form: the bits of a non-negative integer, the pattern `2^n - |v|` on the n bits of a
negative one's magnitude; it denotes the integer, and `norm` brings every value to it (R174). -/
def Obligations.CanonicalFormClosed : Prop :=
  (∀ v : Int, 0 ≤ v → canon v = { sign := false, bits := digitsOf 2 v.toNat }) ∧
  (∀ v : Int, v < 0 →
    (canon v).sign = true ∧ (canon v).bits.length = (digitsOf 2 v.natAbs).length ∧
    mag 2 (canon v).bits + v.natAbs = 2 ^ (digitsOf 2 v.natAbs).length) ∧
  (∀ v : Int, (canon v).WF ∧ (canon v).val = v) ∧
  (∀ x : Bin, x.WF → binMag x = digitsOf 2 x.val.natAbs ∧ norm x = canon x.val)

/-- BIN.NEG: the canonical value of the negated integer, at every operand length (R176, which marks this form as
derived). -/
def Obligations.BinNegIsCanonicalNegation : Prop :=
  ∀ (rd ra : VReg),
    decode (formatR 0x20 rd ra 0) [] = some (.binNeg rd ra) ∧
    RefusesSmOperand (.binNeg rd ra) ra ∧
    ∀ (s : State) (x : Bin), s.WF → s.reg ra = .held (.bin x) →
      ∀ r : Bin, r = canon (-x.val) → admits s.params r.bits.length = true →
        exec (.binNeg rd ra) s = .next ((s.setReg rd (.held (.bin r))).respond 0 [])

/-- BIN.NORM: the value brought to canonical length (R177). -/
def Obligations.BinNormIsCanonical : Prop :=
  ∀ (rd ra : VReg),
    decode (formatR 0x29 rd ra 0) [] = some (.binNorm rd ra) ∧
    RefusesSmOperand (.binNorm rd ra) ra ∧
    ∀ (s : State) (x : Bin), s.WF → s.reg ra = .held (.bin x) →
      ∀ r : Bin, r = canon x.val → admits s.params r.bits.length = true →
        r.val = x.val ∧ exec (.binNorm rd ra) s = .next ((s.setReg rd (.held (.bin r))).respond 0 [])

/-- BIN.RESIZE: to exactly m bits, filling with the sign or dropping copies of it; it succeeds exactly when the value
fits, and else raises WidthOverflow; m = 0 does not decode (R181, which marks the range as derived). -/
def Obligations.BinResizeKeepsValue : Prop :=
  ∀ (rd ra : VReg) (m : BitVec 16),
    (∀ p, decode (formatI 0x28 rd ra 0) p = none) ∧
    (m ≠ 0 → decode (formatI 0x28 rd ra m) [] = some (.binResize rd ra m)) ∧
    (m ≠ 0 → RefusesSmOperand (.binResize rd ra m) ra) ∧
    ∀ (s : State) (x : Bin), m ≠ 0 → s.WF → s.reg ra = .held (.bin x) →
      ((-(2 ^ m.toNat : Int) ≤ x.val ∧ x.val < 2 ^ m.toNat) → ∀ r : Bin,
        r = { sign := x.sign, bits := x.bits.take m.toNat ++ List.replicate (m.toNat - x.bits.length) x.sign.toNat } →
        r.val = x.val ∧ r.bits.length = m.toNat ∧
        (admits s.params m.toNat = true →
          exec (.binResize rd ra m) s = .next ((s.setReg rd (.held (.bin r))).respond 0 []))) ∧
      (¬(-(2 ^ m.toNat : Int) ≤ x.val ∧ x.val < 2 ^ m.toNat) →
        exec (.binResize rd ra m) s = .next (s.raise (encodeWord (.binResize rd ra m)) .widthOverflow))

/-- BIN.CMP: EQ and LT are those of the integers, whatever the lengths (R183, which marks this form as derived). -/
def Obligations.BinCmpWritesFlags : Prop :=
  ∀ (ra rb : VReg),
    decode (formatR 0x21 0 ra rb) [] = some (.binCmp ra rb) ∧
    RefusesBinPair (.binCmp ra rb) ra rb ∧
    ∀ (s : State) (a b : Bin), s.WF → s.reg ra = .held (.bin a) → s.reg rb = .held (.bin b) →
      ∃ f : Word32, exec (.binCmp ra rb) s = .next ((s.setFlags f).respond 0 []) ∧
        f.getLsbD 0 = decide (a.val = b.val) ∧ f.getLsbD 1 = decide (a.val < b.val) ∧
        ∀ n, 2 ≤ n → f.getLsbD n = false

/-- BIN.ADD: the canonical value of the exact sum (R184, which marks this form as derived). -/
def Obligations.BinAddIsCanonicalSum : Prop :=
  ∀ (rd ra rb : VReg),
    decode (formatR 0x22 rd ra rb) [] = some (.binAdd rd ra rb) ∧
    RefusesBinPair (.binAdd rd ra rb) ra rb ∧
    ∀ (s : State) (a b : Bin), s.WF → s.reg ra = .held (.bin a) → s.reg rb = .held (.bin b) →
      ∀ r : Bin, r = canon (a.val + b.val) → admits s.params r.bits.length = true →
        exec (.binAdd rd ra rb) s = .next ((s.setReg rd (.held (.bin r))).respond 0 [])

/-- BIN.SUB: the canonical value of the exact difference (R185, which marks this form as derived). -/
def Obligations.BinSubIsCanonicalDifference : Prop :=
  ∀ (rd ra rb : VReg),
    decode (formatR 0x23 rd ra rb) [] = some (.binSub rd ra rb) ∧
    RefusesBinPair (.binSub rd ra rb) ra rb ∧
    ∀ (s : State) (a b : Bin), s.WF → s.reg ra = .held (.bin a) → s.reg rb = .held (.bin b) →
      ∀ r : Bin, r = canon (a.val - b.val) → admits s.params r.bits.length = true →
        exec (.binSub rd ra rb) s = .next ((s.setReg rd (.held (.bin r))).respond 0 [])

/-- BIN.MUL: the canonical value of the exact product; a zero product has no sign (R186, which marks this form as
derived). -/
def Obligations.BinMulIsCanonicalProduct : Prop :=
  ∀ (rd ra rb : VReg),
    decode (formatR 0x24 rd ra rb) [] = some (.binMul rd ra rb) ∧
    RefusesBinPair (.binMul rd ra rb) ra rb ∧
    ∀ (s : State) (a b : Bin), s.WF → s.reg ra = .held (.bin a) → s.reg rb = .held (.bin b) →
      ∀ r : Bin, r = canon (a.val * b.val) → admits s.params r.bits.length = true →
        exec (.binMul rd ra rb) s = .next ((s.setReg rd (.held (.bin r))).respond 0 [])

/-- BIN.DIV: the canonical value of the quotient of the magnitudes, negative exactly when the signs differ and it is not
zero; a divisor of value zero, at any length, raises DivisionByZero (R187). -/
def Obligations.BinDivTruncates : Prop :=
  ∀ (rd ra rb : VReg),
    decode (formatR 0x25 rd ra rb) [] = some (.binDiv rd ra rb) ∧
    RefusesBinPair (.binDiv rd ra rb) ra rb ∧
    ∀ (s : State) (a b : Bin), s.WF → s.reg ra = .held (.bin a) → s.reg rb = .held (.bin b) →
      (b.val = 0 → exec (.binDiv rd ra rb) s = .next (s.raise (encodeWord (.binDiv rd ra rb)) .divisionByZero)) ∧
      (b.val ≠ 0 → ∀ q : Int,
        q = (if a.sign = b.sign then 1 else -1) * ((a.val.natAbs / b.val.natAbs : Nat) : Int) →
        ∀ r : Bin, r = canon q → admits s.params r.bits.length = true →
          exec (.binDiv rd ra rb) s = .next ((s.setReg rd (.held (.bin r))).respond 0 []))

/-- BIN.MOD: the canonical value of the remainder of the magnitudes under the dividend's sign; a divisor of value zero, at
any length, raises DivisionByZero (R188). -/
def Obligations.BinModKeepsDividendSign : Prop :=
  ∀ (rd ra rb : VReg),
    decode (formatR 0x26 rd ra rb) [] = some (.binMod rd ra rb) ∧
    RefusesBinPair (.binMod rd ra rb) ra rb ∧
    ∀ (s : State) (a b : Bin), s.WF → s.reg ra = .held (.bin a) → s.reg rb = .held (.bin b) →
      (b.val = 0 → exec (.binMod rd ra rb) s = .next (s.raise (encodeWord (.binMod rd ra rb)) .divisionByZero)) ∧
      (b.val ≠ 0 → ∀ m : Int,
        m = (if a.sign = true then -1 else 1) * ((a.val.natAbs % b.val.natAbs : Nat) : Int) →
        ∀ r : Bin, r = canon m → admits s.params r.bits.length = true →
          exec (.binMod rd ra rb) s = .next ((s.setReg rd (.held (.bin r))).respond 0 []))

/-! ## Base converter (43_base_converter.md) -/

/-- The digit-level primitives keep the number: fixed 3- or 4-bit patterns, repeated halving, chunks, and the weighted sum
in base-10 digits, exact at every length (R211, R213, R214, R215, R218). -/
def Obligations.ConverterPrimitivesExact : Prop :=
  (∀ (k : Nat) (D : List Nat), (∀ d ∈ D, d < 2 ^ k) →
    mag 2 (digitsToBits k D) = mag (2 ^ k) D ∧ (digitsToBits k D).length = k * D.length ∧
    ∀ b ∈ digitsToBits k D, b < 2) ∧
  (∀ D : List Nat, DigitsOk 10 D → Trimmed D → decToBits D = digitsOf 2 (mag 10 D)) ∧
  (∀ (k : Nat) (M : List Nat), 0 < k → DigitsOk 2 M → bitsToDigits k M = digitsOf (2 ^ k) (mag 2 M)) ∧
  (∀ M : List Nat, DigitsOk 2 M → bitsToDec M = digitsOf 10 (mag 2 M))

/-- CVT.S2B: a BIN value is copied; an SM value becomes the BIN value of the same integer with three bits for each octal
digit, four for each hexadecimal digit, and as many as the number needs for a decimal one (R212). -/
def Obligations.CvtS2bKeepsValue : Prop :=
  ∀ (rd ra : VReg),
    decode (formatR 0x30 rd ra 0) [] = some (.cvtS2b rd ra) ∧
    ∀ s : State, s.WF →
      (∀ x : Bin, s.reg ra = .held (.bin x) →
        exec (.cvtS2b rd ra) s = .next ((s.setReg rd (.held (.bin x))).respond 0 [])) ∧
      (∀ x : Sm, s.reg ra = .held (.sm x) → ∃ r : Bin, r.WF ∧ r.val = x.val ∧
        r.bits.length = (match x.base with
          | .eight => 3 * x.digits.length
          | .sixteen => 4 * x.digits.length
          | .ten => (digitsOf 2 x.val.natAbs).length) ∧
        (admits s.params r.bits.length = true →
          exec (.cvtS2b rd ra) s = .next ((s.setReg rd (.held (.bin r))).respond 0 [])))

/-- CVT.B2S: the trimmed SM value of the same integer in the target base, or a copy for target 2; target 0 is the active
base; an SM operand is OperandMismatch before the target is looked at, a wrong target UnsupportedBase (R216). -/
def Obligations.CvtB2sKeepsValue : Prop :=
  ∀ (rd ra : VReg) (t : BitVec 16),
    decode (formatI 0x31 rd ra t) [] = some (.cvtB2s rd ra t) ∧
    RefusesSmOperand (.cvtB2s rd ra t) ra ∧
    ∀ (s : State) (x : Bin) (T : Nat), s.WF → s.reg ra = .held (.bin x) →
      T = (if t = 0 then s.base.toNat else t.toNat) →
      (T = 2 → exec (.cvtB2s rd ra t) s = .next ((s.setReg rd (.held (.bin x))).respond 0 [])) ∧
      (∀ b : SmBase, T = b.toNat → ∀ r : Sm, r = smOf b (decide (x.val < 0)) x.val.natAbs →
        r.val = x.val ∧
        (admits s.params r.digits.length = true →
          exec (.cvtB2s rd ra t) s = .next ((s.setReg rd (.held (.sm r))).respond 0 []))) ∧
      (T ≠ 2 → (∀ b : SmBase, T ≠ b.toNat) →
        exec (.cvtB2s rd ra t) s = .next (s.raise (encodeWord (.cvtB2s rd ra t)) .unsupportedBase))

/-- Converting an SM value to base 2 and back to its base gives the very same value, but for minus zero, which comes back
as plus zero; converting a BIN value to a base and back gives a value of the same integer (R217). -/
def Obligations.ConversionRoundTrip : Prop :=
  ∀ (s : State) (rd re ra : VReg) (b : SmBase), s.WF → s.params.lmax = none →
    (∀ x : Sm, s.reg ra = .held (.sm x) → ∃ t u,
      exec (.cvtS2b rd ra) s = .next t ∧ exec (.cvtB2s re rd (BitVec.ofNat 16 x.base.toNat)) t = .next u ∧
      u.reg re = .held (.sm { x with neg := x.neg && decide (x.val ≠ 0) })) ∧
    (∀ x : Bin, s.reg ra = .held (.bin x) → ∃ t u y,
      exec (.cvtB2s rd ra (BitVec.ofNat 16 b.toNat)) s = .next t ∧ exec (.cvtS2b re rd) t = .next u ∧
      u.reg re = .held (.bin y) ∧ y.val = x.val)

/-! ## Host driver (49_host_rpn_driver.md) -/

/-- An operator token pops the right operand first and the left second, computes left op right, and writes the result in
the active base to the register of the line's key: the canonical BIN value in base 2, else the trimmed SM value of that
base with no minus zero (R235, R236). The driver is a layer of the model's own over
`step` (notes/assumptions/12.md). -/
def Obligations.DriverOperatorOrder : Prop :=
  ∀ (key left right : Text) (rest : List Text) (d : Driver) (s : State) (a b k : VReg) (x y : Value)
    (names : List (Text × VReg)),
    d.stack = right :: left :: rest → lookupName left d.names = some a → lookupName right d.names = some b →
    a.val < 13 → b.val < 13 → allocName key d.names = .ok (k, names) →
    s.WF → s.params.lmax = none → s.base ≠ 0 → s.reg a = .held x → s.reg b = .held y →
    ∀ (op : RpnOp) (result : Int),
      ((op = .add ∧ result = x.val + y.val) ∨ (op = .sub ∧ result = x.val - y.val) ∨
        (op = .mul ∧ result = x.val * y.val) ∨ (op = .div ∧ y.val ≠ 0 ∧ result = Int.tdiv x.val y.val) ∨
        (op = .mod ∧ y.val ≠ 0 ∧ result = Int.tmod x.val y.val)) →
      ∃ p v, runOperator key op d s = .next p ∧ p.code = 0 ∧ p.driver.stack = key :: rest ∧ p.driver.names = names ∧
        p.unit.reg k = .held v ∧ v.val = result ∧ p.unit.ecode = s.ecode ∧
        (s.base.toNat = 2 → v = .bin (canon result)) ∧
        (∀ T : SmBase, s.base.toNat = T.toNat → v = .sm (smOf T (decide (result < 0)) result.natAbs))

/-- An operator with fewer than two stack entries fails with EmptyStackUnderflow before anything is popped; a popped name
that the store lacks fails with UnknownRegister (R238); and a key that is new when all thirteen registers are paired fails
with CapacityExceeded (R231). None of the three issues a command, so the unit's state is unchanged, and no key is added. That
the two popped names are looked up before the key's register is the order of R235. The third clause, that a fourteenth name
fails with CapacityExceeded and no command is issued whatever the operands, is the model's reading, log entry
notes/assumptions/22.md (DEDUCED): it settles R231's 'issues nothing' against R235 and C4, where Alloc follows the arithmetic
and a zero divisor would answer DivisionByZero first. -/
def Obligations.DriverNameErrors : Prop :=
  ∀ (key : Text) (op : RpnOp) (d : Driver) (s : State),
    (d.stack.length < 2 →
      runOperator key op d s = .next { driver := d, unit := s, code := ErrorCode.emptyStackUnderflow.number }) ∧
    (∀ (left right : Text) (rest : List Text), d.stack = right :: left :: rest →
      (lookupName left d.names = none ∨ lookupName right d.names = none) →
      runOperator key op d s =
        .next { driver := { d with stack := rest }, unit := s, code := ErrorCode.unknownRegister.number }) ∧
    (∀ (left right : Text) (rest : List Text), d.stack = right :: left :: rest →
      lookupName left d.names ≠ none → lookupName right d.names ≠ none → lookupName key d.names = none →
      (∀ r : VReg, r.val < 13 → r ∈ d.names.map Prod.snd) →
      runOperator key op d s =
        .next { driver := { d with stack := rest }, unit := s, code := ErrorCode.capacityExceeded.number })

end
end

