-- ==== Sys2Proof/Laws/Magnitude.lean ====
section
/-! SUPPORT. What the digit-list operations compute: every one of them, on well-formed digits, is the digit list of the
exact natural number (41_sign_magnitude.md section 1). -/

namespace Sys2Proof.Machine

variable {B : Nat}

/-! ## mag -/

@[simp] theorem mag_nil : mag B [] = 0 := rfl

@[simp] theorem mag_cons (d : Nat) (ds : List Nat) : mag B (d :: ds) = d + B * mag B ds := rfl

theorem mag_eq_ofDigits (X : List Nat) : mag B X = Nat.ofDigits B X := by
  induction X with
  | nil => rfl
  | cons d ds ih => simp [Nat.ofDigits_cons, ih]

theorem mag_append (X Y : List Nat) : mag B (X ++ Y) = mag B X + B ^ X.length * mag B Y := by
  induction X with
  | nil => simp
  | cons d ds ih => simp [ih, pow_succ]; ring

@[simp] theorem mag_replicate_zero (n : Nat) : mag B (List.replicate n 0) = 0 := by
  induction n with
  | zero => rfl
  | succ n ih => simp [List.replicate_succ, ih]

@[simp] theorem mag_pad (X : List Nat) (L : Nat) : mag B (pad X L) = mag B X := by simp [pad, mag_append]

theorem length_pad (X : List Nat) (L : Nat) (h : X.length ≤ L) : (pad X L).length = L := by simp [pad]; omega

theorem digits_pad {X : List Nat} (hB : 0 < B) (hX : ∀ d ∈ X, d < B) (L : Nat) : ∀ d ∈ pad X L, d < B := by
  intro d hd
  rcases List.mem_append.1 hd with h | h
  · exact hX d h
  · rw [List.eq_of_mem_replicate h]; exact hB

theorem mag_lt (X : List Nat) (hX : ∀ d ∈ X, d < B) : mag B X < B ^ X.length := by
  induction X with
  | nil => simp
  | cons d ds ih =>
    have hd := hX d (by simp)
    have := ih fun e he => hX e (by simp [he])
    have h1 : B * (mag B ds + 1) ≤ B * B ^ ds.length := Nat.mul_le_mul_left B this
    simp only [mag_cons, List.length_cons, pow_succ]
    linarith [Nat.mul_comm (B ^ ds.length) B, Nat.mul_add B (mag B ds) 1]

/-! ## digitsOf -/

theorem digitsUpTo_eq_digits (hB : 1 < B) : ∀ fuel m, m < B ^ fuel → digitsUpTo B fuel m = Nat.digits B m
  | 0, m, h => by
    have : m = 0 := by simpa using h
    simp [digitsUpTo, this]
  | fuel + 1, m, h => by
    unfold digitsUpTo
    split
    · simp [*]
    · rename_i hm
      rw [Nat.digits_def' hB (by omega), digitsUpTo_eq_digits hB fuel]
      rw [Nat.div_lt_iff_lt_mul (by omega)]
      simpa [pow_succ] using h

/-- The digit list of a positive number is the library's. -/
theorem digitsOf_pos (hB : 1 < B) {m : Nat} (hm : m ≠ 0) : digitsOf B m = Nat.digits B m := by
  rw [digitsOf, if_neg hm]
  refine digitsUpTo_eq_digits hB _ m (lt_of_lt_of_le (Nat.lt_log2_self (n := m)) ?_)
  exact Nat.pow_le_pow_left hB _

@[simp] theorem digitsOf_zero : digitsOf B 0 = [0] := rfl

@[simp] theorem mag_digitsOf (hB : 1 < B) (m : Nat) : mag B (digitsOf B m) = m := by
  by_cases hm : m = 0
  · simp [hm]
  · rw [digitsOf_pos hB hm, mag_eq_ofDigits, Nat.ofDigits_digits]

theorem digitsOf_ok (hB : 1 < B) (m : Nat) : DigitsOk B (digitsOf B m) := by
  by_cases hm : m = 0
  · subst hm; exact ⟨by simp, by simp; omega⟩
  · rw [digitsOf_pos hB hm]
    exact ⟨Nat.digits_ne_nil_iff_ne_zero.2 hm, fun d hd => Nat.digits_lt_base hB hd⟩

theorem digitsOf_trimmed (hB : 1 < B) (m : Nat) : Trimmed (digitsOf B m) := by
  by_cases hm : m = 0
  · subst hm; exact .inl rfl
  · rw [digitsOf_pos hB hm]
    right
    rw [List.getLast?_eq_some_getLast (Nat.digits_ne_nil_iff_ne_zero.2 hm)]
    simpa using Nat.getLast_digit_ne_zero B hm

/-- A well-formed trimmed digit list is the digit list of its number: the representation is unique. -/
theorem eq_digitsOf (hB : 1 < B) {X : List Nat} (h : DigitsOk B X) (ht : Trimmed X) : X = digitsOf B (mag B X) := by
  by_cases hm : mag B X = 0
  · match X, h, ht with
    | [d], _, _ => simp at hm; simp [hm]
    | d :: e :: ds, h, ht =>
      exfalso
      have hl : (d :: e :: ds).getLast? ≠ some 0 := ht.resolve_left (by simp)
      rw [List.getLast?_eq_some_getLast (by simp)] at hl
      have h0 : ∀ Y : List Nat, mag B Y = 0 → ∀ y ∈ Y, y = 0 := by
        intro Y
        induction Y with
        | nil => simp
        | cons a as ih =>
          intro hy y hmem
          simp at hy
          rcases List.mem_cons.1 hmem with rfl | h'
          · exact hy.1
          · exact ih (hy.2.resolve_left (by omega)) y h'
      exact hl (by rw [h0 _ hm _ (List.getLast_mem (by simp))])
  · rw [digitsOf_pos hB hm, mag_eq_ofDigits]
    refine (Nat.digits_ofDigits B hB X h.2 fun hne hl => ?_).symm
    rcases ht with h1 | h1
    · match X, h1 with
      | [d], _ => simp at hl hm; exact hm hl
    · exact h1 (by rw [List.getLast?_eq_some_getLast hne, hl])

/-- Two well-formed trimmed lists of one number are one list. -/
theorem mag_injective (hB : 1 < B) {X Y : List Nat} (hX : DigitsOk B X) (tX : Trimmed X) (hY : DigitsOk B Y)
    (tY : Trimmed Y) (h : mag B X = mag B Y) : X = Y := by
  rw [eq_digitsOf hB hX tX, eq_digitsOf hB hY tY, h]

theorem digitsOf_eq_zero_iff (hB : 1 < B) (m : Nat) : digitsOf B m = [0] ↔ m = 0 := by
  constructor
  · intro h; rw [← mag_digitsOf hB m, h]; simp
  · rintro rfl; rfl

/-- A well-formed trimmed list is `[0]` exactly when its number is 0. -/
theorem eq_zero_iff (hB : 1 < B) {X : List Nat} (h : DigitsOk B X) (ht : Trimmed X) : X = [0] ↔ mag B X = 0 := by
  constructor
  · rintro rfl; simp
  · intro hm; rw [eq_digitsOf hB h ht, hm]; rfl

/-! ## trim -/

theorem mag_trim (X : List Nat) : mag B (trim X) = mag B X := by
  induction X with
  | nil => rfl
  | cons d ds ih =>
    unfold trim
    split
    · rename_i h; rw [h] at ih; simp at ih; simp [← ih]
    · split
      · rename_i h; rw [h] at ih; simp at ih; simp [← ih]
      · simp [ih]

theorem mem_of_mem_trim (X : List Nat) : ∀ d ∈ trim X, d ∈ X := by
  induction X with
  | nil => simp [trim]
  | cons e ds ih =>
    intro d hd
    unfold trim at hd
    split at hd
    · simp at hd; simp [hd]
    · split at hd
      · simp at hd; simp [hd]
      · rcases List.mem_cons.1 hd with h | h
        · simp [h]
        · exact List.mem_cons_of_mem _ (ih d h)

theorem trim_ne_nil {X : List Nat} (h : X ≠ []) : trim X ≠ [] := by
  cases X with
  | nil => exact absurd rfl h
  | cons d ds => unfold trim; split <;> (try split) <;> simp

theorem trim_trimmed {X : List Nat} (h : X ≠ []) : Trimmed (trim X) := by
  induction X with
  | nil => exact absurd rfl h
  | cons d ds ih =>
    unfold trim
    split
    · simp [Trimmed]
    · split
      · simp [Trimmed]
      · rename_i hne hz
        right
        have hds : ds ≠ [] := by rintro rfl; exact hne rfl
        rw [List.getLast?_cons]
        intro hl
        rcases ih hds with h1 | h1
        · obtain ⟨a, ha⟩ := List.length_eq_one_iff.1 h1
          rw [ha] at hl hz
          simp at hl; exact hz (by rw [hl])
        · rw [List.getLast?_eq_some_getLast (trim_ne_nil hds)] at h1 hl
          simp at hl h1; exact h1 hl

theorem trim_ok {X : List Nat} (h : DigitsOk B X) : DigitsOk B (trim X) :=
  ⟨trim_ne_nil h.1, fun d hd => h.2 d (mem_of_mem_trim X d hd)⟩

/-- Trimming a well-formed list gives the digit list of its number. -/
theorem trim_eq (hB : 1 < B) {X : List Nat} (h : DigitsOk B X) : trim X = digitsOf B (mag B X) := by
  rw [← mag_trim X]; exact eq_digitsOf hB (trim_ok h) (trim_trimmed h.1)

end Sys2Proof.Machine
end

