-- ==== Sys2Proof/Laws/MagnitudeOps.lean ====
section
/-! SUPPORT. The magnitude primitives against natural-number arithmetic (41_sign_magnitude.md R131 to R135). -/

namespace Sys2Proof.Machine

variable {B : Nat}

/-! ## Length against size -/

/-- A trimmed list of two digits or more is at least the weight of its top place. -/
theorem le_mag_of_trimmed {X : List Nat} (ht : Trimmed X) (hl : 2 ≤ X.length) : B ^ (X.length - 1) ≤ mag B X := by
  have hne : X ≠ [] := by rintro rfl; simp at hl
  have hlast : X.getLast hne ≠ 0 := by
    intro h
    exact (ht.resolve_left (by omega)) (by rw [List.getLast?_eq_some_getLast hne, h])
  conv_rhs => rw [← List.dropLast_append_getLast hne]
  rw [mag_append]
  simp only [mag_cons, mag_nil, Nat.mul_zero, Nat.add_zero, List.length_dropLast]
  calc B ^ (X.length - 1) = B ^ (X.length - 1) * 1 := by ring
    _ ≤ B ^ (X.length - 1) * X.getLast hne := Nat.mul_le_mul_left _ (by omega)
    _ ≤ _ := by omega

/-- A list at least the weight of its top place is trimmed. -/
theorem trimmed_of_le_mag {X : List Nat} (hX : ∀ d ∈ X, d < B) (hne : X ≠ []) (h : B ^ (X.length - 1) ≤ mag B X) :
    Trimmed X := by
  right
  intro hl
  rw [List.getLast?_eq_some_getLast hne, Option.some_inj] at hl
  rw [← List.dropLast_append_getLast hne, mag_append, hl] at h
  have := mag_lt X.dropLast fun d hd => hX d (List.dropLast_subset X hd)
  simp at h this
  omega

/-! ## MagAdd -/

/-- What the addition loop computes: the sum, in legal digits, one place longer only with a carry out of 1. -/
theorem addDigits_spec : ∀ (X Y : List Nat) (c : Nat), X.length = Y.length → (∀ d ∈ X, d < B) → (∀ d ∈ Y, d < B) →
    1 < B → c ≤ 1 →
    mag B (addDigits B X Y c) = mag B X + mag B Y + c ∧ (∀ d ∈ addDigits B X Y c, d < B) ∧
      ((addDigits B X Y c).length = X.length ∨
        (addDigits B X Y c).length = X.length + 1 ∧ (addDigits B X Y c).getLast? = some 1)
  | [], [], c, _, _, _, hB, hc => by
    unfold addDigits
    split
    · simp [*]
    · have : c = 1 := by omega
      subst this; simp [hB]
  | x :: xs, y :: ys, c, hl, hX, hY, hB, hc => by
    have hx := hX x (by simp)
    have hy := hY y (by simp)
    have hq : (x + y + c) / B ≤ 1 := by
      rw [← Nat.lt_succ_iff, Nat.div_lt_iff_lt_mul (by omega)]; omega
    obtain ⟨hm, hd, hlen⟩ := addDigits_spec xs ys ((x + y + c) / B) (by simpa using hl)
      (fun d h => hX d (by simp [h])) (fun d h => hY d (by simp [h])) hB hq
    unfold addDigits
    refine ⟨?_, ?_, ?_⟩
    · rw [mag_cons, hm, mag_cons, mag_cons]
      have := Nat.mod_add_div (x + y + c) B
      nlinarith
    · intro d h
      rcases List.mem_cons.1 h with rfl | h
      · exact Nat.mod_lt _ (by omega)
      · exact hd d h
    · rcases hlen with h | ⟨h, h1⟩
      · left; simp [h]
      · right
        refine ⟨by simp [h], ?_⟩
        rw [List.getLast?_cons, h1]; rfl

theorem magAdd_spec (hB : 1 < B) {X Y : List Nat} (hX : ∀ d ∈ X, d < B) (hY : ∀ d ∈ Y, d < B) :
    mag B (magAdd B X Y) = mag B X + mag B Y ∧ (∀ d ∈ magAdd B X Y, d < B) ∧
      ((magAdd B X Y).length = max X.length Y.length ∨
        (magAdd B X Y).length = max X.length Y.length + 1 ∧ (magAdd B X Y).getLast? = some 1) := by
  have h := addDigits_spec (pad X (max X.length Y.length)) (pad Y (max X.length Y.length)) 0
    (by rw [length_pad _ _ (by omega), length_pad _ _ (by omega)]) (digits_pad (by omega) hX _)
    (digits_pad (by omega) hY _) hB (by omega)
  simpa [magAdd, length_pad X _ (le_max_left X.length Y.length)] using h

theorem mag_magAdd (hB : 1 < B) {X Y : List Nat} (hX : DigitsOk B X) (hY : DigitsOk B Y) :
    mag B (magAdd B X Y) = mag B X + mag B Y := (magAdd_spec hB hX.2 hY.2).1

theorem magAdd_ok (hB : 1 < B) {X Y : List Nat} (hX : DigitsOk B X) (hY : DigitsOk B Y) : DigitsOk B (magAdd B X Y) := by
  refine ⟨?_, (magAdd_spec hB hX.2 hY.2).2.1⟩
  have := List.length_pos_iff.2 hX.1
  rw [← List.length_pos_iff]
  rcases (magAdd_spec hB hX.2 hY.2).2.2 with h | ⟨h, -⟩ <;> omega

/-- MagAdd on well-formed operands is the digit list of the sum (R132). -/
theorem magAdd_eq (hB : 1 < B) {X Y : List Nat} (hX : DigitsOk B X) (tX : Trimmed X) (hY : DigitsOk B Y)
    (tY : Trimmed Y) : magAdd B X Y = digitsOf B (mag B X + mag B Y) := by
  rw [← mag_magAdd hB hX hY]
  refine eq_digitsOf hB (magAdd_ok hB hX hY) ?_
  have hne := (magAdd_ok hB hX hY).1
  have hx := List.length_pos_iff.2 hX.1
  rcases (magAdd_spec hB hX.2 hY.2).2.2 with h | ⟨h, h1⟩
  · by_cases h1 : max X.length Y.length = 1
    · left; omega
    · refine trimmed_of_le_mag (magAdd_ok hB hX hY).2 hne ?_
      rw [h, mag_magAdd hB hX hY]
      rcases le_total X.length Y.length with hle | hle
      · rw [max_eq_right hle] at h1 ⊢
        exact le_trans (le_mag_of_trimmed tY (by omega)) (by omega)
      · rw [max_eq_left hle] at h1 ⊢
        exact le_trans (le_mag_of_trimmed tX (by omega)) (by omega)
  · right; rw [h1]; simp

/-! ## MagSub -/

/-- What the subtraction loop computes: the difference, with the borrow out as the weight of the place after. -/
theorem subDigits_spec : ∀ (X Y : List Nat) (br : Nat), X.length = Y.length → (∀ d ∈ X, d < B) → (∀ d ∈ Y, d < B) →
    br ≤ 1 →
    (∃ out ≤ 1, mag B (subDigits B X Y br) + mag B Y + br = mag B X + out * B ^ X.length) ∧
      (∀ d ∈ subDigits B X Y br, d < B) ∧ (subDigits B X Y br).length = X.length
  | [], [], br, _, _, _, hb => ⟨⟨br, hb, by simp [subDigits]⟩, by simp [subDigits], by simp [subDigits]⟩
  | x :: xs, y :: ys, br, hl, hX, hY, hb => by
    have hx := hX x (by simp)
    have hy := hY y (by simp)
    have ih := fun b hb => subDigits_spec xs ys b (by simpa using hl)
      (fun d h => hX d (by simp [h])) (fun d h => hY d (by simp [h])) hb
    unfold subDigits
    split
    · obtain ⟨⟨out, ho, hm⟩, hd, hlen⟩ := ih 1 le_rfl
      refine ⟨⟨out, ho, ?_⟩, ?_, by simp [hlen]⟩
      · have : B * (mag B (subDigits B xs ys 1) + mag B ys + 1) = B * (mag B xs + out * B ^ xs.length) := by rw [hm]
        simp only [mag_cons, List.length_cons, pow_succ]
        have e : out * (B ^ xs.length * B) = B * (out * B ^ xs.length) := by ring
        rw [e]
        simp only [Nat.mul_add, Nat.mul_one] at this
        omega
      · intro d h
        rcases List.mem_cons.1 h with rfl | h
        · omega
        · exact hd d h
    · obtain ⟨⟨out, ho, hm⟩, hd, hlen⟩ := ih 0 (by omega)
      refine ⟨⟨out, ho, ?_⟩, ?_, by simp [hlen]⟩
      · have : B * (mag B (subDigits B xs ys 0) + mag B ys + 0) = B * (mag B xs + out * B ^ xs.length) := by rw [hm]
        simp only [mag_cons, List.length_cons, pow_succ]
        have e : out * (B ^ xs.length * B) = B * (out * B ^ xs.length) := by ring
        rw [e]
        simp only [Nat.mul_add, Nat.add_zero] at this
        omega
      · intro d h
        rcases List.mem_cons.1 h with rfl | h
        · omega
        · exact hd d h

/-- MagSub is the digit list of the difference (R133). -/
theorem magSub_eq (hB : 1 < B) {X Y : List Nat} (hX : DigitsOk B X) (hY : DigitsOk B Y) (hle : mag B Y ≤ mag B X) :
    magSub B X Y = digitsOf B (mag B X - mag B Y) := by
  have hx := List.length_pos_iff.2 hX.1
  obtain ⟨⟨out, ho, hm⟩, hd, hlen⟩ := subDigits_spec (pad X (max X.length Y.length)) (pad Y (max X.length Y.length)) 0
    (by rw [length_pad _ _ (by omega), length_pad _ _ (by omega)]) (digits_pad (by omega) hX.2 _)
    (digits_pad (by omega) hY.2 _) (by omega)
  have hlt := mag_lt _ hd
  rw [hlen] at hlt
  simp only [mag_pad, Nat.add_zero] at hm
  have h0 : out = 0 := by
    rcases Nat.lt_or_ge 0 out with h | h
    · have : out = 1 := by omega
      subst this; omega
    · omega
  subst h0
  have hok : DigitsOk B (subDigits B (pad X (max X.length Y.length)) (pad Y (max X.length Y.length)) 0) := by
    refine ⟨?_, hd⟩
    rw [← List.length_pos_iff, hlen, length_pad _ _ (by omega)]; omega
  rw [magSub, trim_eq hB hok]
  congr 1
  omega

/-! ## MagMul -/

/-- One row of the multiplication: the accumulator's low places become the sum, the places above are untouched. -/
theorem mulRow_spec (x : Nat) (hx : x < B) : ∀ (A Y rest : List Nat) (c : Nat), A.length = Y.length →
    (∀ d ∈ A, d < B) → (∀ d ∈ Y, d < B) → c < B →
    ∃ M, mulRow B x (A ++ 0 :: rest) Y c = M ++ rest ∧ M.length = A.length + 1 ∧
      mag B M = mag B A + x * mag B Y + c ∧ ∀ d ∈ M, d < B
  | [], [], rest, c, _, _, _, hc => ⟨[c], by simp [mulRow], by simp, by simp, by simpa using hc⟩
  | a :: A, y :: Y, rest, c, hl, hA, hY, hc => by
    have ha := hA a (by simp)
    have hy := hY y (by simp)
    have hq : (a + x * y + c) / B < B := by
      rw [Nat.div_lt_iff_lt_mul (by omega)]
      have : x * y ≤ (B - 1) * (B - 1) := Nat.mul_le_mul (by omega) (by omega)
      obtain ⟨b, rfl⟩ : ∃ b, B = b + 1 := ⟨B - 1, by omega⟩
      simp at this
      nlinarith
    obtain ⟨M, hM, hlen, hm, hd⟩ := mulRow_spec x hx A Y rest ((a + x * y + c) / B) (by simpa using hl)
      (fun d h => hA d (by simp [h])) (fun d h => hY d (by simp [h])) hq
    refine ⟨(a + x * y + c) % B :: M, by simp [mulRow, hM], by simp [hlen], ?_, ?_⟩
    · rw [mag_cons, hm, mag_cons, mag_cons]
      have := Nat.mod_add_div (a + x * y + c) B
      nlinarith
    · intro d h
      rcases List.mem_cons.1 h with rfl | h
      · exact Nat.mod_lt _ (by omega)
      · exact hd d h

theorem mulRows_spec {Y : List Nat} (hY : ∀ d ∈ Y, d < B) : ∀ (X A : List Nat), A.length = Y.length →
    (∀ d ∈ X, d < B) → (∀ d ∈ A, d < B) →
    mag B (mulRows B Y X (A ++ List.replicate X.length 0)) = mag B A + mag B X * mag B Y ∧
      (∀ d ∈ mulRows B Y X (A ++ List.replicate X.length 0), d < B) ∧
      (mulRows B Y X (A ++ List.replicate X.length 0)).length = A.length + X.length
  | [], A, _, _, hA => by simpa [mulRows] using hA
  | x :: xs, A, hl, hX, hA => by
    have hx := hX x (by simp)
    obtain ⟨M, hM, hlen, hm, hd⟩ := mulRow_spec x hx A Y (List.replicate xs.length 0) 0 hl hA hY (by omega)
    obtain ⟨r, M', rfl⟩ : ∃ r M', M = r :: M' := by
      cases M with
      | nil => simp at hlen
      | cons r M' => exact ⟨r, M', rfl⟩
    obtain ⟨im, idg, il⟩ := mulRows_spec hY xs M' (by simp at hlen; omega) (fun d h => hX d (by simp [h]))
      (fun d h => hd d (by simp [h]))
    have he : mulRows B Y (x :: xs) (A ++ List.replicate (x :: xs).length 0) =
        r :: mulRows B Y xs (M' ++ List.replicate xs.length 0) := by
      simp only [mulRows, List.length_cons, List.replicate_succ, hM, List.cons_append]
    rw [he]
    refine ⟨?_, ?_, ?_⟩
    · rw [mag_cons, im, mag_cons]
      simp at hm
      nlinarith
    · intro d h
      rcases List.mem_cons.1 h with rfl | h
      · exact hd _ (by simp)
      · exact idg d h
    · simp at hlen; simp [il, hlen]; omega

/-- MagMul is the digit list of the product (R134). -/
theorem magMul_eq (hB : 1 < B) {X Y : List Nat} (hX : DigitsOk B X) (hY : DigitsOk B Y) :
    magMul B X Y = digitsOf B (mag B X * mag B Y) := by
  obtain ⟨hm, hd, hl⟩ := mulRows_spec hY.2 X (List.replicate Y.length 0) (by simp) hX.2
    (by intro d h; rw [List.eq_of_mem_replicate h]; omega)
  have e : List.replicate Y.length 0 ++ List.replicate X.length 0 = List.replicate (X.length + Y.length) 0 := by
    rw [List.replicate_append_replicate, Nat.add_comm]
  rw [e] at hm hd hl
  have hx := List.length_pos_iff.2 hX.1
  have hok : DigitsOk B (mulRows B Y X (List.replicate (X.length + Y.length) 0)) := by
    refine ⟨?_, hd⟩
    rw [← List.length_pos_iff, hl]; omega
  rw [magMul, trim_eq hB hok, hm]; simp

/-! ## MagCmp -/

theorem cmpDigits_eq : ∀ (X Y : List Nat), X.length = Y.length → (∀ d ∈ X, d < B) → (∀ d ∈ Y, d < B) →
    cmpDigits X Y = compare (mag B X) (mag B Y)
  | [], [], _, _, _ => by simp [cmpDigits]
  | x :: xs, y :: ys, hl, hX, hY => by
    have hx := hX x (by simp)
    have hy := hY y (by simp)
    unfold cmpDigits
    rw [cmpDigits_eq xs ys (by simpa using hl) (fun d h => hX d (by simp [h])) (fun d h => hY d (by simp [h]))]
    rcases lt_trichotomy (mag B xs) (mag B ys) with h | h | h
    · rw [compare_lt_iff_lt.2 h]
      refine (compare_lt_iff_lt.2 ?_).symm
      have : B * (mag B xs + 1) ≤ B * mag B ys := Nat.mul_le_mul_left B h
      simp only [mag_cons]; rw [Nat.mul_add] at this; omega
    · rw [compare_eq_iff_eq.2 h]
      simp only [mag_cons, h]
      rcases lt_trichotomy x y with g | g | g
      · rw [compare_lt_iff_lt.2 g]; exact (compare_lt_iff_lt.2 (by omega)).symm
      · rw [compare_eq_iff_eq.2 g]; exact (compare_eq_iff_eq.2 (by omega)).symm
      · rw [compare_gt_iff_gt.2 g]; exact (compare_gt_iff_gt.2 (by omega)).symm
    · rw [compare_gt_iff_gt.2 h]
      refine (compare_gt_iff_gt.2 ?_).symm
      have : B * (mag B ys + 1) ≤ B * mag B xs := Nat.mul_le_mul_left B h
      simp only [mag_cons]; rw [Nat.mul_add] at this; omega

/-- A shorter trimmed list is the smaller number. -/
theorem mag_lt_of_length_lt (hB : 1 < B) {X Y : List Nat} (hX : DigitsOk B X) (tY : Trimmed Y)
    (h : X.length < Y.length) : mag B X < mag B Y := by
  have hx := List.length_pos_iff.2 hX.1
  calc mag B X < B ^ X.length := mag_lt X hX.2
    _ ≤ B ^ (Y.length - 1) := Nat.pow_le_pow_right (by omega) (by omega)
    _ ≤ mag B Y := le_mag_of_trimmed tY (by omega)

/-- MagCmp on well-formed operands compares the numbers (R131). -/
theorem magCmp_eq (hB : 1 < B) {X Y : List Nat} (hX : DigitsOk B X) (tX : Trimmed X) (hY : DigitsOk B Y)
    (tY : Trimmed Y) : magCmp X Y = compare (mag B X) (mag B Y) := by
  unfold magCmp
  split
  · exact (compare_lt_iff_lt.2 (mag_lt_of_length_lt hB hX tY ‹_›)).symm
  · split
    · exact (compare_gt_iff_gt.2 (mag_lt_of_length_lt hB hY tX ‹_›)).symm
    · exact cmpDigits_eq X Y (by omega) hX.2 hY.2

/-- MagCmp of two digit lists compares the numbers. -/
theorem magCmp_digitsOf (hB : 1 < B) (m n : Nat) : magCmp (digitsOf B m) (digitsOf B n) = compare m n := by
  rw [magCmp_eq hB (digitsOf_ok hB m) (digitsOf_trimmed hB m) (digitsOf_ok hB n) (digitsOf_trimmed hB n)]
  simp [hB]

/-! ## MagDivMod -/

/-- The counting loop finds quotient and remainder when the quotient is within its fuel. -/
theorem countSub_spec (hB : 1 < B) {Y : List Nat} (hY : DigitsOk B Y) (tY : Trimmed Y) (h0 : 0 < mag B Y) :
    ∀ fuel m, m / mag B Y ≤ fuel →
      countSub B Y fuel (digitsOf B m) = (m / mag B Y, digitsOf B (m % mag B Y))
  | 0, m, h => by
    have : m < mag B Y := by
      rcases Nat.lt_or_ge m (mag B Y) with h' | h'
      · exact h'
      · have := Nat.div_pos h' h0; omega
    simp [countSub, Nat.div_eq_of_lt this, Nat.mod_eq_of_lt this]
  | fuel + 1, m, h => by
    have hc : magCmp (digitsOf B m) Y = compare m (mag B Y) := by
      rw [magCmp_eq hB (digitsOf_ok hB m) (digitsOf_trimmed hB m) hY tY, mag_digitsOf hB]
    rcases Nat.lt_or_ge m (mag B Y) with hlt | hge
    · unfold countSub
      rw [hc, compare_lt_iff_lt.2 hlt]
      simp [Nat.div_eq_of_lt hlt, Nat.mod_eq_of_lt hlt]
    · have hs : magSub B (digitsOf B m) Y = digitsOf B (m - mag B Y) := by
        rw [magSub_eq hB (digitsOf_ok hB m) hY (by rwa [mag_digitsOf hB]), mag_digitsOf hB]
      have hdiv : m / mag B Y = (m - mag B Y) / mag B Y + 1 := Nat.div_eq_sub_div h0 hge
      have hmod : m % mag B Y = (m - mag B Y) % mag B Y := Nat.mod_eq_sub_mod hge
      have ih := countSub_spec hB hY tY h0 fuel (m - mag B Y) (by omega)
      unfold countSub
      rw [hc, hs, ih, hdiv, hmod]
      rcases lt_or_eq_of_le hge with g | g
      · rw [compare_gt_iff_gt.2 g]
      · rw [compare_eq_iff_eq.2 g.symm]

theorem divDigits_spec (hB : 1 < B) {Y : List Nat} (hY : DigitsOk B Y) (tY : Trimmed Y) (h0 : 0 < mag B Y) :
    ∀ X : List Nat, (∀ d ∈ X, d < B) →
      mag B (divDigits B Y X).1 = mag B X / mag B Y ∧ (∀ d ∈ (divDigits B Y X).1, d < B) ∧
        (divDigits B Y X).1.length = X.length ∧ (divDigits B Y X).2 = digitsOf B (mag B X % mag B Y)
  | [], _ => by simp [divDigits]
  | x :: xs, hX => by
    obtain ⟨hm, hd, hl, hr⟩ := divDigits_spec hB hY tY h0 xs fun d h => hX d (by simp [h])
    have hx := hX x (by simp)
    have hmod : mag B xs % mag B Y < mag B Y := Nat.mod_lt _ h0
    have hlt : (x + B * (mag B xs % mag B Y)) / mag B Y < B := by
      rw [Nat.div_lt_iff_lt_mul h0]
      have : B * (mag B xs % mag B Y + 1) ≤ B * mag B Y := Nat.mul_le_mul_left B hmod
      rw [Nat.mul_add] at this; omega
    have ht : trim (x :: digitsOf B (mag B xs % mag B Y)) = digitsOf B (x + B * (mag B xs % mag B Y)) := by
      rw [trim_eq hB ⟨by simp, fun d h => ?_⟩, mag_cons, mag_digitsOf hB]
      rcases List.mem_cons.1 h with rfl | h
      · exact hx
      · exact (digitsOf_ok hB _).2 d h
    have he : divDigits B Y (x :: xs) = ((x + B * (mag B xs % mag B Y)) / mag B Y :: (divDigits B Y xs).1,
        digitsOf B ((x + B * (mag B xs % mag B Y)) % mag B Y)) := by
      rw [divDigits]
      simp only [hr, ht, countSub_spec hB hY tY h0 B _ hlt.le]
    rw [he]
    have hsplit : x + B * mag B xs = x + B * (mag B xs % mag B Y) + B * (mag B xs / mag B Y) * mag B Y := by
      have := Nat.mod_add_div (mag B xs) (mag B Y)
      have : B * (mag B xs % mag B Y + mag B Y * (mag B xs / mag B Y)) = B * mag B xs := by rw [this]
      nlinarith
    refine ⟨?_, ?_, by simp [hl], ?_⟩
    · rw [mag_cons, hm, mag_cons, hsplit, Nat.add_mul_div_right _ _ h0]
    · intro d h
      rcases List.mem_cons.1 h with rfl | h
      · exact hlt
      · exact hd d h
    · rw [mag_cons, hsplit, Nat.add_mul_mod_self_right]

/-- MagDivMod is the digit lists of quotient and remainder (R135). -/
theorem magDivMod_eq (hB : 1 < B) {X Y : List Nat} (hX : DigitsOk B X) (hY : DigitsOk B Y) (tY : Trimmed Y)
    (h0 : mag B Y ≠ 0) :
    magDivMod B X Y = (digitsOf B (mag B X / mag B Y), digitsOf B (mag B X % mag B Y)) := by
  obtain ⟨hm, hd, hl, hr⟩ := divDigits_spec hB hY tY (Nat.pos_of_ne_zero h0) X hX.2
  have hx := List.length_pos_iff.2 hX.1
  have hok : DigitsOk B (divDigits B Y X).1 := ⟨by rw [← List.length_pos_iff, hl]; omega, hd⟩
  simp only [magDivMod, trim_eq hB hok, hm, hr]

end Sys2Proof.Machine
end

