-- ==== Sys2Proof/Laws/Bits.lean ====
section
/-! SUPPORT. The base-2 primitives against integer arithmetic: the transform, words, magnitudes and the canonical form
(42_twos_complement.md section 1). -/

namespace Sys2Proof.Machine

theorem SmBase.one_lt (b : SmBase) : 1 < b.toNat := by cases b <;> decide

/-! ## Bit lists -/

@[simp] theorem toNat_lt_two (b : Bool) : b.toNat < 2 := by cases b <;> decide

theorem length_tct (w : List Nat) : (tct w).length = w.length := by
  induction w with
  | nil => rfl
  | cons b bs ih => unfold tct; split <;> simp [ih]

/-- Inverting every bit gives what is missing to all ones. -/
theorem mag_invert (w : List Nat) (h : ∀ d ∈ w, d < 2) : mag 2 (w.map (fun x => 1 - x)) + mag 2 w + 1 = 2 ^ w.length := by
  induction w with
  | nil => rfl
  | cons b bs ih =>
    have hb := h b (by simp)
    have := ih fun d hd => h d (by simp [hd])
    simp only [List.map_cons, mag_cons, List.length_cons, pow_succ]
    omega

/-- The transform negates modulo the word's weight: zero stays zero, any other word goes to the rest (R170). -/
theorem mag_tct (w : List Nat) (h : ∀ d ∈ w, d < 2) :
    mag 2 (tct w) + mag 2 w = if mag 2 w = 0 then 0 else 2 ^ w.length := by
  induction w with
  | nil => rfl
  | cons b bs ih =>
    have hb := h b (by simp)
    have hbs := fun d hd => h d (List.mem_cons_of_mem _ hd)
    unfold tct
    split
    · rename_i h1
      subst h1
      have := mag_invert bs hbs
      rw [if_neg (by simp)]
      simp only [mag_cons, List.length_cons, pow_succ]
      omega
    · have h0 : b = 0 := by omega
      subst h0
      have := ih hbs
      simp only [mag_cons, List.length_cons, pow_succ, Nat.zero_add]
      split at this <;> split <;> omega

theorem tct_digits (w : List Nat) (h : ∀ d ∈ w, d < 2) : ∀ d ∈ tct w, d < 2 := by
  induction w with
  | nil => simp [tct]
  | cons b bs ih =>
    have hbs := fun d hd => h d (List.mem_cons_of_mem _ hd)
    intro d hd
    unfold tct at hd
    split at hd
    · rcases List.mem_cons.1 hd with rfl | h'
      · omega
      · obtain ⟨x, -, rfl⟩ := List.mem_map.1 h'; omega
    · rcases List.mem_cons.1 hd with rfl | h'
      · exact h d (by simp)
      · exact ih hbs d h'

/-- Applying the transform twice gives the word back (R170). -/
theorem tct_tct (w : List Nat) (h : ∀ d ∈ w, d < 2) : tct (tct w) = w := by
  induction w with
  | nil => rfl
  | cons b bs ih =>
    have hbs := fun d hd => h d (List.mem_cons_of_mem _ hd)
    by_cases h1 : b = 1
    · subst h1
      simp only [tct, if_true, List.map_map, List.cons.injEq, true_and]
      conv_rhs => rw [← List.map_id bs]
      refine List.map_congr_left fun x hx => ?_
      have := hbs x hx
      simp only [Function.comp_apply, id_eq]; omega
    · simp [tct, h1, ih hbs]

/-! ## Words -/

@[simp] theorem length_toWord (x : Bin) : (toWord x).length = x.bits.length + 1 := by simp [toWord]

theorem toWord_digits {x : Bin} (h : ∀ d ∈ x.bits, d < 2) : ∀ d ∈ toWord x, d < 2 := by
  intro d hd
  rcases List.mem_append.1 hd with h' | h'
  · exact h d h'
  · rw [List.mem_singleton.1 h']; exact toNat_lt_two _

/-- A value's word, read as an unsigned number, is the value modulo the word's weight (R171). -/
theorem mag_toWord (x : Bin) :
    (mag 2 (toWord x) : Int) = x.val + (if x.sign then 2 ^ (x.bits.length + 1) else 0) := by
  cases hs : x.sign <;> simp [toWord, mag_append, Bin.val, hs, pow_succ]
  ring

@[simp] theorem unword_toWord (x : Bin) : unword (toWord x) = x := by
  cases x with
  | mk s bits => cases s <;> simp [unword, toWord]

theorem length_unword (w : List Nat) : (unword w).bits.length = w.length - 1 := by simp [unword]

theorem unword_digits {w : List Nat} (h : ∀ d ∈ w, d < 2) : ∀ d ∈ (unword w).bits, d < 2 :=
  fun d hd => h d (List.dropLast_subset w hd)

/-- The word of the unword is the word (R171). -/
theorem toWord_unword {w : List Nat} (hne : w ≠ []) (h : ∀ d ∈ w, d < 2) : toWord (unword w) = w := by
  have hl := h _ (List.getLast_mem hne)
  conv_rhs => rw [← List.dropLast_append_getLast hne]
  simp only [toWord, unword, List.getLast?_eq_some_getLast hne]
  congr 2
  rcases Nat.lt_or_ge (w.getLast hne) 1 with h' | h'
  · have : w.getLast hne = 0 := by omega
    simp [this]
  · have : w.getLast hne = 1 := by omega
    simp [this]

/-- A BIN value lies in the range of its word (R26). -/
theorem val_range {x : Bin} (h : ∀ d ∈ x.bits, d < 2) :
    -(2 ^ x.bits.length : Int) ≤ x.val ∧ x.val < 2 ^ x.bits.length := by
  have hm : (mag 2 x.bits : Int) < 2 ^ x.bits.length := by exact_mod_cast mag_lt x.bits h
  have h0 : (0 : Int) ≤ mag 2 x.bits := Int.natCast_nonneg _
  have hp : (0 : Int) < 2 ^ x.bits.length := by positivity
  cases hs : x.sign <;> simp [Bin.val, hs] <;> omega

/-- A negative value is one whose sign bit is 1 (R26). -/
theorem val_neg_iff {x : Bin} (h : ∀ d ∈ x.bits, d < 2) : x.val < 0 ↔ x.sign = true := by
  have hm : (mag 2 x.bits : Int) < 2 ^ x.bits.length := by exact_mod_cast mag_lt x.bits h
  have h0 : (0 : Int) ≤ mag 2 x.bits := Int.natCast_nonneg _
  cases hs : x.sign <;> simp [Bin.val, hs]
  omega

/-- The value of an unword is the one integer of the word's range that the word is congruent to (R171). -/
theorem val_unword_of_congr {w : List Nat} {n : Nat} {v k : Int} (hl : w.length = n + 1) (h : ∀ d ∈ w, d < 2)
    (hc : (mag 2 w : Int) = v + k * 2 ^ (n + 1)) (hlo : -(2 ^ n : Int) ≤ v) (hhi : v < 2 ^ n) : (unword w).val = v := by
  have hne : w ≠ [] := by rintro rfl; simp at hl
  have h1 := mag_toWord (unword w)
  rw [toWord_unword hne h, hc, length_unword, hl] at h1
  have h2 := val_range (unword_digits h)
  rw [length_unword, hl] at h2
  simp only [Nat.add_sub_cancel] at h1 h2
  have hp : (2 : Int) ^ (n + 1) = 2 * 2 ^ n := by ring
  have hpos : (0 : Int) < 2 ^ n := by positivity
  obtain ⟨j, hj⟩ : ∃ j : Int, v + k * 2 ^ (n + 1) = (unword w).val + j * 2 ^ (n + 1) := by
    split at h1
    · exact ⟨1, by rw [h1]; ring⟩
    · exact ⟨0, by rw [h1]; ring⟩
  have hd : v - (unword w).val = (j - k) * (2 * 2 ^ n) := by rw [← hp]; linarith
  have hz : j - k = 0 := by
    by_contra hne'
    rcases lt_or_gt_of_ne hne' with g | g
    · have : (j - k) * (2 * 2 ^ n) ≤ (-1) * (2 * 2 ^ n) := mul_le_mul_of_nonneg_right (by omega) (by positivity)
      linarith
    · have : 1 * (2 * 2 ^ n) ≤ (j - k) * (2 * 2 ^ n) := mul_le_mul_of_nonneg_right (by omega) (by positivity)
      linarith
  rw [hz] at hd
  linarith

/-! ## Sign extension -/

theorem mag_replicate_one (n : Nat) : mag 2 (List.replicate n 1) + 1 = 2 ^ n := by
  induction n with
  | zero => rfl
  | succ n ih => simp only [List.replicate_succ, mag_cons, pow_succ]; omega

theorem length_sExt (x : Bin) (m : Nat) (h : x.bits.length ≤ m) : (sExt x m).bits.length = m := by simp [sExt]; omega

theorem sExt_digits {x : Bin} (h : ∀ d ∈ x.bits, d < 2) (m : Nat) : ∀ d ∈ (sExt x m).bits, d < 2 := by
  intro d hd
  rcases List.mem_append.1 hd with h' | h'
  · exact h d h'
  · rw [List.eq_of_mem_replicate h']; exact toNat_lt_two _

@[simp] theorem sExt_sign (x : Bin) (m : Nat) : (sExt x m).sign = x.sign := rfl

/-- Sign extension keeps the value (R172). -/
theorem val_sExt (x : Bin) (m : Nat) (h : x.bits.length ≤ m) : (sExt x m).val = x.val := by
  have hl := length_sExt x m h
  have hp : (2 : Int) ^ m = 2 ^ x.bits.length * 2 ^ (m - x.bits.length) := by rw [← pow_add]; congr 1; omega
  cases hs : x.sign
  · simp [Bin.val, hs, sExt, mag_append]
  · have := mag_replicate_one (m - x.bits.length)
    have h1 : (mag 2 (List.replicate (m - x.bits.length) 1) : Int) = 2 ^ (m - x.bits.length) - 1 := by
      have : (mag 2 (List.replicate (m - x.bits.length) 1) : Int) + 1 = 2 ^ (m - x.bits.length) := by exact_mod_cast this
      linarith
    unfold Bin.val
    rw [hl, hp]
    simp only [sExt, hs, mag_append, Bool.toNat_true]
    push_cast
    rw [h1]
    ring

/-! ## The negated word and the magnitude -/

theorem length_negWord (x : Bin) : (negWord x).length = x.bits.length + 2 := by
  rw [negWord, length_tct, length_toWord, length_sExt x _ (by omega)]

theorem negWord_digits {x : Bin} (h : ∀ d ∈ x.bits, d < 2) : ∀ d ∈ negWord x, d < 2 :=
  tct_digits _ (toWord_digits (sExt_digits h _))

/-- The negated word is congruent to the negated value. -/
theorem mag_negWord {x : Bin} (h : ∀ d ∈ x.bits, d < 2) :
    ∃ k : Int, (mag 2 (negWord x) : Int) = -x.val + k * 2 ^ (x.bits.length + 2) := by
  have h1 := mag_tct _ (toWord_digits (sExt_digits h (x.bits.length + 1)))
  have h2 := mag_toWord (sExt x (x.bits.length + 1))
  rw [val_sExt x _ (by omega), length_sExt x _ (by omega)] at h2
  rw [length_toWord, length_sExt x _ (by omega)] at h1
  have h3 : (mag 2 (negWord x) : Int) + mag 2 (toWord (sExt x (x.bits.length + 1))) =
      ((if mag 2 (toWord (sExt x (x.bits.length + 1))) = 0 then 0 else 2 ^ (x.bits.length + 1 + 1) : Nat) : Int) := by
    exact_mod_cast h1
  rw [h2] at h3
  refine ⟨(if mag 2 (toWord (sExt x (x.bits.length + 1))) = 0 then 0 else 1) - (if x.sign then 1 else 0), ?_⟩
  rw [sExt_sign] at h3
  clear h1 h2
  by_cases hz : mag 2 (toWord (sExt x (x.bits.length + 1))) = 0 <;> cases hs : x.sign <;>
    simp [hz, hs] at h3 ⊢ <;> linarith

/-- The negated word denotes the negated value, with no pattern left out (R176). -/
theorem val_unword_negWord {x : Bin} (h : ∀ d ∈ x.bits, d < 2) : (unword (negWord x)).val = -x.val := by
  obtain ⟨k, hk⟩ := mag_negWord h
  have hr := val_range h
  have hp : (2 : Int) ^ (x.bits.length + 1) = 2 * 2 ^ x.bits.length := by ring
  have hpos : (0 : Int) < 2 ^ x.bits.length := by positivity
  exact val_unword_of_congr (n := x.bits.length + 1) (length_negWord x) (negWord_digits h) hk
    (by rw [hp]; linarith) (by rw [hp]; linarith)

/-- The magnitude is the digit list of the absolute value, for every pattern (R173). -/
theorem binMag_eq {x : Bin} (hx : x.WF) : binMag x = digitsOf 2 x.val.natAbs := by
  have h := hx.2
  unfold binMag
  cases hs : x.sign
  · simp only [Bool.false_eq_true, if_false]
    rw [trim_eq (by omega) hx]
    simp [Bin.val, hs]
  · simp only [if_true]
    have hneg : x.val < 0 := (val_neg_iff h).2 hs
    have hw := val_unword_negWord h
    have hsg : (unword (negWord x)).sign = false := by
      have := (val_neg_iff (unword_digits (negWord_digits h))).not.1 (by rw [hw]; linarith)
      simpa using this
    have hv : (mag 2 (negWord x).dropLast : Int) = -x.val := by
      rw [← hw, Bin.val, hsg]; simp [unword]
    rw [trim_eq (by omega) ⟨?_, fun d hd => negWord_digits h d (List.dropLast_subset _ hd)⟩]
    · congr 1; omega
    · rw [← List.length_pos_iff, List.length_dropLast, length_negWord]; omega

theorem binMag_ok {x : Bin} (hx : x.WF) : DigitsOk 2 (binMag x) := by rw [binMag_eq hx]; exact digitsOf_ok (by omega) _

theorem binMag_trimmed {x : Bin} (hx : x.WF) : Trimmed (binMag x) := by
  rw [binMag_eq hx]; exact digitsOf_trimmed (by omega) _

@[simp] theorem mag_binMag {x : Bin} (hx : x.WF) : mag 2 (binMag x) = x.val.natAbs := by rw [binMag_eq hx]; simp

/-! ## The canonical form -/

/-- FromMag of a sign and a digit list is the canonical value of the signed number (R174). -/
theorem fromMag_eq (neg : Bool) (m : Nat) : fromMag neg (digitsOf 2 m) = canon (if neg then -(m : Int) else m) := by
  by_cases hm : m = 0
  · subst hm; cases neg <;> rfl
  · have h0 : digitsOf 2 m ≠ [0] := fun h => hm ((digitsOf_eq_zero_iff (by omega) m).1 h)
    cases neg
    · simp [canon, show ¬ ((m : Int) < 0) by omega]
    · simp [canon, show (0 < m) by omega]

theorem canon_wf (v : Int) : (canon v).WF := by
  unfold canon fromMag
  split
  · exact digitsOf_ok (by omega) _
  · have hok := digitsOf_ok (B := 2) (by omega) v.natAbs
    refine ⟨?_, fun d hd => tct_digits _ ?_ d (List.dropLast_subset _ hd)⟩
    · rw [← List.length_pos_iff]
      have := List.length_pos_iff.2 hok.1
      simp [length_tct]; omega
    · intro d hd
      rcases List.mem_append.1 hd with h | h
      · exact hok.2 d h
      · rw [List.mem_singleton.1 h]; omega

/-- The canonical value of an integer denotes it (R174). -/
@[simp] theorem val_canon (v : Int) : (canon v).val = v := by
  have hok := digitsOf_ok (B := 2) (by omega) v.natAbs
  by_cases hv : v < 0
  · have hn0 : v.natAbs ≠ 0 := by omega
    have h0 : digitsOf 2 v.natAbs ≠ [0] := fun h => hn0 ((digitsOf_eq_zero_iff (by omega) _).1 h)
    have hdig : ∀ d ∈ digitsOf 2 v.natAbs ++ [0], d < 2 := by
      intro d hd
      rcases List.mem_append.1 hd with h | h
      · exact hok.2 d h
      · rw [List.mem_singleton.1 h]; omega
    have hmag : mag 2 (digitsOf 2 v.natAbs ++ [0]) = v.natAbs := by simp [mag_append]
    have ht := mag_tct _ hdig
    rw [hmag, if_neg hn0] at ht
    have hlt := mag_lt _ hok.2
    rw [mag_digitsOf (by omega)] at hlt
    have hlen : (tct (digitsOf 2 v.natAbs ++ [0])).length = (digitsOf 2 v.natAbs).length + 1 := by simp [length_tct]
    have hu := val_unword_of_congr (v := v) (k := 1) hlen (tct_digits _ hdig) (by
      have : ((mag 2 (tct (digitsOf 2 v.natAbs ++ [0])) + v.natAbs : Nat) : Int) =
        ((2 ^ (digitsOf 2 v.natAbs ++ [0]).length : Nat) : Int) := by rw [ht]
      push_cast at this
      rw [abs_of_neg hv] at this
      simp at this ⊢
      linarith) (by have : (v.natAbs : Int) < 2 ^ (digitsOf 2 v.natAbs).length := by exact_mod_cast hlt
                    omega) (by have : (0 : Int) < 2 ^ (digitsOf 2 v.natAbs).length := by positivity
                               linarith)
    have hs := (val_neg_iff (unword_digits (tct_digits _ hdig))).1 (by rw [hu]; exact hv)
    have hcan : canon v = { sign := true, bits := (tct (digitsOf 2 v.natAbs ++ [0])).dropLast } := by
      simp [canon, fromMag, hv, h0]
    conv_rhs => rw [← hu]
    rw [hcan, ← hs]; rfl
  · simp only [canon, fromMag, hv, decide_false, Bool.not_false, Bool.true_or, if_true, Bin.val, Bool.false_eq_true,
      if_false, Int.sub_zero]
    rw [mag_digitsOf (by omega)]
    omega

/-- Norm brings a value to its canonical form and keeps the integer (R174). -/
theorem norm_eq {x : Bin} (hx : x.WF) : norm x = canon x.val := by
  rw [norm, binMag_eq hx, fromMag_eq]
  congr 1
  cases hs : x.sign
  · have := (val_neg_iff hx.2).not.2 (by simp [hs])
    simp only [Bool.false_eq_true, if_false]; omega
  · have := (val_neg_iff hx.2).2 hs
    simp only [if_true]; omega

/-! ## RippleAdd and ShiftAdd -/

theorem rippleAdd_spec : ∀ (x y : List Nat) (c : Nat), x.length = y.length →
    (rippleAdd x y c).length = x.length ∧ (∀ d ∈ rippleAdd x y c, d < 2) ∧
      ∃ k, mag 2 x + mag 2 y + c = mag 2 (rippleAdd x y c) + k * 2 ^ x.length
  | [], [], c, _ => ⟨by simp [rippleAdd], by simp [rippleAdd], c, by simp [rippleAdd]⟩
  | a :: x, b :: y, c, hl => by
    obtain ⟨h1, h2, k, h3⟩ := rippleAdd_spec x y ((a + b + c) / 2) (by simpa using hl)
    refine ⟨by simp [rippleAdd, h1], ?_, k, ?_⟩
    · intro d hd
      rw [rippleAdd] at hd
      rcases List.mem_cons.1 hd with rfl | h
      · omega
      · exact h2 d h
    · simp only [rippleAdd, mag_cons, List.length_cons, pow_succ]
      have e : k * (2 ^ x.length * 2) = 2 * (k * 2 ^ x.length) := by ring
      rw [e]
      omega

theorem shiftAddFrom_spec : ∀ (Y X acc : List Nat), DigitsOk 2 X → DigitsOk 2 acc → (∀ d ∈ Y, d < 2) →
    DigitsOk 2 (shiftAddFrom X acc Y) ∧ mag 2 (shiftAddFrom X acc Y) = mag 2 acc + mag 2 X * mag 2 Y
  | [], X, acc, _, ha, _ => ⟨ha, by simp [shiftAddFrom]⟩
  | y :: ys, X, acc, hX, ha, hY => by
    have hy := hY y (by simp)
    have hX' : DigitsOk 2 (0 :: X) := ⟨by simp, fun d hd => by
      rcases List.mem_cons.1 hd with rfl | h
      · omega
      · exact hX.2 d h⟩
    have ha' : DigitsOk 2 (if y = 1 then magAdd 2 acc X else acc) := by
      split
      · exact magAdd_ok (by omega) ha hX
      · exact ha
    obtain ⟨h1, h2⟩ := shiftAddFrom_spec ys (0 :: X) _ hX' ha' fun d h => hY d (by simp [h])
    refine ⟨h1, ?_⟩
    rw [shiftAddFrom, h2]
    split
    · rename_i h; subst h
      rw [mag_magAdd (by omega) ha hX]; simp; ring
    · have : y = 0 := by omega
      subst this; simp; ring

/-- ShiftAdd is the digit list of the product (R179). -/
theorem shiftAdd_eq {X Y : List Nat} (hX : DigitsOk 2 X) (hY : DigitsOk 2 Y) :
    shiftAdd X Y = digitsOf 2 (mag 2 X * mag 2 Y) := by
  obtain ⟨h1, h2⟩ := shiftAddFrom_spec Y X [0] hX ⟨by simp, by simp⟩ hY.2
  rw [shiftAdd, trim_eq (by omega) h1, h2]; simp

end Sys2Proof.Machine
end

