-- ==== Sys2Proof/Laws/Base2.lean ====
section
/-! SUPPORT. The base-2 engine's value functions: every arithmetic result is the canonical value of the exact integer
(42_twos_complement.md R176 to R189). -/

namespace Sys2Proof.Machine

/-- A difference of magnitudes under a sign. -/
theorem fromMag_magSub {a b : Bin} (ha : a.WF) (hb : b.WF) (neg : Bool) (hle : b.val.natAbs ≤ a.val.natAbs) :
    fromMag neg (magSub 2 (binMag a) (binMag b)) =
      canon (if neg then -((a.val.natAbs : Int) - b.val.natAbs) else (a.val.natAbs : Int) - b.val.natAbs) := by
  rw [magSub_eq (by omega) (binMag_ok ha) (binMag_ok hb) (by rwa [mag_binMag ha, mag_binMag hb]), mag_binMag ha, mag_binMag hb,
    fromMag_eq, Nat.cast_sub hle]

/-- MagCmp of the magnitudes compares the absolute values. -/
theorem magCmp_binMag {a b : Bin} (ha : a.WF) (hb : b.WF) :
    magCmp (binMag a) (binMag b) = compare a.val.natAbs b.val.natAbs := by
  rw [binMag_eq ha, binMag_eq hb, magCmp_digitsOf (by omega)]

/-- The sign bit decides between the absolute value and its negative. -/
theorem val_eq_natAbs {a : Bin} (ha : a.WF) : a.val = if a.sign then -(a.val.natAbs : Int) else a.val.natAbs := by
  have h := val_neg_iff ha.2
  cases hs : a.sign
  · have := h.not.2 (by simp [hs])
    simp only [Bool.false_eq_true, if_false]; omega
  · have := h.2 hs
    simp only [if_true]; omega

/-- BIN.NEG's function (R176). -/
theorem binNegate_eq {x : Bin} (hx : x.WF) : binNegate x = canon (-x.val) := by
  have hw : (unword (negWord x)).WF := by
    refine ⟨?_, unword_digits (negWord_digits hx.2)⟩
    rw [← List.length_pos_iff, length_unword, length_negWord]; omega
  rw [binNegate, norm_eq hw, val_unword_negWord hx.2]

/-- BIN.ADD's function (R184). -/
theorem binSum_eq {a b : Bin} (ha : a.WF) (hb : b.WF) : binSum a b = canon (a.val + b.val) := by
  unfold binSum
  split
  · rename_i hs
    generalize hm : max a.bits.length b.bits.length + 1 = m
    have hla : a.bits.length ≤ m - 1 := by omega
    have hlb : b.bits.length ≤ m - 1 := by omega
    have hmp : m - 1 + 1 = m := by omega
    obtain ⟨h1, h2, k, h3⟩ := rippleAdd_spec (toWord (sExt a m)) (toWord (sExt b m)) 0
      (by simp [length_sExt, show a.bits.length ≤ m by omega, show b.bits.length ≤ m by omega])
    rw [length_toWord, length_sExt a m (by omega)] at h1 h3
    have hwa := mag_toWord (sExt a m)
    have hwb := mag_toWord (sExt b m)
    rw [val_sExt a m (by omega), length_sExt a m (by omega), sExt_sign] at hwa
    rw [val_sExt b m (by omega), length_sExt b m (by omega), sExt_sign] at hwb
    have h3' : ((mag 2 (toWord (sExt a m)) : Int) + mag 2 (toWord (sExt b m)) + 0) =
        mag 2 (rippleAdd (toWord (sExt a m)) (toWord (sExt b m)) 0) + k * 2 ^ (m + 1) := by exact_mod_cast h3
    have hra := val_range ha.2
    have hrb := val_range hb.2
    have pa : (2 : Int) ^ a.bits.length ≤ 2 ^ (m - 1) := pow_le_pow_right₀ (by norm_num) hla
    have pb : (2 : Int) ^ b.bits.length ≤ 2 ^ (m - 1) := pow_le_pow_right₀ (by norm_num) hlb
    have pm : (2 : Int) ^ m = 2 * 2 ^ (m - 1) := by
      conv_lhs => rw [← hmp]
      ring
    have hv : (unword (rippleAdd (toWord (sExt a m)) (toWord (sExt b m)) 0)).val = a.val + b.val := by
      refine val_unword_of_congr (n := m)
        (k := (if a.sign then 1 else 0) + (if b.sign then 1 else 0) - k) h1 h2 ?_ (by rw [pm]; linarith) (by rw [pm]; linarith)
      rw [hwa, hwb] at h3'
      cases hsa : a.sign <;> cases hsb : b.sign <;> simp [hsa, hsb] at h3' ⊢ <;> linarith
    rw [norm_eq ⟨?_, unword_digits h2⟩, hv]
    rw [← List.length_pos_iff, length_unword, h1]; omega
  · rename_i hs
    have hcases : (a.sign = true ∧ b.sign = false) ∨ (a.sign = false ∧ b.sign = true) := by
      revert hs; cases a.sign <;> cases b.sign <;> simp
    have ea := val_eq_natAbs ha
    have eb := val_eq_natAbs hb
    rw [magCmp_binMag ha hb]
    rcases lt_trichotomy a.val.natAbs b.val.natAbs with h | h | h
    · rw [compare_lt_iff_lt.2 h]
      simp only
      rw [fromMag_magSub hb ha _ h.le]
      congr 1
      rcases hcases with ⟨x, y⟩ | ⟨x, y⟩ <;> simp only [x, y, if_true, Bool.false_eq_true, if_false] at ea eb ⊢ <;> omega
    · rw [compare_eq_iff_eq.2 h]
      have h0 : a.val + b.val = 0 := by
        rcases hcases with ⟨x, y⟩ | ⟨x, y⟩ <;> simp only [x, y, if_true, Bool.false_eq_true, if_false] at ea eb <;> omega
      rw [h0]; rfl
    · rw [compare_gt_iff_gt.2 h]
      simp only
      rw [fromMag_magSub ha hb _ h.le]
      congr 1
      rcases hcases with ⟨x, y⟩ | ⟨x, y⟩ <;> simp only [x, y, if_true, Bool.false_eq_true, if_false] at ea eb ⊢ <;> omega

/-- BIN.SUB's function (R185). -/
theorem binDifference_eq {a b : Bin} (ha : a.WF) (hb : b.WF) : binDifference a b = canon (a.val - b.val) := by
  unfold binDifference
  split
  · rename_i hs
    have ea := val_eq_natAbs ha
    have eb := val_eq_natAbs hb
    rw [← hs] at eb
    rw [magCmp_binMag ha hb]
    rcases Nat.lt_or_ge a.val.natAbs b.val.natAbs with h | h
    · rw [compare_lt_iff_lt.2 h]
      simp only
      rw [fromMag_magSub hb ha _ h.le]
      congr 1
      cases hsa : a.sign <;> simp only [hsa, if_true, Bool.false_eq_true, if_false, Bool.not_true, Bool.not_false] at ea eb ⊢ <;> omega
    · have hge : fromMag a.sign (magSub 2 (binMag a) (binMag b)) = canon (a.val - b.val) := by
        rw [fromMag_magSub ha hb _ h]
        congr 1
        cases hsa : a.sign <;> simp only [hsa, if_true, Bool.false_eq_true, if_false] at ea eb ⊢ <;> omega
      rcases lt_or_eq_of_le h with g | g
      · rw [compare_gt_iff_gt.2 g]; exact hge
      · rw [compare_eq_iff_eq.2 g.symm]; exact hge
  · rw [binNegate_eq hb, binSum_eq ha (canon_wf _), val_canon, Int.sub_eq_add_neg]

/-- BIN.MUL's function (R186). -/
theorem binProduct_eq {a b : Bin} (ha : a.WF) (hb : b.WF) : binProduct a b = canon (a.val * b.val) := by
  rw [binProduct, shiftAdd_eq (binMag_ok ha) (binMag_ok hb), mag_binMag ha, mag_binMag hb, fromMag_eq]
  congr 1
  conv_rhs => rw [val_eq_natAbs ha, val_eq_natAbs hb]
  cases a.sign <;> cases b.sign <;> simp

/-- A zero divisor of any length is an error (R187, R188). -/
theorem binMag_zero_iff {b : Bin} (hb : b.WF) : binMag b = [0] ↔ b.val = 0 := by
  rw [binMag_eq hb, digitsOf_eq_zero_iff (by omega)]; omega

/-- BIN.DIV's function: the quotient truncated toward zero (R187). -/
theorem binQuotient_eq {a b : Bin} (ha : a.WF) (hb : b.WF) (h0 : b.val ≠ 0) :
    binQuotient a b = .ok (canon (Int.tdiv a.val b.val)) := by
  rw [binQuotient, if_neg ((binMag_zero_iff hb).not.2 h0),
    magDivMod_eq (by omega) (binMag_ok ha) (binMag_ok hb) (binMag_trimmed hb) (by rw [mag_binMag hb]; omega),
    mag_binMag ha, mag_binMag hb, fromMag_eq]
  congr 2
  rw [show Int.tdiv a.val b.val = Int.tdiv (if a.sign then -(a.val.natAbs : Int) else a.val.natAbs)
    (if b.sign then -(b.val.natAbs : Int) else b.val.natAbs) by rw [← val_eq_natAbs ha, ← val_eq_natAbs hb]]
  generalize a.val.natAbs = m
  generalize b.val.natAbs = n
  cases a.sign <;> cases b.sign <;> simp [Int.tdiv_neg, Int.neg_tdiv]

/-- BIN.MOD's function: the remainder with the dividend's sign (R188). -/
theorem binRemainder_eq {a b : Bin} (ha : a.WF) (hb : b.WF) (h0 : b.val ≠ 0) :
    binRemainder a b = .ok (canon (Int.tmod a.val b.val)) := by
  rw [binRemainder, if_neg ((binMag_zero_iff hb).not.2 h0),
    magDivMod_eq (by omega) (binMag_ok ha) (binMag_ok hb) (binMag_trimmed hb) (by rw [mag_binMag hb]; omega),
    mag_binMag ha, mag_binMag hb, fromMag_eq]
  congr 2
  rw [show Int.tmod a.val b.val = Int.tmod (if a.sign then -(a.val.natAbs : Int) else a.val.natAbs)
    (if b.sign then -(b.val.natAbs : Int) else b.val.natAbs) by rw [← val_eq_natAbs ha, ← val_eq_natAbs hb]]
  generalize a.val.natAbs = m
  generalize b.val.natAbs = n
  cases a.sign <;> cases b.sign <;> simp [Int.tmod_neg, Int.neg_tmod] <;> rfl

/-- EQ of BIN.CMP is equality of the integers (R183). -/
theorem binEq_eq {a b : Bin} (ha : a.WF) (hb : b.WF) : binEq a b = decide (a.val = b.val) := by
  have ea := val_eq_natAbs ha
  have eb := val_eq_natAbs hb
  have na := val_neg_iff ha.2
  have nb := val_neg_iff hb.2
  rw [binEq, magCmp_binMag ha hb, Bool.eq_iff_iff]
  cases hsa : a.sign <;> cases hsb : b.sign <;>
    simp only [hsa, hsb, if_true, Bool.false_eq_true, if_false, bne_self_eq_false, iff_false, iff_true, beq_iff_eq,
      compare_eq_iff_eq, decide_eq_true_eq, Bool.bne_true, Bool.bne_false, Bool.not_false, false_iff] at ea eb na nb ⊢ <;>
    omega

/-- LT of BIN.CMP is the order of the integers (R183). -/
theorem binLt_eq {a b : Bin} (ha : a.WF) (hb : b.WF) : binLt a b = decide (a.val < b.val) := by
  have ea := val_eq_natAbs ha
  have eb := val_eq_natAbs hb
  have na := val_neg_iff ha.2
  have nb := val_neg_iff hb.2
  rw [binLt, magCmp_binMag ha hb, Bool.eq_iff_iff]
  cases hsa : a.sign <;> cases hsb : b.sign <;>
    simp only [hsa, hsb, if_true, Bool.false_eq_true, if_false, bne_self_eq_false, iff_false, iff_true, beq_iff_eq,
      compare_lt_iff_lt, compare_gt_iff_gt, decide_eq_true_eq, Bool.bne_true, Bool.bne_false, Bool.not_false,
      false_iff, true_iff] at ea eb na nb ⊢ <;>
    omega

/-- A BIN value is fixed by its integer and its length. -/
theorem bin_ext {a b : Bin} (ha : a.WF) (hb : b.WF) (hv : a.val = b.val) (hl : a.bits.length = b.bits.length) : a = b := by
  have hs : a.sign = b.sign := by
    rw [Bool.eq_iff_iff, ← val_neg_iff ha.2, ← val_neg_iff hb.2, hv]
  have hm : mag 2 a.bits = mag 2 b.bits := by
    unfold Bin.val at hv; rw [hs, hl] at hv; omega
  have key : ∀ X Y : List Nat, X.length = Y.length → (∀ d ∈ X, d < 2) → (∀ d ∈ Y, d < 2) → mag 2 X = mag 2 Y → X = Y := by
    intro X
    induction X with
    | nil => intro Y hl _ _ _; exact (List.length_eq_zero_iff.1 hl.symm).symm
    | cons x xs ih =>
      intro Y hl hX hY h
      match Y, hl with
      | y :: ys, hl =>
        have hx := hX x (by simp)
        have hy := hY y (by simp)
        simp only [mag_cons] at h
        rw [ih ys (by simpa using hl) (fun d h => hX d (by simp [h])) (fun d h => hY d (by simp [h])) (by omega),
          show x = y by omega]
  cases a; cases b
  simp only [Bin.mk.injEq]
  exact ⟨hs, key _ _ hl ha.2 hb.2 hm⟩

/-! ## The integer laws (R189) -/

/-- A sum depends on the operands' integers alone, not on their lengths. -/
theorem binSum_congr {a b a' b' : Bin} (ha : a.WF) (hb : b.WF) (ha' : a'.WF) (hb' : b'.WF)
    (h : a.val = a'.val) (h' : b.val = b'.val) : binSum a b = binSum a' b' := by
  rw [binSum_eq ha hb, binSum_eq ha' hb', h, h']

/-- `a + b == b + a`, as values of a register. -/
theorem binSum_comm {a b : Bin} (ha : a.WF) (hb : b.WF) : binSum a b = binSum b a := by
  rw [binSum_eq ha hb, binSum_eq hb ha, Int.add_comm]

/-- `a + (-a) == zero`, as values of a register: zero has one form, and it is not negative. -/
theorem binSum_binNegate {a : Bin} (ha : a.WF) : binSum a (binNegate a) = { sign := false, bits := [0] } := by
  rw [binNegate_eq ha, binSum_eq ha (canon_wf _), val_canon, Int.add_right_neg]; rfl

/-- `(a + b) - b` is the canonical form of a, so it is a itself when a is canonical. -/
theorem binDifference_binSum {a b : Bin} (ha : a.WF) (hb : b.WF) : binDifference (binSum a b) b = canon a.val := by
  rw [binSum_eq ha hb, binDifference_eq (canon_wf _) hb, val_canon, Int.add_sub_cancel]

/-- `(a + b) - b == a` in the sense of BIN.CMP, for every a. -/
theorem binEq_binDifference_binSum {a b : Bin} (ha : a.WF) (hb : b.WF) : binEq (binDifference (binSum a b) b) a = true := by
  rw [binDifference_binSum ha hb, binEq_eq (canon_wf _) ha, val_canon, decide_eq_true rfl]

/-- `(a * b) * c == a * (b * c)`, as values of a register. -/
theorem binProduct_assoc {a b c : Bin} (ha : a.WF) (hb : b.WF) (hc : c.WF) :
    binProduct (binProduct a b) c = binProduct a (binProduct b c) := by
  rw [binProduct_eq ha hb, binProduct_eq hb hc, binProduct_eq (canon_wf _) hc, binProduct_eq ha (canon_wf _),
    val_canon, val_canon, Int.mul_assoc]

/-- Quotient and remainder give the dividend back, in canonical form. -/
theorem binQuotient_binRemainder {a b : Bin} (ha : a.WF) (hb : b.WF) (h0 : b.val ≠ 0) :
    ∃ q r, binQuotient a b = .ok q ∧ binRemainder a b = .ok r ∧ binSum (binProduct q b) r = canon a.val :=
  ⟨_, _, binQuotient_eq ha hb h0, binRemainder_eq ha hb h0, by
    rw [binProduct_eq (canon_wf _) hb, binSum_eq (canon_wf _) (canon_wf _), val_canon, val_canon, val_canon,
      Int.tdiv_mul_add_tmod]⟩

/-- A zero divisor of any length has neither quotient nor remainder. -/
theorem binQuotient_zero {a b : Bin} (hb : b.WF) (h0 : b.val = 0) :
    binQuotient a b = .error .divisionByZero ∧ binRemainder a b = .error .divisionByZero := by
  simp only [binQuotient, binRemainder, (binMag_zero_iff hb).2 h0, if_true, and_self]

/-! ## Resizing -/

/-- A bit list of magnitude zero is all zeros. -/
theorem all_zero_of_mag : ∀ X : List Nat, mag 2 X = 0 → ∀ d ∈ X, d = 0
  | [], _ => by simp
  | x :: xs, h => by
    have h' : x + 2 * mag 2 xs = 0 := h
    have := all_zero_of_mag xs (by omega)
    intro d hd
    rcases List.mem_cons.1 hd with rfl | hd
    · omega
    · exact this d hd

/-- A bit list of the greatest magnitude is all ones. -/
theorem all_one_of_mag {X : List Nat} (h : ∀ d ∈ X, d < 2) (hm : mag 2 X + 1 = 2 ^ X.length) : ∀ d ∈ X, d = 1 := by
  have h1 := mag_invert X h
  have h0 := all_zero_of_mag _ (show mag 2 (X.map fun x => 1 - x) = 0 by omega)
  intro d hd
  have := h0 (1 - d) (List.mem_map.2 ⟨d, hd, rfl⟩)
  have := h d hd
  omega

/-- The bits a narrowing drops are copies of the sign exactly when the value fits (R181). -/
theorem dropped_iff_fits {x : Bin} (hx : x.WF) {m : Nat} (hm : m ≤ x.bits.length) :
    (∀ b ∈ x.bits.drop m, b = x.sign.toNat) ↔ -(2 ^ m : Int) ≤ x.val ∧ x.val < 2 ^ m := by
  have h := hx.2
  have htake : ∀ d ∈ x.bits.take m, d < 2 := fun d hd => h d (List.mem_of_mem_take hd)
  have hdrop : ∀ d ∈ x.bits.drop m, d < 2 := fun d hd => h d (List.mem_of_mem_drop hd)
  have hlt : (x.bits.take m).length = m := by simp [hm]
  have hld : (x.bits.drop m).length = x.bits.length - m := by simp
  constructor
  · intro hall
    have hrep : x.bits.drop m = List.replicate (x.bits.length - m) x.sign.toNat := by
      rw [← hld]; exact List.eq_replicate_iff.2 ⟨rfl, hall⟩
    have hext : sExt { x with bits := x.bits.take m } x.bits.length = x := by
      rw [sExt, hlt, ← hrep, List.take_append_drop]
    have hv := val_sExt { x with bits := x.bits.take m } x.bits.length (by rw [hlt]; exact hm)
    rw [hext] at hv
    have hr := val_range (x := { x with bits := x.bits.take m }) htake
    rw [← hv, hlt] at hr
    exact hr
  · rintro ⟨hlo, hhi⟩
    have hmag : mag 2 x.bits = mag 2 (x.bits.take m) + 2 ^ m * mag 2 (x.bits.drop m) := by
      conv_lhs => rw [← List.take_append_drop m x.bits]
      rw [mag_append, hlt]
    have ht := mag_lt _ htake
    rw [hlt] at ht
    have hp : 0 < 2 ^ m := by positivity
    cases hs : x.sign
    · have hv : x.val = (mag 2 x.bits : Int) := by simp [Bin.val, hs]
      have hlt' : mag 2 x.bits < 2 ^ m := by rw [hv] at hhi; exact_mod_cast hhi
      have h0 : mag 2 (x.bits.drop m) = 0 := by
        by_contra hne
        have : 2 ^ m * 1 ≤ 2 ^ m * mag 2 (x.bits.drop m) := Nat.mul_le_mul_left _ (by omega)
        omega
      exact all_zero_of_mag _ h0
    · have hv : x.val = (mag 2 x.bits : Int) - 2 ^ x.bits.length := by simp [Bin.val, hs]
      have hpow : 2 ^ x.bits.length = 2 ^ m * 2 ^ (x.bits.length - m) := by rw [← pow_add]; congr 1; omega
      have hle : 2 ^ x.bits.length ≤ mag 2 x.bits + 2 ^ m := by
        rw [hv] at hlo
        have : (2 ^ x.bits.length : Int) ≤ mag 2 x.bits + 2 ^ m := by omega
        exact_mod_cast this
      have hd := mag_lt _ hdrop
      rw [hld] at hd
      have hone : mag 2 (x.bits.drop m) + 1 = 2 ^ (x.bits.length - m) := by
        by_contra hne
        have h2 : 2 ^ m * (mag 2 (x.bits.drop m) + 2) ≤ 2 ^ m * 2 ^ (x.bits.length - m) := Nat.mul_le_mul_left _ (by omega)
        have h3 : 2 ^ m * (mag 2 (x.bits.drop m) + 2) = 2 ^ m * mag 2 (x.bits.drop m) + 2 * 2 ^ m := by ring
        omega
      exact all_one_of_mag hdrop (by rw [hld]; exact hone)

/-- A resize that fits: the value and the sign stay, the length is the one asked for (R181). -/
theorem binResized_fits {x : Bin} (hx : x.WF) {m : BitVec 16} (hm : m ≠ 0)
    (h : -(2 ^ m.toNat : Int) ≤ x.val ∧ x.val < 2 ^ m.toNat) :
    ∃ r, binResized m x = .ok r ∧ r.WF ∧ r.val = x.val ∧ r.sign = x.sign ∧ r.bits.length = m.toNat := by
  unfold binResized
  rw [if_neg hm]
  have hpos : 0 < m.toNat := by
    rcases Nat.eq_zero_or_pos m.toNat with h0 | h0
    · exact absurd (BitVec.eq_of_toNat_eq (by simpa using h0)) hm
    · exact h0
  by_cases hle : x.bits.length ≤ m.toNat
  · rw [if_pos hle]
    have hl := length_sExt x _ hle
    refine ⟨_, rfl, ⟨?_, sExt_digits hx.2 _⟩, val_sExt x _ hle, rfl, hl⟩
    intro h0; rw [h0] at hl; simp at hl; omega
  · have hle' : m.toNat ≤ x.bits.length := by omega
    have hall := (dropped_iff_fits hx hle').2 h
    rw [if_neg hle, if_pos (by simpa using hall)]
    have hl : (x.bits.take m.toNat).length = m.toNat := by simp [hle']
    refine ⟨_, rfl, ⟨?_, fun d hd => hx.2 d (List.mem_of_mem_take hd)⟩, ?_, rfl, hl⟩
    · intro h0
      have h0' : x.bits.take m.toNat = [] := h0
      rw [h0'] at hl; simp at hl; omega
    · have hrep : x.bits.drop m.toNat = List.replicate (x.bits.length - m.toNat) x.sign.toNat := by
        rw [← List.length_drop]; exact List.eq_replicate_iff.2 ⟨rfl, hall⟩
      have hext : sExt { x with bits := x.bits.take m.toNat } x.bits.length = x := by
        rw [sExt, hl, ← hrep, List.take_append_drop]
      have hv := val_sExt { x with bits := x.bits.take m.toNat } x.bits.length (by rw [hl]; exact hle')
      rw [hext] at hv
      exact hv.symm

/-- A resize that does not fit (R181). -/
theorem binResized_overflow {x : Bin} (hx : x.WF) {m : BitVec 16} (hm : m ≠ 0)
    (h : ¬(-(2 ^ m.toNat : Int) ≤ x.val ∧ x.val < 2 ^ m.toNat)) : binResized m x = .error .widthOverflow := by
  unfold binResized
  rw [if_neg hm]
  have hle : ¬ x.bits.length ≤ m.toNat := by
    intro hle
    have hr := val_range hx.2
    have hp : (2 : Int) ^ x.bits.length ≤ 2 ^ m.toNat := pow_le_pow_right₀ (by norm_num) hle
    omega
  rw [if_neg hle, if_neg]
  intro hall
  exact h ((dropped_iff_fits hx (by omega)).1 (by simpa using hall))

end Sys2Proof.Machine
end

