-- ==== Sys2Proof/Laws/SignMagnitude.lean ====
section
/-! SUPPORT. The sign-magnitude engine's value functions against integer arithmetic (41_sign_magnitude.md section 3). -/

namespace Sys2Proof.Machine

/-- The magnitude of an SM value is its absolute value. -/
theorem Sm.natAbs_val (x : Sm) : x.val.natAbs = mag x.base.toNat x.digits := by
  unfold Sm.val; split <;> simp

/-- The digits of a well-formed SM value are those of its absolute value. -/
theorem Sm.digits_eq {x : Sm} (h : x.WF) : x.digits = digitsOf x.base.toNat x.val.natAbs := by
  rw [Sm.natAbs_val]; exact eq_digitsOf x.base.one_lt h.1 h.2

/-- A value made of a digit list is well formed (R137). -/
theorem Sm.wf_of_digitsOf (b : SmBase) (neg : Bool) (m : Nat) : Sm.WF { base := b, neg := neg, digits := digitsOf b.toNat m } :=
  ⟨digitsOf_ok b.one_lt m, digitsOf_trimmed b.one_lt m⟩

/-- What such a value denotes. -/
theorem Sm.val_of_digitsOf (b : SmBase) (neg : Bool) (m : Nat) :
    Sm.val { base := b, neg := neg, digits := digitsOf b.toNat m } = if neg then -(m : Int) else m := by
  simp [Sm.val, b.one_lt]

/-- A well-formed SM value's digits are `[0]` exactly when it denotes 0. -/
theorem Sm.digits_zero_iff {x : Sm} (h : x.WF) : x.digits = [0] ↔ x.val = 0 := by
  rw [eq_zero_iff x.base.one_lt h.1 h.2, ← Sm.natAbs_val]; omega

/-- Negation (R138). -/
theorem smNegate_eq {a : Sm} (h : a.WF) :
    smNegate a = { base := a.base, neg := decide (0 < a.val), digits := digitsOf a.base.toNat a.val.natAbs } := by
  unfold smNegate
  split
  · rename_i h0
    have := (Sm.digits_zero_iff h).1 h0
    simp [this]
  · rename_i h0
    have hv := (Sm.digits_zero_iff h).not.1 h0
    rw [← Sm.digits_eq h]
    have : decide (0 < a.val) = !a.neg := by
      cases hn : a.neg
      · simp [Sm.val, hn] at hv ⊢; omega
      · simp [Sm.val, hn]
    rw [this]

/-- Signed addition: exact, and the sign of each case (R140). -/
theorem signedAdd_eq {a b : Sm} (ha : a.WF) (hb : b.WF) (hB : a.base = b.base) :
    signedAdd a b = { base := a.base, neg := if a.neg = b.neg then a.neg else decide (a.val + b.val < 0),
                      digits := digitsOf a.base.toNat (a.val + b.val).natAbs } := by
  have h1 := a.base.one_lt
  have hb' : DigitsOk a.base.toNat b.digits := hB ▸ hb.1
  have hva : a.val = if a.neg then -(mag a.base.toNat a.digits : Int) else mag a.base.toNat a.digits := rfl
  have hvb : b.val = if b.neg then -(mag a.base.toNat b.digits : Int) else mag a.base.toNat b.digits := by rw [hB]; rfl
  unfold signedAdd
  split
  · rename_i hn
    rw [magAdd_eq h1 ha.1 ha.2 hb' hb.2]
    congr 2
    rw [hva, hvb, ← hn]
    split <;> omega
  · rename_i hn
    rw [magCmp_eq h1 ha.1 ha.2 hb' hb.2]
    have hcases : (a.neg = true ∧ b.neg = false) ∨ (a.neg = false ∧ b.neg = true) := by
      revert hn; cases a.neg <;> cases b.neg <;> simp
    rcases lt_trichotomy (mag a.base.toNat a.digits) (mag a.base.toNat b.digits) with h | h | h
    · rw [compare_lt_iff_lt.2 h]
      simp only
      rw [magSub_eq h1 hb' ha.1 h.le]
      rcases hcases with ⟨x, y⟩ | ⟨x, y⟩ <;> rw [hva, hvb] <;> simp only [x, y] <;> simp <;>
        refine ⟨by omega, ?_⟩ <;> congr 1 <;> omega
    · rw [compare_eq_iff_eq.2 h]
      simp only
      rcases hcases with ⟨x, y⟩ | ⟨x, y⟩ <;> rw [hva, hvb, h] <;> simp [x, y]
    · rw [compare_gt_iff_gt.2 h]
      simp only
      rw [magSub_eq h1 ha.1 hb' h.le]
      rcases hcases with ⟨x, y⟩ | ⟨x, y⟩ <;> rw [hva, hvb] <;> simp only [x, y] <;> simp <;>
        refine ⟨by omega, ?_⟩ <;> congr 1 <;> omega

/-- Flipping the sign negates the value. -/
theorem Sm.val_flip (b : Sm) : Sm.val { b with neg := !b.neg } = -b.val := by
  unfold Sm.val; cases b.neg <;> simp

/-- Signed subtraction (R142). -/
theorem signedSub_eq {a b : Sm} (ha : a.WF) (hb : b.WF) (hB : a.base = b.base) :
    signedSub a b = { base := a.base, neg := if a.neg = b.neg then decide (a.val - b.val < 0) else a.neg,
                      digits := digitsOf a.base.toNat (a.val - b.val).natAbs } := by
  have hb' : Sm.WF { b with neg := !b.neg } := hb
  rw [signedSub, signedAdd_eq ha hb' hB, Sm.val_flip]
  congr 1
  cases a.neg <;> cases b.neg <;> simp [Int.sub_eq_add_neg]

/-- Multiplication (R143). -/
theorem smProduct_eq {a b : Sm} (ha : a.WF) (hb : b.WF) (hB : a.base = b.base) :
    smProduct a b = { base := a.base, neg := xor a.neg b.neg,
                      digits := digitsOf a.base.toNat (a.val.natAbs * b.val.natAbs) } := by
  rw [smProduct, magMul_eq a.base.one_lt ha.1 (hB ▸ hb.1), Sm.natAbs_val, Sm.natAbs_val, hB]

/-- Division by a zero of either sign is an error (R144). -/
theorem smQuotient_zero {a b : Sm} (hb : b.WF) (h0 : b.val = 0) : smQuotient a b = .error .divisionByZero := by
  rw [smQuotient, if_pos ((Sm.digits_zero_iff hb).2 h0)]

/-- Division (R144). -/
theorem smQuotient_eq {a b : Sm} (ha : a.WF) (hb : b.WF) (hB : a.base = b.base) (h0 : b.val ≠ 0) :
    smQuotient a b = .ok { base := a.base, neg := xor a.neg b.neg,
                           digits := digitsOf a.base.toNat (a.val.natAbs / b.val.natAbs) } := by
  have hm : mag a.base.toNat b.digits ≠ 0 := by rw [hB, ← Sm.natAbs_val]; omega
  rw [smQuotient, if_neg ((Sm.digits_zero_iff hb).not.2 h0), magDivMod_eq a.base.one_lt ha.1 (hB ▸ hb.1) hb.2 hm,
    Sm.natAbs_val, Sm.natAbs_val, hB]

/-- Remainder by a zero of either sign is an error (R145). -/
theorem smRemainder_zero {a b : Sm} (hb : b.WF) (h0 : b.val = 0) : smRemainder a b = .error .divisionByZero := by
  rw [smRemainder, if_pos ((Sm.digits_zero_iff hb).2 h0)]

/-- Remainder (R145). -/
theorem smRemainder_eq {a b : Sm} (ha : a.WF) (hb : b.WF) (hB : a.base = b.base) (h0 : b.val ≠ 0) :
    smRemainder a b = .ok { base := a.base, neg := a.neg,
                            digits := digitsOf a.base.toNat (a.val.natAbs % b.val.natAbs) } := by
  have hm : mag a.base.toNat b.digits ≠ 0 := by rw [hB, ← Sm.natAbs_val]; omega
  rw [smRemainder, if_neg ((Sm.digits_zero_iff hb).not.2 h0), magDivMod_eq a.base.one_lt ha.1 (hB ▸ hb.1) hb.2 hm,
    Sm.natAbs_val, Sm.natAbs_val, hB]

/-- Repeated multiplication is the power, and the sign is the base's for an odd exponent (R146). -/
theorem powTimes_eq {a : Sm} (ha : a.WF) (n : Nat) :
    powTimes a n = { base := a.base, neg := a.neg && decide (n % 2 = 1),
                     digits := digitsOf a.base.toNat (a.val.natAbs ^ n) } := by
  induction n with
  | zero =>
    have : digitsOf a.base.toNat 1 = [1] := by cases a.base <;> decide
    simp [powTimes, this]
  | succ n ih =>
    have hv : (Sm.mk a.base (a.neg && decide (n % 2 = 1)) (digitsOf a.base.toNat (a.val.natAbs ^ n))).val.natAbs =
        a.val.natAbs ^ n := by
      rw [Sm.natAbs_val]; exact mag_digitsOf a.base.one_lt _
    rw [powTimes, ih, smProduct_eq (Sm.wf_of_digitsOf _ _ _) ha rfl, hv, pow_succ]
    congr 1
    rcases Nat.mod_two_eq_zero_or_one n with h | h <;> cases a.neg <;> simp [h, Nat.add_mod]

/-- A negative exponent is an error; negative zero is not negative (R146). -/
theorem smPower_negative {a e : Sm} (he : e.WF) (h : e.val < 0) : smPower a e = .error .negativeExponent := by
  have hn : e.neg = true := by
    by_contra hn; simp [Sm.val, hn] at h; omega
  have hd : e.digits ≠ [0] := (Sm.digits_zero_iff he).not.2 (by omega)
  simp [smPower, hn, hd]

/-- Power (R146). -/
theorem smPower_eq {a e : Sm} (ha : a.WF) (he : e.WF) (h : 0 ≤ e.val) :
    smPower a e = .ok { base := a.base, neg := a.neg && decide (e.val.natAbs % 2 = 1),
                        digits := digitsOf a.base.toNat (a.val.natAbs ^ e.val.natAbs) } := by
  have hc : (e.neg && decide (e.digits ≠ [0])) = false := by
    by_cases hd : e.digits = [0]
    · simp [hd]
    · have := (Sm.digits_zero_iff he).not.1 hd
      have : e.neg = false := by
        by_contra hn; simp [Sm.val] at this h hn; simp [hn] at h this; omega
      simp [this]
  rw [smPower, hc, ← Sm.natAbs_val, powTimes_eq ha]
  simp

/-- EQ of SM.CMP is equality of the integers (R139, R148). -/
theorem smEq_eq {a b : Sm} (ha : a.WF) (hb : b.WF) (hB : a.base = b.base) : smEq a b = decide (a.val = b.val) := by
  have hd : a.digits = b.digits ↔ mag a.base.toNat a.digits = mag a.base.toNat b.digits :=
    ⟨fun h => by rw [h], mag_injective a.base.one_lt ha.1 ha.2 (hB ▸ hb.1) hb.2⟩
  have h0 := eq_zero_iff a.base.one_lt ha.1 ha.2
  have hva : a.val = if a.neg then -(mag a.base.toNat a.digits : Int) else mag a.base.toNat a.digits := rfl
  have hvb : b.val = if b.neg then -(mag a.base.toNat b.digits : Int) else mag a.base.toNat b.digits := by rw [hB]; rfl
  rw [Bool.eq_iff_iff]
  simp only [smEq, Bool.and_eq_true, decide_eq_true_eq, Bool.or_eq_true, beq_iff_eq, hd, h0, hva, hvb]
  cases a.neg <;> cases b.neg <;> simp <;> omega

/-- LT of SM.CMP (R139). -/
theorem smLt_eq {a b : Sm} (ha : a.WF) (hb : b.WF) (hB : a.base = b.base) (rev : Bool) :
    smLt rev a b = if a.neg ≠ b.neg then a.neg
      else if a.neg = true ∧ rev = true then decide (b.val.natAbs < a.val.natAbs)
      else decide (a.val.natAbs < b.val.natAbs) := by
  have hc : magCmp a.digits b.digits = compare a.val.natAbs b.val.natAbs := by
    rw [magCmp_eq a.base.one_lt ha.1 ha.2 (hB ▸ hb.1) hb.2, Sm.natAbs_val, Sm.natAbs_val, hB]
  have hgt : (compare a.val.natAbs b.val.natAbs == .gt) = decide (b.val.natAbs < a.val.natAbs) := by
    rw [Bool.eq_iff_iff, beq_iff_eq, decide_eq_true_eq, compare_gt_iff_gt]
  have hlt : (compare a.val.natAbs b.val.natAbs == .lt) = decide (a.val.natAbs < b.val.natAbs) := by
    rw [Bool.eq_iff_iff, beq_iff_eq, decide_eq_true_eq, compare_lt_iff_lt]
  rw [smLt, hc, hgt, hlt]
  cases a.neg <;> cases b.neg <;> cases rev <;> simp

end Sys2Proof.Machine
end

