-- ==== Sys2Proof/Laws/Characters.lean ====
section
/-! SUPPORT. Texts: a digit's character is read back as the digit, and a display text is read back as the value
(40_setup_and_transfer.md R102, R103, R107 to R109). -/

namespace Sys2Proof.Machine

theorem digitOfChar_charOfDigit {v : Nat} (h : v < 16) : digitOfChar (charOfDigit v) = some v := by
  interval_cases v <;> decide

/-- A digit character is no sign. -/
theorem charOfDigit_not_sign {v : Nat} (h : v < 16) : charOfDigit v ≠ charPlus ∧ charOfDigit v ≠ charMinus := by
  interval_cases v <;> decide

theorem digitsOfText_map {B : Nat} (hB : B ≤ 16) : ∀ D : List Nat, (∀ d ∈ D, d < B) →
    digitsOfText B (D.map charOfDigit) = some D
  | [], _ => rfl
  | d :: ds, h => by
    have hd := h d (by simp)
    simp only [List.map_cons, digitsOfText, digitOfChar_charOfDigit (show d < 16 by omega), hd, if_true,
      digitsOfText_map hB ds fun e he => h e (by simp [he])]

/-- What the digits of a text are, digit by digit. -/
theorem digitsOfText_some {B : Nat} : ∀ {c : Text} {D : List Nat}, digitsOfText B c = some D →
    D.length = c.length ∧ ∀ d ∈ D, d < B
  | [], D, h => by simp [digitsOfText] at h; subst h; simp
  | c :: cs, D, h => by
    unfold digitsOfText at h
    split at h
    · simp at h
    · split at h
      · rename_i d _ hd
        split at h
        · simp at h
        · rename_i ds hds
          obtain ⟨h1, h2⟩ := digitsOfText_some hds
          simp at h; subst h
          refine ⟨by simp [h1], ?_⟩
          intro e he
          rcases List.mem_cons.1 he with rfl | g
          · exact hd
          · exact h2 e g
      · simp at h

/-- A trimmed list is its own trim. -/
theorem trim_of_trimmed {B : Nat} (hB : 1 < B) {X : List Nat} (h : DigitsOk B X) (ht : Trimmed X) : trim X = X := by
  rw [trim_eq hB h, ← eq_digitsOf hB h ht]

/-- The value a literal parses to is well formed (R102). -/
theorem parseSm_wf {b : SmBase} {c : Text} {x : Sm} (h : parseSm b c = .ok x) : x.WF ∧ x.base = b := by
  unfold parseSm at h
  split at h
  · simp at h
  · split at h
    · simp at h
    · rename_i ds hds
      simp at h; subst h
      obtain ⟨h1, h2⟩ := digitsOfText_some hds
      have hne : ds.reverse ≠ [] := by
        intro e; have := congrArg List.length e; simp [h1] at this
      exact ⟨⟨trim_ok ⟨hne, fun d hd => h2 d (by simpa using hd)⟩, trim_trimmed hne⟩, rfl⟩

/-- The value a base-2 literal parses to is well formed (R103). -/
theorem parseBin_wf {c : Text} {x : Bin} (h : parseBin c = .ok x) : x.WF := by
  unfold parseBin at h
  split at h
  · simp at h
  · simp at h
  · simp at h
  · rename_i s b bs hds
    simp at h; subst h
    obtain ⟨-, h2⟩ := digitsOfText_some hds
    refine ⟨by simp, fun d hd => h2 d ?_⟩
    simp at hd ⊢
    tauto

theorem SmBase.toNat_le (b : SmBase) : b.toNat ≤ 16 := by cases b <;> decide

/-- A displayed SM value is read back as itself, sign of zero included (R107, R109). -/
theorem parseSm_textSm {x : Sm} (h : x.WF) : parseSm x.base (textSm x) = .ok x := by
  have hdig : ∀ d ∈ x.digits.reverse, d < x.base.toNat := fun d hd => h.1.2 d (by simpa using hd)
  have hmap := digitsOfText_map x.base.toNat_le x.digits.reverse hdig
  have htrim := trim_of_trimmed x.base.one_lt h.1 h.2
  have hb := x.base.toNat_le
  obtain ⟨d, ds, hrev⟩ : ∃ d ds, x.digits.reverse = d :: ds := by
    cases hr : x.digits.reverse with
    | nil => exact absurd (by simpa using hr) h.1.1
    | cons d ds => exact ⟨d, ds, rfl⟩
  have hd16 : d < 16 := by have := hdig d (by rw [hrev]; simp); omega
  obtain ⟨hp, hm⟩ := charOfDigit_not_sign hd16
  have hback : x.digits = (d :: ds).reverse := by rw [← hrev, List.reverse_reverse]
  rw [hrev] at hmap
  simp only [List.map_cons] at hmap
  have hfin : (Except.ok { base := x.base, neg := x.neg, digits := trim (d :: ds).reverse } : Except ErrorCode Sm) = .ok x := by
    rw [← hback, htrim]
  unfold parseSm textSm
  rw [hrev]
  cases hn : x.neg
  · rw [hn] at hfin
    simp only [Bool.false_eq_true, if_false, List.nil_append, List.map_cons, splitSign, hp, hm, hmap]
    exact hfin
  · rw [hn] at hfin
    simp only [if_true, List.cons_append, List.nil_append, List.map_cons, splitSign,
      show charMinus ≠ charPlus by decide, if_false, hmap]
    exact hfin

/-- A displayed BIN value is read back as itself, length included (R108, R109). -/
theorem parseBin_textBin {x : Bin} (h : x.WF) : parseBin (textBin x) = .ok x := by
  have hdig : ∀ d ∈ x.sign.toNat :: x.bits.reverse, d < 2 := by
    intro d hd
    rcases List.mem_cons.1 hd with rfl | g
    · exact toNat_lt_two _
    · exact h.2 d (by simpa using g)
  have hmap := digitsOfText_map (show 2 ≤ 16 by omega) _ hdig
  obtain ⟨d, ds, hrev⟩ : ∃ d ds, x.bits.reverse = d :: ds := by
    cases hr : x.bits.reverse with
    | nil => exact absurd (by simpa using hr) h.1
    | cons d ds => exact ⟨d, ds, rfl⟩
  have hback : x.bits = (d :: ds).reverse := by rw [← hrev, List.reverse_reverse]
  rw [List.map_cons] at hmap
  unfold parseBin textBin
  rw [hmap, hrev]
  simp only [← hback]
  cases x with
  | mk s bits => cases s <;> rfl

end Sys2Proof.Machine
end

