-- ==== Sys2Proof/Laws/Converter.lean ====
section
/-! SUPPORT. The converter keeps the integer in both directions (43_base_converter.md R211 to R217). -/

namespace Sys2Proof.Machine

/-! ## Digits to bits -/

theorem length_digitBits (k d : Nat) : (digitBits k d).length = k := by
  induction k generalizing d with
  | zero => rfl
  | succ k ih => simp [digitBits, ih]

theorem digitBits_digits (k d : Nat) : ∀ b ∈ digitBits k d, b < 2 := by
  induction k generalizing d with
  | zero => simp [digitBits]
  | succ k ih =>
    intro b hb
    rcases List.mem_cons.1 hb with rfl | h
    · omega
    · exact ih _ b h

theorem mag_digitBits (k d : Nat) (h : d < 2 ^ k) : mag 2 (digitBits k d) = d := by
  induction k generalizing d with
  | zero => simp at h; simp [digitBits, h]
  | succ k ih =>
    rw [pow_succ] at h
    simp only [digitBits, mag_cons, ih (d / 2) (by omega)]
    omega

/-- DigitsToBits gives k bits a digit and keeps the number (R211). -/
theorem digitsToBits_spec (k : Nat) (D : List Nat) (h : ∀ d ∈ D, d < 2 ^ k) :
    (digitsToBits k D).length = k * D.length ∧ (∀ b ∈ digitsToBits k D, b < 2) ∧
      mag 2 (digitsToBits k D) = mag (2 ^ k) D := by
  induction D with
  | nil => simp [digitsToBits]
  | cons d ds ih =>
    obtain ⟨h1, h2, h3⟩ := ih fun e he => h e (by simp [he])
    unfold digitsToBits at h1 h2 h3 ⊢
    rw [List.flatMap_cons]
    refine ⟨by simp [length_digitBits, h1]; ring, ?_, ?_⟩
    · intro b hb
      rcases List.mem_append.1 hb with g | g
      · exact digitBits_digits k d b g
      · exact h2 b g
    · rw [mag_append, length_digitBits, mag_digitBits k d (h d (by simp)), h3, mag_cons]

/-- The halving loop gives the bits of the number when the fuel covers its length (R213). -/
theorem halvings_eq : ∀ fuel m, m < 2 ^ (fuel + 1) → halvings fuel (digitsOf 10 m) = digitsOf 2 m
  | 0, m, h => by
    have : m = 0 ∨ m = 1 := by simp at h; omega
    rcases this with rfl | rfl <;> decide
  | fuel + 1, m, h => by
    have h2 : DigitsOk 10 [2] := ⟨by simp, by simp⟩
    have t2 : Trimmed [2] := .inl rfl
    have hc : magCmp (digitsOf 10 m) [2] = compare m 2 := by
      rw [magCmp_eq (by omega) (digitsOf_ok (by omega) m) (digitsOf_trimmed (by omega) m) h2 t2,
        mag_digitsOf (by omega)]; rfl
    rcases Nat.lt_or_ge m 2 with hlt | hge
    · unfold halvings
      rw [hc, compare_lt_iff_lt.2 hlt]
      have : m = 0 ∨ m = 1 := by omega
      rcases this with rfl | rfl <;> rfl
    · have hd : magDivMod 10 (digitsOf 10 m) [2] = (digitsOf 10 (m / 2), digitsOf 10 (m % 2)) := by
        rw [magDivMod_eq (by omega) (digitsOf_ok (by omega) m) h2 t2 (by decide), mag_digitsOf (by omega)]; rfl
      have ih := halvings_eq fuel (m / 2) (by rw [pow_succ] at h; omega)
      have hh : (digitsOf 10 (m % 2)).headD 0 = m % 2 := by
        rcases Nat.mod_two_eq_zero_or_one m with h | h <;> rw [h] <;> decide
      have hm : digitsOf 2 m = m % 2 :: digitsOf 2 (m / 2) := by
        rw [digitsOf_pos (by omega) (by omega), digitsOf_pos (by omega) (by omega), Nat.digits_def' (by omega) (by omega)]
      unfold halvings
      rw [hc, hd]
      rcases lt_or_eq_of_le hge with g | g
      · rw [compare_gt_iff_gt.2 g]; simp only; rw [hh, ih, hm]
      · rw [compare_eq_iff_eq.2 g.symm]; simp only; rw [hh, ih, hm]

/-- DecToBits gives the trimmed bits of the number, at every length (R213, R218). -/
theorem decToBits_eq {D : List Nat} (h : DigitsOk 10 D) (ht : Trimmed D) : decToBits D = digitsOf 2 (mag 10 D) := by
  have hlt : mag 10 D < 2 ^ (4 * D.length + 1) := by
    calc mag 10 D < 10 ^ D.length := mag_lt D h.2
      _ ≤ 16 ^ D.length := Nat.pow_le_pow_left (by omega) _
      _ = 2 ^ (4 * D.length) := by rw [pow_mul]; norm_num
      _ ≤ 2 ^ (4 * D.length + 1) := Nat.pow_le_pow_right (by omega) (by omega)
  unfold decToBits
  conv_lhs => rw [eq_digitsOf (by omega) h ht]
  have hl : (digitsOf 10 (mag 10 D)).length = D.length := by rw [← eq_digitsOf (by omega) h ht]
  rw [hl]
  exact halvings_eq _ _ hlt

/-- How many magnitude bits CVT.S2B gives an SM value: 3 or 4 a digit, or as many as the number needs (R212). -/
theorem smBits_spec {x : Sm} (h : x.WF) :
    DigitsOk 2 (smBits x) ∧ mag 2 (smBits x) = x.val.natAbs ∧
      (smBits x).length = (match x.base with
        | .eight => 3 * x.digits.length
        | .sixteen => 4 * x.digits.length
        | .ten => (digitsOf 2 x.val.natAbs).length) := by
  have hl := List.length_pos_iff.2 h.1.1
  rw [Sm.natAbs_val]
  cases x with
  | mk b neg D =>
    cases b
    · obtain ⟨h1, h2, h3⟩ := digitsToBits_spec 3 D h.1.2
      exact ⟨⟨by rw [← List.length_pos_iff]; simp only [smBits] at h1 ⊢; simp only at hl; omega, h2⟩, h3, h1⟩
    · have e : smBits ⟨.ten, neg, D⟩ = digitsOf 2 (mag 10 D) := decToBits_eq h.1 h.2
      rw [e]
      exact ⟨digitsOf_ok (by omega) _, mag_digitsOf (by omega) _, rfl⟩
    · obtain ⟨h1, h2, h3⟩ := digitsToBits_spec 4 D h.1.2
      exact ⟨⟨by rw [← List.length_pos_iff]; simp only [smBits] at h1 ⊢; simp only at hl; omega, h2⟩, h3, h1⟩

/-- The transform of a magnitude with a zero sign bit on top denotes the negated magnitude, in as many bits
(R212). -/
theorem unword_tct_append_zero {M : List Nat} (h : DigitsOk 2 M) :
    (unword (tct (M ++ [0]))).WF ∧ (unword (tct (M ++ [0]))).val = -(mag 2 M : Int) ∧
      (unword (tct (M ++ [0]))).bits.length = M.length := by
  have hd : ∀ d ∈ M ++ [0], d < 2 := by
    intro d hd
    rcases List.mem_append.1 hd with g | g
    · exact h.2 d g
    · rw [List.mem_singleton.1 g]; omega
  have hlen : (tct (M ++ [0])).length = M.length + 1 := by simp [length_tct]
  have hl : (unword (tct (M ++ [0]))).bits.length = M.length := by rw [length_unword, hlen]; rfl
  have ht := mag_tct _ hd
  have hm : mag 2 (M ++ [0]) = mag 2 M := by simp [mag_append]
  rw [hm] at ht
  have hlt : (mag 2 M : Int) < 2 ^ M.length := by exact_mod_cast mag_lt M h.2
  have hpos : (0 : Int) < 2 ^ M.length := by positivity
  have h0 : (0 : Int) ≤ mag 2 M := Int.natCast_nonneg _
  refine ⟨⟨?_, unword_digits (tct_digits _ hd)⟩, ?_, hl⟩
  · rw [← List.length_pos_iff, hl]; exact List.length_pos_iff.2 h.1
  · refine val_unword_of_congr (k := if mag 2 M = 0 then 0 else 1) hlen (tct_digits _ hd) ?_ (by linarith) (by linarith)
    by_cases hz : mag 2 M = 0
    · simp [hz] at ht ⊢; exact ht
    · simp only [hz, if_false, List.length_append, List.length_singleton] at ht ⊢
      have : ((mag 2 (tct (M ++ [0])) : Int) + mag 2 M) = 2 ^ (M.length + 1) := by exact_mod_cast ht
      linarith

/-- CVT.S2B's function keeps the integer (R212). -/
theorem toBinary_sm {x : Sm} (h : x.WF) :
    (toBinary (.sm x)).WF ∧ (toBinary (.sm x)).val = x.val ∧ (toBinary (.sm x)).bits.length = (smBits x).length := by
  obtain ⟨h1, h2, -⟩ := smBits_spec h
  have hv : x.val = if x.neg then -(x.val.natAbs : Int) else x.val.natAbs := by
    rw [Sm.natAbs_val]; rfl
  cases hn : x.neg
  · have e : toBinary (.sm x) = { sign := false, bits := smBits x } := by simp [toBinary, hn]
    rw [e]
    refine ⟨h1, ?_, rfl⟩
    rw [hn] at hv
    simp only [Bool.false_eq_true, if_false] at hv
    simp only [Bin.val, h2, Bool.false_eq_true, if_false, Int.sub_zero]
    exact hv.symm
  · have e : toBinary (.sm x) = unword (tct (smBits x ++ [0])) := by simp [toBinary, hn]
    rw [e]
    obtain ⟨g1, g2, g3⟩ := unword_tct_append_zero h1
    rw [hn] at hv
    simp only [if_true] at hv
    exact ⟨g1, by rw [g2, h2, ← hv], g3⟩

/-! ## Bits to digits -/

theorem chunkDigits_spec (k : Nat) : ∀ (L : Nat) (M : List Nat), M.length = k * L → (∀ b ∈ M, b < 2) →
    (chunkDigits k L M).length = L ∧ (∀ d ∈ chunkDigits k L M, d < 2 ^ k) ∧ mag (2 ^ k) (chunkDigits k L M) = mag 2 M
  | 0, M, hl, _ => by
    have : M = [] := List.length_eq_zero_iff.1 (by simpa using hl)
    simp [chunkDigits, this]
  | L + 1, M, hl, hM => by
    have hk : k ≤ M.length := by rw [hl, Nat.mul_succ]; omega
    obtain ⟨h1, h2, h3⟩ := chunkDigits_spec k L (M.drop k) (by rw [List.length_drop, hl, Nat.mul_succ]; omega)
      fun b hb => hM b (List.mem_of_mem_drop hb)
    have ht : (M.take k).length = k := by simp [hk]
    refine ⟨by simp [chunkDigits, h1], ?_, ?_⟩
    · intro d hd
      rcases List.mem_cons.1 hd with rfl | g
      · have := mag_lt (M.take k) fun b hb => hM b (List.mem_of_mem_take hb)
        rwa [ht] at this
      · exact h2 d g
    · rw [chunkDigits, mag_cons, h3]
      conv_rhs => rw [← List.take_append_drop k M]
      rw [mag_append, ht]

/-- BitsToDigits is the digit list of the number (R214). -/
theorem bitsToDigits_eq {k : Nat} (hk : 0 < k) {M : List Nat} (h : DigitsOk 2 M) :
    bitsToDigits k M = digitsOf (2 ^ k) (mag 2 M) := by
  have hl := List.length_pos_iff.2 h.1
  have hB : 1 < 2 ^ k := Nat.one_lt_two_pow (by omega)
  have hle : M.length ≤ k * ((M.length + (k - 1)) / k) := by
    have := Nat.div_add_mod (M.length + (k - 1)) k
    have := Nat.mod_lt (M.length + (k - 1)) hk
    omega
  obtain ⟨h1, h2, h3⟩ := chunkDigits_spec k ((M.length + (k - 1)) / k) (pad M (k * ((M.length + (k - 1)) / k)))
    (length_pad _ _ hle) (digits_pad (by omega) h.2 _)
  have hL : 0 < (M.length + (k - 1)) / k := Nat.div_pos (by omega) hk
  rw [bitsToDigits, trim_eq hB ⟨by rw [← List.length_pos_iff, h1]; exact hL, h2⟩, h3, mag_pad]

theorem weightedSum_eq : ∀ (M : List Nat) (a w : Nat), (∀ b ∈ M, b < 2) →
    weightedSum (digitsOf 10 a) (digitsOf 10 w) M = digitsOf 10 (a + w * mag 2 M)
  | [], a, w, _ => by simp [weightedSum]
  | b :: bs, a, w, h => by
    have hb := h b (by simp)
    have hadd : ∀ m n, magAdd 10 (digitsOf 10 m) (digitsOf 10 n) = digitsOf 10 (m + n) := by
      intro m n
      rw [magAdd_eq (by omega) (digitsOf_ok (by omega) m) (digitsOf_trimmed (by omega) m) (digitsOf_ok (by omega) n)
        (digitsOf_trimmed (by omega) n), mag_digitsOf (by omega), mag_digitsOf (by omega)]
    have hif : (if b = 1 then magAdd 10 (digitsOf 10 a) (digitsOf 10 w) else digitsOf 10 a) = digitsOf 10 (a + w * b) := by
      split
      · rename_i h1; rw [hadd, h1, Nat.mul_one]
      · have : b = 0 := by omega
        rw [this, Nat.mul_zero, Nat.add_zero]
    rw [weightedSum, hif, hadd, weightedSum_eq bs _ _ fun c hc => h c (by simp [hc]), mag_cons]
    congr 1
    ring

/-- BitsToDec is the digit list of the number, at every length (R215, R218). -/
theorem bitsToDec_eq {M : List Nat} (h : ∀ b ∈ M, b < 2) : bitsToDec M = digitsOf 10 (mag 2 M) := by
  have := weightedSum_eq M 0 1 h
  rw [Nat.zero_add, Nat.one_mul] at this
  exact this

theorem bitsToBase_eq (b : SmBase) {M : List Nat} (h : DigitsOk 2 M) : bitsToBase b M = digitsOf b.toNat (mag 2 M) := by
  cases b
  · exact bitsToDigits_eq (by omega) h
  · exact bitsToDec_eq h.2
  · exact bitsToDigits_eq (by omega) h

/-- CVT.B2S's function to base 8, 10 or 16: the digits of the absolute value under the sign (R216). -/
theorem toBase_sm {x : Bin} (h : x.WF) (b : SmBase) :
    toBase (.sm b) x = .sm { base := b, neg := decide (x.val < 0), digits := digitsOf b.toNat x.val.natAbs } := by
  rw [toBase, bitsToBase_eq b (binMag_ok h), mag_binMag h]
  congr 2
  rw [Bool.eq_iff_iff, decide_eq_true_eq, val_neg_iff h.2]

end Sys2Proof.Machine
end

