-- ==== Sys2Proof/Laws/State.lean ====
section
/-! SUPPORT. One lemma per field per update of State, so that no later proof unfolds a record update. -/

namespace Sys2Proof.Machine

variable (s : State)

/-! ## setReg -/

@[simp] theorem State.setReg_regs (i : VReg) (c : Content) : (s.setReg i c).regs = s.regs.set i c := rfl
@[simp] theorem State.setReg_base (i : VReg) (c : Content) : (s.setReg i c).base = s.base := rfl
@[simp] theorem State.setReg_flags (i : VReg) (c : Content) : (s.setReg i c).flags = s.flags := rfl
@[simp] theorem State.setReg_ecode (i : VReg) (c : Content) : (s.setReg i c).ecode = s.ecode := rfl
@[simp] theorem State.setReg_ecmd (i : VReg) (c : Content) : (s.setReg i c).ecmd = s.ecmd := rfl
@[simp] theorem State.setReg_params (i : VReg) (c : Content) : (s.setReg i c).params = s.params := rfl
@[simp] theorem State.setReg_pending (i : VReg) (c : Content) : (s.setReg i c).pending = s.pending := rfl
@[simp] theorem State.setReg_responses (i : VReg) (c : Content) : (s.setReg i c).responses = s.responses := rfl

/-! ## setBase -/

@[simp] theorem State.setBase_regs (b : Word32) : (s.setBase b).regs = s.regs := rfl
@[simp] theorem State.setBase_base (b : Word32) : (s.setBase b).base = b := rfl
@[simp] theorem State.setBase_flags (b : Word32) : (s.setBase b).flags = s.flags := rfl
@[simp] theorem State.setBase_ecode (b : Word32) : (s.setBase b).ecode = s.ecode := rfl
@[simp] theorem State.setBase_ecmd (b : Word32) : (s.setBase b).ecmd = s.ecmd := rfl
@[simp] theorem State.setBase_params (b : Word32) : (s.setBase b).params = s.params := rfl
@[simp] theorem State.setBase_pending (b : Word32) : (s.setBase b).pending = s.pending := rfl
@[simp] theorem State.setBase_responses (b : Word32) : (s.setBase b).responses = s.responses := rfl
@[simp] theorem State.setBase_reg (b : Word32) (j : VReg) : (s.setBase b).reg j = s.reg j := rfl

/-! ## setFlags -/

@[simp] theorem State.setFlags_regs (f : Word32) : (s.setFlags f).regs = s.regs := rfl
@[simp] theorem State.setFlags_base (f : Word32) : (s.setFlags f).base = s.base := rfl
@[simp] theorem State.setFlags_flags (f : Word32) : (s.setFlags f).flags = f := rfl
@[simp] theorem State.setFlags_ecode (f : Word32) : (s.setFlags f).ecode = s.ecode := rfl
@[simp] theorem State.setFlags_ecmd (f : Word32) : (s.setFlags f).ecmd = s.ecmd := rfl
@[simp] theorem State.setFlags_params (f : Word32) : (s.setFlags f).params = s.params := rfl
@[simp] theorem State.setFlags_pending (f : Word32) : (s.setFlags f).pending = s.pending := rfl
@[simp] theorem State.setFlags_responses (f : Word32) : (s.setFlags f).responses = s.responses := rfl
@[simp] theorem State.setFlags_reg (f : Word32) (j : VReg) : (s.setFlags f).reg j = s.reg j := rfl

/-! ## setError -/

@[simp] theorem State.setError_regs (code cmd : Word32) : (s.setError code cmd).regs = s.regs := rfl
@[simp] theorem State.setError_base (code cmd : Word32) : (s.setError code cmd).base = s.base := rfl
@[simp] theorem State.setError_flags (code cmd : Word32) : (s.setError code cmd).flags = s.flags := rfl
@[simp] theorem State.setError_ecode (code cmd : Word32) : (s.setError code cmd).ecode = code := rfl
@[simp] theorem State.setError_ecmd (code cmd : Word32) : (s.setError code cmd).ecmd = cmd := rfl
@[simp] theorem State.setError_params (code cmd : Word32) : (s.setError code cmd).params = s.params := rfl
@[simp] theorem State.setError_pending (code cmd : Word32) : (s.setError code cmd).pending = s.pending := rfl
@[simp] theorem State.setError_responses (code cmd : Word32) : (s.setError code cmd).responses = s.responses := rfl
@[simp] theorem State.setError_reg (code cmd : Word32) (j : VReg) : (s.setError code cmd).reg j = s.reg j := rfl

/-! ## setPending -/

@[simp] theorem State.setPending_regs (todo : List HostAction) : (s.setPending todo).regs = s.regs := rfl
@[simp] theorem State.setPending_base (todo : List HostAction) : (s.setPending todo).base = s.base := rfl
@[simp] theorem State.setPending_flags (todo : List HostAction) : (s.setPending todo).flags = s.flags := rfl
@[simp] theorem State.setPending_ecode (todo : List HostAction) : (s.setPending todo).ecode = s.ecode := rfl
@[simp] theorem State.setPending_ecmd (todo : List HostAction) : (s.setPending todo).ecmd = s.ecmd := rfl
@[simp] theorem State.setPending_params (todo : List HostAction) : (s.setPending todo).params = s.params := rfl
@[simp] theorem State.setPending_pending (todo : List HostAction) : (s.setPending todo).pending = todo := rfl
@[simp] theorem State.setPending_responses (todo : List HostAction) : (s.setPending todo).responses = s.responses := rfl
@[simp] theorem State.setPending_reg (todo : List HostAction) (j : VReg) : (s.setPending todo).reg j = s.reg j := rfl

/-! ## respond -/

@[simp] theorem State.respond_regs (k : BitVec 4) (data : List Byte) : (s.respond k data).regs = s.regs := rfl
@[simp] theorem State.respond_base (k : BitVec 4) (data : List Byte) : (s.respond k data).base = s.base := rfl
@[simp] theorem State.respond_flags (k : BitVec 4) (data : List Byte) : (s.respond k data).flags = s.flags := rfl
@[simp] theorem State.respond_ecode (k : BitVec 4) (data : List Byte) : (s.respond k data).ecode = s.ecode := rfl
@[simp] theorem State.respond_ecmd (k : BitVec 4) (data : List Byte) : (s.respond k data).ecmd = s.ecmd := rfl
@[simp] theorem State.respond_params (k : BitVec 4) (data : List Byte) : (s.respond k data).params = s.params := rfl
@[simp] theorem State.respond_pending (k : BitVec 4) (data : List Byte) : (s.respond k data).pending = s.pending := rfl
@[simp] theorem State.respond_responses (k : BitVec 4) (data : List Byte) : (s.respond k data).responses = s.responses ++ [{ code := k, data := data }] := rfl
@[simp] theorem State.respond_reg (k : BitVec 4) (data : List Byte) (j : VReg) : (s.respond k data).reg j = s.reg j := rfl

/-! ## clearError -/

@[simp] theorem State.clearError_regs : (s.clearError).regs = s.regs := rfl
@[simp] theorem State.clearError_base : (s.clearError).base = s.base := rfl
@[simp] theorem State.clearError_flags : (s.clearError).flags = s.flags := rfl
@[simp] theorem State.clearError_ecode : (s.clearError).ecode = 0 := rfl
@[simp] theorem State.clearError_ecmd : (s.clearError).ecmd = 0 := rfl
@[simp] theorem State.clearError_params : (s.clearError).params = s.params := rfl
@[simp] theorem State.clearError_pending : (s.clearError).pending = s.pending := rfl
@[simp] theorem State.clearError_responses : (s.clearError).responses = s.responses := rfl
@[simp] theorem State.clearError_reg (j : VReg) : (s.clearError).reg j = s.reg j := rfl

/-! ## applyReset -/

@[simp] theorem State.applyReset_regs : (s.applyReset).regs = Vector.replicate 16 .empty := rfl
@[simp] theorem State.applyReset_base : (s.applyReset).base = 0 := rfl
@[simp] theorem State.applyReset_flags : (s.applyReset).flags = 0 := rfl
@[simp] theorem State.applyReset_ecode : (s.applyReset).ecode = 0 := rfl
@[simp] theorem State.applyReset_ecmd : (s.applyReset).ecmd = 0 := rfl
@[simp] theorem State.applyReset_params : (s.applyReset).params = s.params := rfl
@[simp] theorem State.applyReset_pending : (s.applyReset).pending = s.pending := rfl
@[simp] theorem State.applyReset_responses : (s.applyReset).responses = s.responses := rfl

/-! ## Registers -/

/-- Reading the register just written gives what was written. -/
@[simp] theorem State.setReg_reg_self (i : VReg) (c : Content) : (s.setReg i c).reg i = c := by
  simp [State.reg, State.setReg]

/-- A write leaves every other register alone. -/
theorem State.setReg_reg_other (i j : VReg) (c : Content) (h : j ≠ i) : (s.setReg i c).reg j = s.reg j := by
  have : i.val ≠ j.val := fun e => h (Fin.ext e.symm)
  simp [State.reg, State.setReg, this]

/-- Reset leaves every register EMPTY. -/
@[simp] theorem State.applyReset_reg (i : VReg) : s.applyReset.reg i = .empty := by
  simp [State.reg]

/-! ## recordError and raise -/

@[simp] theorem State.recordError_regs (w : Word32) (e : ErrorCode) : (s.recordError w e).regs = s.regs := by
  unfold State.recordError; split <;> rfl

@[simp] theorem State.recordError_reg (w : Word32) (e : ErrorCode) (i : VReg) : (s.recordError w e).reg i = s.reg i := by
  simp [State.reg]

@[simp] theorem State.recordError_base (w : Word32) (e : ErrorCode) : (s.recordError w e).base = s.base := by
  unfold State.recordError; split <;> rfl

@[simp] theorem State.recordError_flags (w : Word32) (e : ErrorCode) : (s.recordError w e).flags = s.flags := by
  unfold State.recordError; split <;> rfl

@[simp] theorem State.recordError_params (w : Word32) (e : ErrorCode) : (s.recordError w e).params = s.params := by
  unfold State.recordError; split <;> rfl

@[simp] theorem State.recordError_pending (w : Word32) (e : ErrorCode) : (s.recordError w e).pending = s.pending := by
  unfold State.recordError; split <;> rfl

@[simp] theorem State.recordError_responses (w : Word32) (e : ErrorCode) :
    (s.recordError w e).responses = s.responses := by
  unfold State.recordError; split <;> rfl

@[simp] theorem State.raise_regs (w : Word32) (e : ErrorCode) : (s.raise w e).regs = s.regs := by simp [State.raise]

@[simp] theorem State.raise_reg (w : Word32) (e : ErrorCode) (i : VReg) : (s.raise w e).reg i = s.reg i := by
  simp [State.raise]

@[simp] theorem State.raise_base (w : Word32) (e : ErrorCode) : (s.raise w e).base = s.base := by simp [State.raise]

@[simp] theorem State.raise_flags (w : Word32) (e : ErrorCode) : (s.raise w e).flags = s.flags := by simp [State.raise]

@[simp] theorem State.raise_params (w : Word32) (e : ErrorCode) : (s.raise w e).params = s.params := by
  simp [State.raise]

@[simp] theorem State.raise_pending (w : Word32) (e : ErrorCode) : (s.raise w e).pending = s.pending := by
  simp [State.raise]

@[simp] theorem State.raise_responses (w : Word32) (e : ErrorCode) :
    (s.raise w e).responses = s.responses ++ [{ code := e.number, data := [] }] := by simp [State.raise]

/-- With no error recorded, a raise records its own code and word. -/
theorem State.raise_records (w : Word32) (e : ErrorCode) (h : s.ecode = 0) :
    (s.raise w e).ecode = e.number.setWidth 32 ∧ (s.raise w e).ecmd = w := by
  simp [State.raise, State.recordError, h]

/-- With an error recorded, a raise leaves the record alone. -/
theorem State.raise_sticky (w : Word32) (e : ErrorCode) (h : s.ecode ≠ 0) :
    (s.raise w e).ecode = s.ecode ∧ (s.raise w e).ecmd = s.ecmd := by
  rw [State.raise, State.recordError, if_neg h]
  exact ⟨rfl, rfl⟩

/-- No error has code 0, so an error is told from success by its response. -/
theorem ErrorCode.number_ne_zero (e : ErrorCode) : e.number ≠ 0 := by cases e <;> decide

/-- Distinct errors have distinct codes. -/
theorem ErrorCode.number_injective : Function.Injective ErrorCode.number := by
  intro a b h; cases a <;> cases b <;> first | rfl | exact absurd h (by decide)

end Sys2Proof.Machine
end

