-- ==== Sys2Proof/Laws/Ops.lean ====
section
/-! SUPPORT. What the shared operations can do: reading operands, the write with its capacity check, and the end of a
command (30_encoding.md R84; 41_sign_magnitude.md R136; 42_twos_complement.md R175). -/

namespace Sys2Proof.Machine

variable {s t : State} {ra rb rd : VReg}

/-! ## The end of a command -/

/-- A command always answers a next state: it raised, or it did its work and answered success. -/
theorem finish_cases {w : Word32} {e : Effect} (h : finish w s e = .next t) :
    (∃ d, e = .ok d ∧ t = d.state.respond 0 d.data) ∨ (∃ code, e = .error code ∧ t = s.raise w code) := by
  cases e with
  | ok d => exact .inl ⟨d, rfl, by simpa [finish] using h.symm⟩
  | error code => exact .inr ⟨code, rfl, by simpa [finish] using h.symm⟩

theorem finish_ok (w : Word32) (s : State) (d : Done) : finish w s (.ok d) = .next (d.state.respond 0 d.data) := rfl

theorem finish_error (w : Word32) (s : State) (code : ErrorCode) : finish w s (.error code) = .next (s.raise w code) := rfl

theorem finish_doneState (w : Word32) (s u : State) : finish w s (doneState u) = .next (u.respond 0 []) := rfl

theorem finish_doneData (w : Word32) (s u : State) (data : List Byte) :
    finish w s (doneData u data) = .next (u.respond 0 data) := rfl

/-- The write of a value that fits. -/
theorem writeValue_admits {v : Value} (h : admits s.params v.size = true) :
    writeValue rd v s = doneState (s.setReg rd (.held v)) := by simp [writeValue, h]

/-- The write of a value that does not fit (70_reset_and_hazards.md R297). -/
theorem writeValue_not_admits {v : Value} (h : admits s.params v.size = false) :
    writeValue rd v s = .error .capacityExceeded := by simp [writeValue, h]

/-- Without a bound everything fits. -/
theorem admits_of_unbounded {p : Params} (h : p.lmax = none) (n : Nat) : admits p n = true := by simp [admits, h]

/-! ## Operands -/

theorem src_held {v : Value} (h : s.reg ra = .held v) : src s ra = .ok v := by simp [src, h]

theorem src_empty (h : s.reg ra = .empty) : src s ra = .error .unknownRegister := by simp [src, h]

/-- What a source read gives is what the register holds. -/
theorem src_ok {v : Value} (h : src s ra = .ok v) : s.reg ra = .held v := by
  cases hr : s.reg ra <;> simp_all [src]

theorem smOne_held {a : Sm} (h : s.reg ra = .held (.sm a)) : smOne s ra = .ok a := by simp [smOne, src_held h]

theorem smOne_mismatch {x : Bin} (h : s.reg ra = .held (.bin x)) : smOne s ra = .error .operandMismatch := by
  simp [smOne, src_held h]

theorem smOne_empty (h : s.reg ra = .empty) : smOne s ra = .error .unknownRegister := by simp [smOne, src_empty h]

theorem smOne_ok {a : Sm} (h : smOne s ra = .ok a) : s.reg ra = .held (.sm a) := by
  unfold smOne at h
  split at h <;> simp_all [src_ok]

theorem binOne_held {x : Bin} (h : s.reg ra = .held (.bin x)) : binOne s ra = .ok x := by simp [binOne, src_held h]

theorem binOne_mismatch {a : Sm} (h : s.reg ra = .held (.sm a)) : binOne s ra = .error .operandMismatch := by
  simp [binOne, src_held h]

theorem binOne_empty (h : s.reg ra = .empty) : binOne s ra = .error .unknownRegister := by simp [binOne, src_empty h]

theorem binOne_ok {x : Bin} (h : binOne s ra = .ok x) : s.reg ra = .held (.bin x) := by
  unfold binOne at h
  split at h <;> simp_all [src_ok]

theorem smPair_held {a b : Sm} (ha : s.reg ra = .held (.sm a)) (hb : s.reg rb = .held (.sm b)) (hB : a.base = b.base) :
    smPair s ra rb = .ok (a, b) := by simp [smPair, src_held ha, src_held hb, hB]

theorem smPair_ok {a b : Sm} (h : smPair s ra rb = .ok (a, b)) :
    s.reg ra = .held (.sm a) ∧ s.reg rb = .held (.sm b) ∧ a.base = b.base := by
  unfold smPair at h
  split at h
  · cases h
  · cases h
  · rename_i x y hx hy
    split at h
    · rename_i hB
      cases h
      exact ⟨src_ok hx, src_ok hy, hB⟩
    · cases h
  · cases h

/-- An EMPTY source comes before every other check (60_exceptions.md R269). -/
theorem smPair_empty (h : s.reg ra = .empty ∨ s.reg rb = .empty) : smPair s ra rb = .error .unknownRegister := by
  rcases h with h | h
  · simp [smPair, src_empty h]
  · cases ha : s.reg ra with
    | empty => simp [smPair, src_empty ha]
    | held v => cases v <;> simp [smPair, src_held ha, src_empty h]

theorem smPair_mismatch {v w : Value} (ha : s.reg ra = .held v) (hb : s.reg rb = .held w)
    (h : ∀ a b, v = .sm a → w = .sm b → a.base ≠ b.base) : smPair s ra rb = .error .operandMismatch := by
  cases v with
  | bin x => cases w <;> simp [smPair, src_held ha, src_held hb]
  | sm a =>
    cases w with
    | bin y => simp [smPair, src_held ha, src_held hb]
    | sm b => simp [smPair, src_held ha, src_held hb, h a b rfl rfl]

theorem binPair_held {a b : Bin} (ha : s.reg ra = .held (.bin a)) (hb : s.reg rb = .held (.bin b)) :
    binPair s ra rb = .ok (a, b) := by simp [binPair, src_held ha, src_held hb]

theorem binPair_ok {a b : Bin} (h : binPair s ra rb = .ok (a, b)) :
    s.reg ra = .held (.bin a) ∧ s.reg rb = .held (.bin b) := by
  unfold binPair at h
  split at h
  · cases h
  · cases h
  · rename_i x y hx hy
    cases h
    exact ⟨src_ok hx, src_ok hy⟩
  · cases h

theorem binPair_empty (h : s.reg ra = .empty ∨ s.reg rb = .empty) : binPair s ra rb = .error .unknownRegister := by
  rcases h with h | h
  · simp [binPair, src_empty h]
  · cases ha : s.reg ra with
    | empty => simp [binPair, src_empty ha]
    | held v => cases v <;> simp [binPair, src_held ha, src_empty h]

theorem binPair_mismatch {v w : Value} (ha : s.reg ra = .held v) (hb : s.reg rb = .held w)
    (h : (∃ a, v = .sm a) ∨ ∃ b, w = .sm b) : binPair s ra rb = .error .operandMismatch := by
  rcases h with ⟨a, rfl⟩ | ⟨b, rfl⟩
  · cases w <;> simp [binPair, src_held ha, src_held hb]
  · cases v <;> simp [binPair, src_held ha, src_held hb]

/-! ## Bases -/

/-- The legal base numbers (00_scope.md R3). -/
theorem resolveBase_ok {n : Nat} {b : NumBase} (h : resolveBase n = .ok b) : n = 2 ∨ n = 8 ∨ n = 10 ∨ n = 16 := by
  unfold resolveBase at h
  split at h
  · exact .inl ‹_›
  · split at h
    · exact .inr (.inl ‹_›)
    · split at h
      · exact .inr (.inr (.inl ‹_›))
      · split at h
        · exact .inr (.inr (.inr ‹_›))
        · cases h

theorem resolveBase_error {n : Nat} (h : n ≠ 2 ∧ n ≠ 8 ∧ n ≠ 10 ∧ n ≠ 16) : resolveBase n = .error .unsupportedBase := by
  simp [resolveBase, h]

end Sys2Proof.Machine
end

