-- ==== Sys2Proof/Laws/Decode.lean ====
section
/-! SUPPORT. Words, rows and fields: what the encoder lays out the decoder cuts back (30_encoding.md R71 to R79). -/

namespace Sys2Proof

/-! ## Fields of the two layouts -/

theorem extract_opcodeR (a : BitVec 8) (b c d : BitVec 4) (z : BitVec 12) :
    (a ++ b ++ c ++ d ++ z).extractLsb' 24 8 = a := by
  ext i hi
  simp only [BitVec.getElem_extractLsb', BitVec.getLsbD_append]
  rw [if_neg (by omega), if_neg (by omega), if_neg (by omega), if_neg (by omega), ← BitVec.getLsbD_eq_getElem]
  congr 1; omega

theorem extract_rdR (a : BitVec 8) (b c d : BitVec 4) (z : BitVec 12) :
    (a ++ b ++ c ++ d ++ z).extractLsb' 20 4 = b := by
  ext i hi
  simp only [BitVec.getElem_extractLsb', BitVec.getLsbD_append]
  rw [if_neg (by omega), if_neg (by omega), if_neg (by omega), if_pos (by omega), ← BitVec.getLsbD_eq_getElem]
  congr 1; omega

theorem extract_raR (a : BitVec 8) (b c d : BitVec 4) (z : BitVec 12) :
    (a ++ b ++ c ++ d ++ z).extractLsb' 16 4 = c := by
  ext i hi
  simp only [BitVec.getElem_extractLsb', BitVec.getLsbD_append]
  rw [if_neg (by omega), if_neg (by omega), if_pos (by omega), ← BitVec.getLsbD_eq_getElem]
  congr 1; omega

theorem extract_rbR (a : BitVec 8) (b c d : BitVec 4) (z : BitVec 12) :
    (a ++ b ++ c ++ d ++ z).extractLsb' 12 4 = d := by
  ext i hi
  simp only [BitVec.getElem_extractLsb', BitVec.getLsbD_append]
  rw [if_neg (by omega), if_pos (by omega), ← BitVec.getLsbD_eq_getElem]
  congr 1; omega

theorem extract_opcodeI (a : BitVec 8) (b c : BitVec 4) (d : BitVec 16) :
    (a ++ b ++ c ++ d).extractLsb' 24 8 = a := by
  ext i hi
  simp only [BitVec.getElem_extractLsb', BitVec.getLsbD_append]
  rw [if_neg (by omega), if_neg (by omega), if_neg (by omega), ← BitVec.getLsbD_eq_getElem]
  congr 1; omega

theorem extract_rdI (a : BitVec 8) (b c : BitVec 4) (d : BitVec 16) : (a ++ b ++ c ++ d).extractLsb' 20 4 = b := by
  ext i hi
  simp only [BitVec.getElem_extractLsb', BitVec.getLsbD_append]
  rw [if_neg (by omega), if_neg (by omega), if_pos (by omega), ← BitVec.getLsbD_eq_getElem]
  congr 1; omega

theorem extract_raI (a : BitVec 8) (b c : BitVec 4) (d : BitVec 16) : (a ++ b ++ c ++ d).extractLsb' 16 4 = c := by
  ext i hi
  simp only [BitVec.getElem_extractLsb', BitVec.getLsbD_append]
  rw [if_neg (by omega), if_pos (by omega), ← BitVec.getLsbD_eq_getElem]
  congr 1; omega

theorem extract_immI (a : BitVec 8) (b c : BitVec 4) (d : BitVec 16) : (a ++ b ++ c ++ d).extractLsb' 0 16 = d := by
  ext i hi
  simp only [BitVec.getElem_extractLsb', BitVec.getLsbD_append]
  rw [if_pos (by omega), ← BitVec.getLsbD_eq_getElem]
  congr 1; omega

theorem and_layoutR (a a' : BitVec 8) (b c d b' c' d' : BitVec 4) (z z' : BitVec 12) :
    (a ++ b ++ c ++ d ++ z) &&& (a' ++ b' ++ c' ++ d' ++ z') =
      (a &&& a') ++ (b &&& b') ++ (c &&& c') ++ (d &&& d') ++ (z &&& z') := by
  simp only [BitVec.and_append]

theorem and_layoutI (a a' : BitVec 8) (b c b' c' : BitVec 4) (z z' : BitVec 16) :
    (a ++ b ++ c ++ z) &&& (a' ++ b' ++ c' ++ z') = (a &&& a') ++ (b &&& b') ++ (c &&& c') ++ (z &&& z') := by
  simp only [BitVec.and_append]

section
variable (op : BitVec 8) (rd ra rb : VReg) (n : BitVec 16)

@[simp] theorem opcodeField_formatR : opcodeField (formatR op rd ra rb) = op := extract_opcodeR ..

@[simp] theorem rdField_formatR : rdField (formatR op rd ra rb) = rd := congrArg BitVec.toFin (extract_rdR ..)

@[simp] theorem raField_formatR : raField (formatR op rd ra rb) = ra := congrArg BitVec.toFin (extract_raR ..)

@[simp] theorem rbField_formatR : rbField (formatR op rd ra rb) = rb := congrArg BitVec.toFin (extract_rbR ..)

@[simp] theorem opcodeField_formatI : opcodeField (formatI op rd ra n) = op := extract_opcodeI ..

@[simp] theorem rdField_formatI : rdField (formatI op rd ra n) = rd := congrArg BitVec.toFin (extract_rdI ..)

@[simp] theorem raField_formatI : raField (formatI op rd ra n) = ra := congrArg BitVec.toFin (extract_raI ..)

@[simp] theorem imm16Field_formatI : imm16Field (formatI op rd ra n) = n := extract_immI ..

/-! ## Masks -/

/-- A format R word under a mask laid out in the same fields. -/
theorem formatR_and (mo : BitVec 8) (md ma mb : BitVec 4) (mz : BitVec 12) :
    formatR op rd ra rb &&& (mo ++ md ++ ma ++ mb ++ mz) =
      ((op &&& mo) ++ (BitVec.ofFin (w := 4) rd &&& md) ++ (BitVec.ofFin (w := 4) ra &&& ma) ++
        (BitVec.ofFin (w := 4) rb &&& mb) ++ (0#12 &&& mz)) := and_layoutR ..

/-- A format I word under a mask laid out in the same fields. -/
theorem formatI_and (mo : BitVec 8) (md ma : BitVec 4) (mi : BitVec 16) :
    formatI op rd ra n &&& (mo ++ md ++ ma ++ mi) =
      ((op &&& mo) ++ (BitVec.ofFin (w := 4) rd &&& md) ++ (BitVec.ofFin (w := 4) ra &&& ma) ++ (n &&& mi)) := and_layoutI ..

end

/-! ## Rows -/

/-- Every mask holds the whole opcode (R75). -/
theorem opTable_masks_opcode : ∀ r ∈ opTable, opcodeField r.mask = 0xFF := by decide

/-- No two rows share an opcode (R75). -/
theorem opTable_opcodes_distinct : opTable.Pairwise fun r r' => opcodeField r.value ≠ opcodeField r'.value := by decide

/-- A word a row matches has the row's opcode. -/
theorem opcode_of_hits {r : OpRow} (hr : r ∈ opTable) {w : Word32} (h : r.hits w = true) :
    opcodeField w = opcodeField r.value := by
  have hw : w &&& r.mask = r.value := by simpa [OpRow.hits] using h
  have hm := opTable_masks_opcode r hr
  rw [← hw]
  unfold opcodeField at hm ⊢
  ext i hi
  have hbit := congrArg (fun v : BitVec 8 => v.getLsbD i) hm
  have h255 : (0xFF#8).getLsbD i = true := by
    have : i < 8 := hi
    interval_cases i <;> decide
  simp only [BitVec.getLsbD_extractLsb', hi, decide_true, Bool.true_and] at hbit
  simp only [BitVec.getElem_extractLsb', BitVec.getLsbD_and, hbit]
  simp [h255]

/-- A matching row is the row the decoder finds: at most one row matches a word (R75). -/
theorem findRow_of_hits {r : OpRow} (hr : r ∈ opTable) {w : Word32} (h : r.hits w = true) : findRow w = some r := by
  have hex : (opTable.find? fun r => r.hits w).isSome := List.find?_isSome.2 ⟨r, hr, h⟩
  obtain ⟨r', hr'⟩ := Option.isSome_iff_exists.1 hex
  have hmem := List.mem_of_find?_eq_some hr'
  have hhit := List.find?_some hr'
  have hop : opcodeField r.value = opcodeField r'.value := by
    rw [← opcode_of_hits hr h, ← opcode_of_hits hmem hhit]
  have : r = r' := by
    by_contra hne
    have hsym : Std.Symm fun r r' : OpRow => opcodeField r.value ≠ opcodeField r'.value := ⟨fun _ _ h => h.symm⟩
    exact opTable_opcodes_distinct.forall hr hmem hne hop
  rw [this]; exact hr'

/-! ## Byte order -/

theorem leNat_leBytes : ∀ k n, leNat (leBytes k n) = n % 256 ^ k
  | 0, n => by simp [leBytes, leNat, Nat.mod_one]
  | k + 1, n => by
    rw [leBytes, leNat, leNat_leBytes k, pow_succ, Nat.mul_comm (256 ^ k), Nat.mod_mul]
    simp

@[simp] theorem length_leBytes (k n : Nat) : (leBytes k n).length = k := by
  induction k generalizing n with
  | zero => rfl
  | succ k ih => simp [leBytes, ih]

theorem leBytes_leNat : ∀ bs : List Byte, leBytes bs.length (leNat bs) = bs
  | [] => rfl
  | b :: bs => by
    have hb : b.toNat < 256 := b.isLt
    rw [List.length_cons, leBytes, leNat]
    have h1 : (b.toNat + 256 * leNat bs) / 256 = leNat bs := by omega
    rw [h1, leBytes_leNat bs]
    congr 1
    apply BitVec.eq_of_toNat_eq
    simp; omega

end Sys2Proof
end

