-- ==== Sys2Proof/Laws/PerInstr.lean ====
section
/-! SUPPORT. The per-instruction family RoundTrip: decoding what the encoder writes gives the instruction back
(30_encoding.md R71 to R80). -/

namespace Sys2Proof.Laws.RoundTrip

/-- Decoding the word and payload of a well-formed instruction gives that instruction. -/
def Statement (i : Instr) : Prop := i.wellFormed = true → decode (encodeWord i) (encodePayload i) = some i

/-- A word that a row matches decodes by that row. -/
theorem decode_of_row {r : OpRow} (hr : r ∈ opTable) {w : Word32} (h : w &&& r.mask = r.value) (p : List Byte) :
    decode w p = buildInstr r.op w p := by
  rw [decode, findRow_of_hits hr (by simp [OpRow.hits, h])]

theorem and_ones8 (x : BitVec 8) : x &&& 0xFF#8 = x := BitVec.and_allOnes

theorem and_ones16 (x : BitVec 16) : x &&& 0xFFFF#16 = x := BitVec.and_allOnes

/-- Format R with all three registers used. -/
theorem maskR3 (o : BitVec 8) (rd ra rb : VReg) : formatR o rd ra rb &&& 0xFF000FFF = formatR o 0 0 0 := by
  show _ &&& ((0xFF#8) ++ 0#4 ++ 0#4 ++ 0#4 ++ 0xFFF#12) = _
  rw [formatR_and, and_ones8 o]
  simp [formatR]

/-- Format R with `rb` unused. -/
theorem maskRda (o : BitVec 8) (rd ra : VReg) : formatR o rd ra 0 &&& 0xFF00FFFF = formatR o 0 0 0 := by
  show _ &&& ((0xFF#8) ++ 0#4 ++ 0#4 ++ 0xF#4 ++ 0xFFF#12) = _
  rw [formatR_and, and_ones8 o]
  simp [formatR]

/-- Format R with `rd` unused. -/
theorem maskRab (o : BitVec 8) (ra rb : VReg) : formatR o 0 ra rb &&& 0xFFF00FFF = formatR o 0 0 0 := by
  show _ &&& ((0xFF#8) ++ 0xF#4 ++ 0#4 ++ 0#4 ++ 0xFFF#12) = _
  rw [formatR_and, and_ones8 o]
  simp [formatR]

/-- Format I with every field used. -/
theorem maskI3 (o : BitVec 8) (rd ra : VReg) (n : BitVec 16) : formatI o rd ra n &&& 0xFF000000 = formatI o 0 0 0 := by
  show _ &&& ((0xFF#8) ++ 0#4 ++ 0#4 ++ 0#16) = _
  rw [formatI_and, and_ones8 o]
  simp [formatI]

/-- Format I with `rd` unused. -/
theorem maskIai (o : BitVec 8) (ra : VReg) (n : BitVec 16) : formatI o 0 ra n &&& 0xFFF00000 = formatI o 0 0 0 := by
  show _ &&& ((0xFF#8) ++ 0xF#4 ++ 0#4 ++ 0#16) = _
  rw [formatI_and, and_ones8 o]
  simp [formatI]

/-- Format I with `rd` and `imm16` unused. -/
theorem maskIa (o : BitVec 8) (ra : VReg) : formatI o 0 ra 0 &&& 0xFFF0FFFF = formatI o 0 0 0 := by
  show _ &&& ((0xFF#8) ++ 0xF#4 ++ 0#4 ++ 0xFFFF#16) = _
  rw [formatI_and, and_ones8 o]
  simp [formatI]

/-- Format I with the registers unused. -/
theorem maskIi (o : BitVec 8) (n : BitVec 16) : formatI o 0 0 n &&& 0xFFFF0000 = formatI o 0 0 0 := by
  show _ &&& ((0xFF#8) ++ 0xF#4 ++ 0xF#4 ++ 0#16) = _
  rw [formatI_and, and_ones8 o]
  simp [formatI]

/-- Format P. -/
theorem maskP (o : BitVec 8) (rd : VReg) (n : BitVec 16) : formatI o rd 0 n &&& 0xFF0F0000 = formatI o 0 0 0 := by
  show _ &&& ((0xFF#8) ++ 0#4 ++ 0xF#4 ++ 0#16) = _
  rw [formatI_and, and_ones8 o]
  simp [formatI]

/-- Format P with the length fixed. -/
theorem maskPn (o : BitVec 8) (rd : VReg) (n : BitVec 16) : formatI o rd 0 n &&& 0xFF0FFFFF = formatI o 0 0 n := by
  show _ &&& ((0xFF#8) ++ 0#4 ++ 0xF#4 ++ 0xFFFF#16) = _
  rw [formatI_and, and_ones8 o, and_ones16 n]
  simp [formatI]

theorem csrOfNumber_number (c : Csr) : csrOfNumber c.number = some c := by cases c <;> decide

theorem setbase (n) : Statement (.setbase n) := fun _ => by
  rw [show encodeWord (.setbase n) = formatI 0x01 0 0 n from rfl,
    decode_of_row (r := { op := .setbase, value := 0x01000000, mask := 0xFFFF0000 }) (by decide) (maskIi _ n)]
  simp [buildInstr, withoutPayload, encodePayload]

theorem ldl (rd text) : Statement (.ldl rd text) := fun h => by
  have hl : text.length < 65536 := by simpa [Instr.wellFormed] using h
  rw [show encodeWord (.ldl rd text) = formatI 0x02 rd 0 (BitVec.ofNat 16 text.length) from rfl,
    decode_of_row (r := { op := .ldl, value := 0x02000000, mask := 0xFF0F0000 }) (by decide) (maskP _ rd _)]
  simp [buildInstr, encodePayload, Nat.mod_eq_of_lt hl]

theorem ldi (rd n) : Statement (.ldi rd n) := fun _ => by
  rw [show encodeWord (.ldi rd n) = formatI 0x03 rd 0 8 from rfl,
    decode_of_row (r := { op := .ldi, value := 0x03000008, mask := 0xFF0FFFFF }) (by decide) (maskPn _ rd _)]
  have h : BitVec.ofNat 64 (leNat (leBytes 8 n.toNat)) = n := by
    rw [leNat_leBytes]
    apply BitVec.eq_of_toNat_eq
    simp [Nat.mod_eq_of_lt n.isLt]
  simp [buildInstr, encodePayload, h]

theorem disp (ra) : Statement (.disp ra) := fun _ => by
  rw [show encodeWord (.disp ra) = formatI 0x04 0 ra 0 from rfl,
    decode_of_row (r := { op := .disp, value := 0x04000000, mask := 0xFFF0FFFF }) (by decide) (maskIa _ ra)]
  simp [buildInstr, withoutPayload, encodePayload]

theorem digit (ra i) : Statement (.digit ra i) := fun _ => by
  rw [show encodeWord (.digit ra i) = formatI 0x05 0 ra i from rfl,
    decode_of_row (r := { op := .digit, value := 0x05000000, mask := 0xFFF00000 }) (by decide) (maskIai _ ra i)]
  simp [buildInstr, withoutPayload, encodePayload]

theorem csrr (c) : Statement (.csrr c) := fun _ => by
  rw [show encodeWord (.csrr c) = formatI 0x06 0 0 c.number from rfl,
    decode_of_row (r := { op := .csrr, value := 0x06000000, mask := 0xFFFF0000 }) (by decide) (maskIi _ _)]
  simp [buildInstr, withoutPayload, encodePayload, csrOfNumber_number]

theorem clrerr : Statement .clrerr := fun _ => by decide

theorem smNeg (rd ra) : Statement (.smNeg rd ra) := fun _ => by
  rw [show encodeWord (.smNeg rd ra) = formatR 0x10 rd ra 0 from rfl,
    decode_of_row (r := { op := .smNeg, value := 0x10000000, mask := 0xFF00FFFF }) (by decide) (maskRda _ rd ra)]
  simp [buildInstr, withoutPayload, encodePayload]

theorem smCmp (ra rb) : Statement (.smCmp ra rb) := fun _ => by
  rw [show encodeWord (.smCmp ra rb) = formatR 0x11 0 ra rb from rfl,
    decode_of_row (r := { op := .smCmp, value := 0x11000000, mask := 0xFFF00FFF }) (by decide) (maskRab _ ra rb)]
  simp [buildInstr, withoutPayload, encodePayload]

theorem smAdd (rd ra rb) : Statement (.smAdd rd ra rb) := fun _ => by
  rw [show encodeWord (.smAdd rd ra rb) = formatR 0x12 rd ra rb from rfl,
    decode_of_row (r := { op := .smAdd, value := 0x12000000, mask := 0xFF000FFF }) (by decide) (maskR3 _ rd ra rb)]
  simp [buildInstr, withoutPayload, encodePayload]

theorem smSub (rd ra rb) : Statement (.smSub rd ra rb) := fun _ => by
  rw [show encodeWord (.smSub rd ra rb) = formatR 0x13 rd ra rb from rfl,
    decode_of_row (r := { op := .smSub, value := 0x13000000, mask := 0xFF000FFF }) (by decide) (maskR3 _ rd ra rb)]
  simp [buildInstr, withoutPayload, encodePayload]

theorem smMul (rd ra rb) : Statement (.smMul rd ra rb) := fun _ => by
  rw [show encodeWord (.smMul rd ra rb) = formatR 0x14 rd ra rb from rfl,
    decode_of_row (r := { op := .smMul, value := 0x14000000, mask := 0xFF000FFF }) (by decide) (maskR3 _ rd ra rb)]
  simp [buildInstr, withoutPayload, encodePayload]

theorem smDiv (rd ra rb) : Statement (.smDiv rd ra rb) := fun _ => by
  rw [show encodeWord (.smDiv rd ra rb) = formatR 0x15 rd ra rb from rfl,
    decode_of_row (r := { op := .smDiv, value := 0x15000000, mask := 0xFF000FFF }) (by decide) (maskR3 _ rd ra rb)]
  simp [buildInstr, withoutPayload, encodePayload]

theorem smMod (rd ra rb) : Statement (.smMod rd ra rb) := fun _ => by
  rw [show encodeWord (.smMod rd ra rb) = formatR 0x16 rd ra rb from rfl,
    decode_of_row (r := { op := .smMod, value := 0x16000000, mask := 0xFF000FFF }) (by decide) (maskR3 _ rd ra rb)]
  simp [buildInstr, withoutPayload, encodePayload]

theorem smPow (rd ra rb) : Statement (.smPow rd ra rb) := fun _ => by
  rw [show encodeWord (.smPow rd ra rb) = formatR 0x17 rd ra rb from rfl,
    decode_of_row (r := { op := .smPow, value := 0x17000000, mask := 0xFF000FFF }) (by decide) (maskR3 _ rd ra rb)]
  simp [buildInstr, withoutPayload, encodePayload]

theorem binNeg (rd ra) : Statement (.binNeg rd ra) := fun _ => by
  rw [show encodeWord (.binNeg rd ra) = formatR 0x20 rd ra 0 from rfl,
    decode_of_row (r := { op := .binNeg, value := 0x20000000, mask := 0xFF00FFFF }) (by decide) (maskRda _ rd ra)]
  simp [buildInstr, withoutPayload, encodePayload]

theorem binCmp (ra rb) : Statement (.binCmp ra rb) := fun _ => by
  rw [show encodeWord (.binCmp ra rb) = formatR 0x21 0 ra rb from rfl,
    decode_of_row (r := { op := .binCmp, value := 0x21000000, mask := 0xFFF00FFF }) (by decide) (maskRab _ ra rb)]
  simp [buildInstr, withoutPayload, encodePayload]

theorem binAdd (rd ra rb) : Statement (.binAdd rd ra rb) := fun _ => by
  rw [show encodeWord (.binAdd rd ra rb) = formatR 0x22 rd ra rb from rfl,
    decode_of_row (r := { op := .binAdd, value := 0x22000000, mask := 0xFF000FFF }) (by decide) (maskR3 _ rd ra rb)]
  simp [buildInstr, withoutPayload, encodePayload]

theorem binSub (rd ra rb) : Statement (.binSub rd ra rb) := fun _ => by
  rw [show encodeWord (.binSub rd ra rb) = formatR 0x23 rd ra rb from rfl,
    decode_of_row (r := { op := .binSub, value := 0x23000000, mask := 0xFF000FFF }) (by decide) (maskR3 _ rd ra rb)]
  simp [buildInstr, withoutPayload, encodePayload]

theorem binMul (rd ra rb) : Statement (.binMul rd ra rb) := fun _ => by
  rw [show encodeWord (.binMul rd ra rb) = formatR 0x24 rd ra rb from rfl,
    decode_of_row (r := { op := .binMul, value := 0x24000000, mask := 0xFF000FFF }) (by decide) (maskR3 _ rd ra rb)]
  simp [buildInstr, withoutPayload, encodePayload]

theorem binDiv (rd ra rb) : Statement (.binDiv rd ra rb) := fun _ => by
  rw [show encodeWord (.binDiv rd ra rb) = formatR 0x25 rd ra rb from rfl,
    decode_of_row (r := { op := .binDiv, value := 0x25000000, mask := 0xFF000FFF }) (by decide) (maskR3 _ rd ra rb)]
  simp [buildInstr, withoutPayload, encodePayload]

theorem binMod (rd ra rb) : Statement (.binMod rd ra rb) := fun _ => by
  rw [show encodeWord (.binMod rd ra rb) = formatR 0x26 rd ra rb from rfl,
    decode_of_row (r := { op := .binMod, value := 0x26000000, mask := 0xFF000FFF }) (by decide) (maskR3 _ rd ra rb)]
  simp [buildInstr, withoutPayload, encodePayload]

theorem binResize (rd ra m) : Statement (.binResize rd ra m) := fun h => by
  rw [show encodeWord (.binResize rd ra m) = formatI 0x28 rd ra m from rfl,
    decode_of_row (r := { op := .binResize, value := 0x28000000, mask := 0xFF000000 }) (by decide) (maskI3 _ rd ra m)]
  have hm : m ≠ 0 := by simpa [Instr.wellFormed] using h
  simpa [buildInstr, withoutPayload, encodePayload] using hm

theorem binNorm (rd ra) : Statement (.binNorm rd ra) := fun _ => by
  rw [show encodeWord (.binNorm rd ra) = formatR 0x29 rd ra 0 from rfl,
    decode_of_row (r := { op := .binNorm, value := 0x29000000, mask := 0xFF00FFFF }) (by decide) (maskRda _ rd ra)]
  simp [buildInstr, withoutPayload, encodePayload]

theorem cvtS2b (rd ra) : Statement (.cvtS2b rd ra) := fun _ => by
  rw [show encodeWord (.cvtS2b rd ra) = formatR 0x30 rd ra 0 from rfl,
    decode_of_row (r := { op := .cvtS2b, value := 0x30000000, mask := 0xFF00FFFF }) (by decide) (maskRda _ rd ra)]
  simp [buildInstr, withoutPayload, encodePayload]

theorem cvtB2s (rd ra t) : Statement (.cvtB2s rd ra t) := fun _ => by
  rw [show encodeWord (.cvtB2s rd ra t) = formatI 0x31 rd ra t from rfl,
    decode_of_row (r := { op := .cvtB2s, value := 0x31000000, mask := 0xFF000000 }) (by decide) (maskI3 _ rd ra t)]
  simp [buildInstr, withoutPayload, encodePayload]

end Sys2Proof.Laws.RoundTrip
end

