-- ==== Sys2Proof/Laws/Exec.lean ====
section
/-! SUPPORT. Everything a command and a step can do, said once: a command's effect is an error or one of five kinds of
work, and what it writes is a well-formed value (30_encoding.md R84; 10_state.md R29). -/

namespace Sys2Proof.Machine

/-! ## Values a command writes are well formed -/

theorem Value.wf_sm {x : Sm} (h : x.WF) : (Value.sm x).wf = true := decide_eq_true h

theorem Value.wf_bin {x : Bin} (h : x.WF) : (Value.bin x).wf = true := decide_eq_true h

theorem wf_of_held {s : State} (hs : s.WF) {i : VReg} {v : Value} (h : s.reg i = .held v) :
    v.wf = true ∧ admits s.params v.size = true := by
  have := hs.regs i
  simpa [h, Content.wf] using this

theorem sm_of_held {s : State} (hs : s.WF) {i : VReg} {a : Sm} (h : s.reg i = .held (.sm a)) : a.WF :=
  of_decide_eq_true (wf_of_held hs h).1

theorem bin_of_held {s : State} (hs : s.WF) {i : VReg} {x : Bin} (h : s.reg i = .held (.bin x)) : x.WF :=
  of_decide_eq_true (wf_of_held hs h).1

theorem parseLiteral_wf {b : NumBase} {c : Text} {v : Value} (h : parseLiteral b c = .ok v) : v.wf = true := by
  cases b with
  | two =>
    simp only [parseLiteral] at h
    split at h
    · cases h
    · rename_i x hx; cases h; exact Value.wf_bin (parseBin_wf hx)
  | sm b =>
    simp only [parseLiteral] at h
    split at h
    · cases h
    · rename_i x hx; cases h; exact Value.wf_sm (parseSm_wf hx).1

theorem valueOfInt_wf (b : NumBase) (x : Int) : (valueOfInt b x).wf = true := by
  cases b with
  | two => exact Value.wf_bin (canon_wf x)
  | sm b => exact Value.wf_sm (Sm.wf_of_digitsOf b _ _)

theorem toBinary_wf {v : Value} (h : v.wf = true) : (toBinary v).WF := by
  cases v with
  | sm x => exact (toBinary_sm (of_decide_eq_true h)).1
  | bin x => exact of_decide_eq_true h

theorem toBase_wf {x : Bin} (h : x.WF) (T : NumBase) : (toBase T x).wf = true := by
  cases T with
  | two => exact Value.wf_bin h
  | sm b => rw [toBase_sm h]; exact Value.wf_sm (Sm.wf_of_digitsOf b _ _)

/-! ## The work of a command -/

/-- What a command that raised nothing did: wrote its destination register, chose the base, wrote the flags, cleared
the error record, or only answered data. -/
inductive Did (i : Instr) (s : State) : Done → Prop
  | wrote (rd : VReg) (v : Value) (hd : destination i = some rd) (ha : admits s.params v.size = true)
      (hv : s.WF → v.wf = true) : Did i s { state := s.setReg rd (.held v), data := [] }
  | chose (n : BitVec 16) (hi : i = .setbase n) (hn : n = 2 ∨ n = 8 ∨ n = 10 ∨ n = 16) :
      Did i s { state := s.setBase (n.setWidth 32), data := [] }
  | compared (eq lt : Bool) (hi : ∃ ra rb, i = .smCmp ra rb ∨ i = .binCmp ra rb) :
      Did i s { state := s.setFlags (flagsWord eq lt), data := [] }
  | cleared (hi : i = .clrerr) : Did i s { state := s.clearError, data := [] }
  | answered (data : List Byte) (hi : (∃ ra, i = .disp ra) ∨ (∃ ra k, i = .digit ra k) ∨ ∃ c, i = .csrr c) :
      Did i s { state := s, data := data }

/-- An error a command finds before its capacity check: not the driver's, and not the check's own. -/
def Plain (code : ErrorCode) : Prop := code ≠ .emptyStackUnderflow ∧ code ≠ .capacityExceeded

/-- An effect whose every success is one of the five kinds, and whose errors are the unit's own, CapacityExceeded only
where LMAX is a bound. -/
def EffectOk (i : Instr) (s : State) (e : Effect) : Prop :=
  (∀ d, e = .ok d → Did i s d) ∧
  ∀ code, e = .error code → code ≠ .emptyStackUnderflow ∧ (code = .capacityExceeded → s.params.lmax ≠ none)

theorem effectOk_error {i : Instr} {s : State} {code : ErrorCode} (h : Plain code) : EffectOk i s (.error code) :=
  ⟨fun _ h => (by cases h), fun _ h' => by cases h'; exact ⟨h.1, fun h' => absurd h' h.2⟩⟩

theorem effectOk_write {i : Instr} {s : State} {rd : VReg} {v : Value} (hd : destination i = some rd)
    (hv : s.WF → v.wf = true) : EffectOk i s (writeValue rd v s) := by
  unfold writeValue
  split
  · refine ⟨fun d h => ?_, fun _ h => by cases h⟩
    cases h
    exact .wrote rd v hd ‹_› hv
  · rename_i ha
    refine ⟨fun _ h => (by cases h), fun code h => ?_⟩
    cases h
    exact ⟨by decide, fun _ hl => ha (admits_of_unbounded hl _)⟩

theorem src_error {s : State} {ra : VReg} {code : ErrorCode} (h : src s ra = .error code) : code = .unknownRegister := by
  unfold src at h; split at h <;> cases h; rfl

theorem smOne_error {s : State} {ra : VReg} {code : ErrorCode} (h : smOne s ra = .error code) :
    Plain code := by
  unfold smOne at h
  split at h
  · rename_i he; cases h; rw [src_error he]; exact ⟨by decide, by decide⟩
  · cases h
  · cases h; exact ⟨by decide, by decide⟩

theorem binOne_error {s : State} {ra : VReg} {code : ErrorCode} (h : binOne s ra = .error code) :
    Plain code := by
  unfold binOne at h
  split at h
  · rename_i he; cases h; rw [src_error he]; exact ⟨by decide, by decide⟩
  · cases h
  · cases h; exact ⟨by decide, by decide⟩

theorem smPair_error {s : State} {ra rb : VReg} {code : ErrorCode} (h : smPair s ra rb = .error code) :
    Plain code := by
  unfold smPair at h
  split at h
  · rename_i he; cases h; rw [src_error he]; exact ⟨by decide, by decide⟩
  · rename_i he; cases h; rw [src_error he]; exact ⟨by decide, by decide⟩
  · split at h <;> cases h; exact ⟨by decide, by decide⟩
  · cases h; exact ⟨by decide, by decide⟩

theorem binPair_error {s : State} {ra rb : VReg} {code : ErrorCode} (h : binPair s ra rb = .error code) :
    Plain code := by
  unfold binPair at h
  split at h
  · rename_i he; cases h; rw [src_error he]; exact ⟨by decide, by decide⟩
  · rename_i he; cases h; rw [src_error he]; exact ⟨by decide, by decide⟩
  · cases h
  · cases h; exact ⟨by decide, by decide⟩

theorem resolveBase_error_code {n : Nat} {code : ErrorCode} (h : resolveBase n = .error code) : code = .unsupportedBase := by
  unfold resolveBase at h
  split at h
  · cases h
  · split at h
    · cases h
    · split at h
      · cases h
      · split at h <;> cases h; rfl

theorem parseLiteral_error {b : NumBase} {c : Text} {code : ErrorCode} (h : parseLiteral b c = .error code) :
    code = .malformedLiteral ∨ code = .invalidDigit := by
  cases b with
  | two =>
    simp only [parseLiteral] at h
    split at h
    · rename_i e he
      cases h
      unfold parseBin at he
      split at he <;> cases he <;> simp
    · cases h
  | sm b =>
    simp only [parseLiteral] at h
    split at h
    · rename_i e he
      cases h
      unfold parseSm at he
      split at he
      · cases he; simp
      · split at he <;> cases he; simp
    · cases h

/-- A command on one SM operand. -/
theorem smUnary_effect {i : Instr} {rd ra : VReg} {s : State} {f : Sm → Sm} (hd : destination i = some rd)
    (hf : ∀ a, a.WF → (f a).WF) : ∃ e, smUnary i rd ra s f = finish (encodeWord i) s e ∧ EffectOk i s e := by
  refine ⟨_, rfl, ?_⟩
  split
  · rename_i he; exact effectOk_error (smOne_error he)
  · rename_i a ha
    exact effectOk_write hd fun hs => Value.wf_sm (hf a (sm_of_held hs (smOne_ok ha)))

/-- A command on two SM operands. -/
theorem smBinary_effect {i : Instr} {rd ra rb : VReg} {s : State} {f : Sm → Sm → Except ErrorCode Sm}
    (hd : destination i = some rd) (hf : ∀ a b r, a.WF → b.WF → a.base = b.base → f a b = .ok r → r.WF)
    (he : ∀ a b code, f a b = .error code → Plain code) :
    ∃ e, smBinary i rd ra rb s f = finish (encodeWord i) s e ∧ EffectOk i s e := by
  refine ⟨_, rfl, ?_⟩
  split
  · rename_i h; exact effectOk_error (smPair_error h)
  · rename_i a b hab
    obtain ⟨ha, hb, hB⟩ := smPair_ok hab
    split
    · rename_i code hc; exact effectOk_error (he a b code hc)
    · rename_i r hr
      exact effectOk_write hd fun hs => Value.wf_sm (hf a b r (sm_of_held hs ha) (sm_of_held hs hb) hB hr)

/-- A command on one BIN operand. -/
theorem binUnary_effect {i : Instr} {rd ra : VReg} {s : State} {f : Bin → Except ErrorCode Bin}
    (hd : destination i = some rd) (hf : ∀ x r, x.WF → f x = .ok r → r.WF)
    (he : ∀ x code, f x = .error code → Plain code) :
    ∃ e, binUnary i rd ra s f = finish (encodeWord i) s e ∧ EffectOk i s e := by
  refine ⟨_, rfl, ?_⟩
  split
  · rename_i h; exact effectOk_error (binOne_error h)
  · rename_i x hx
    split
    · rename_i code hc; exact effectOk_error (he x code hc)
    · rename_i r hr
      exact effectOk_write hd fun hs => Value.wf_bin (hf x r (bin_of_held hs (binOne_ok hx)) hr)

/-- A command on two BIN operands. -/
theorem binBinary_effect {i : Instr} {rd ra rb : VReg} {s : State} {f : Bin → Bin → Except ErrorCode Bin}
    (hd : destination i = some rd) (hf : ∀ a b r, a.WF → b.WF → f a b = .ok r → r.WF)
    (he : ∀ a b code, f a b = .error code → Plain code) :
    ∃ e, binBinary i rd ra rb s f = finish (encodeWord i) s e ∧ EffectOk i s e := by
  refine ⟨_, rfl, ?_⟩
  split
  · rename_i h; exact effectOk_error (binPair_error h)
  · rename_i a b hab
    obtain ⟨ha, hb⟩ := binPair_ok hab
    split
    · rename_i code hc; exact effectOk_error (he a b code hc)
    · rename_i r hr
      exact effectOk_write hd fun hs => Value.wf_bin (hf a b r (bin_of_held hs ha) (bin_of_held hs hb) hr)

/-- THE INVERSION LEMMA: every command is the end of an effect that is an error of the unit or one of the five kinds of
work. -/
theorem exec_effect (i : Instr) (s : State) : ∃ e, exec i s = finish (encodeWord i) s e ∧ EffectOk i s e := by
  cases i with
  | setbase n =>
    refine ⟨_, rfl, ?_⟩
    split
    · rename_i h; rw [resolveBase_error_code h]; exact effectOk_error ⟨by decide, by decide⟩
    · rename_i b h
      refine ⟨fun d hd => ?_, fun _ h => by cases h⟩
      cases hd
      refine .chose n rfl ?_
      rcases resolveBase_ok h with h | h | h | h
      · exact .inl (BitVec.eq_of_toNat_eq h)
      · exact .inr (.inl (BitVec.eq_of_toNat_eq h))
      · exact .inr (.inr (.inl (BitVec.eq_of_toNat_eq h)))
      · exact .inr (.inr (.inr (BitVec.eq_of_toNat_eq h)))
  | ldl rd text =>
    refine ⟨_, rfl, ?_⟩
    split
    · rename_i h; rw [resolveBase_error_code h]; exact effectOk_error ⟨by decide, by decide⟩
    · split
      · rename_i h; rcases parseLiteral_error h with h | h <;> rw [h] <;> exact effectOk_error ⟨by decide, by decide⟩
      · rename_i v h; exact effectOk_write rfl fun _ => parseLiteral_wf h
  | ldi rd n =>
    refine ⟨_, rfl, ?_⟩
    split
    · rename_i h; rw [resolveBase_error_code h]; exact effectOk_error ⟨by decide, by decide⟩
    · exact effectOk_write rfl fun _ => valueOfInt_wf _ _
  | disp ra =>
    refine ⟨_, rfl, ?_⟩
    split
    · rename_i h; rw [src_error h]; exact effectOk_error ⟨by decide, by decide⟩
    · exact ⟨fun d hd => by cases hd; exact .answered _ (.inl ⟨ra, rfl⟩), fun _ h => by cases h⟩
  | digit ra k =>
    refine ⟨_, rfl, ?_⟩
    split
    · rename_i h; rw [src_error h]; exact effectOk_error ⟨by decide, by decide⟩
    · split
      · exact effectOk_error ⟨by decide, by decide⟩
      · exact ⟨fun d hd => by cases hd; exact .answered _ (.inr (.inl ⟨ra, k, rfl⟩)), fun _ h => by cases h⟩
  | csrr c =>
    refine ⟨doneData s (leBytes 4 (s.csr c).toNat), rfl, fun d hd => ?_, fun _ h => (by cases h)⟩
    cases hd
    exact .answered _ (.inr (.inr ⟨c, rfl⟩))
  | clrerr =>
    refine ⟨doneState s.clearError, rfl, fun d hd => ?_, fun _ h => (by cases h)⟩
    cases hd
    exact .cleared rfl
  | smNeg rd ra => exact smUnary_effect (f := smNegate) rfl fun a ha => by rw [smNegate_eq ha]; exact Sm.wf_of_digitsOf _ _ _
  | smCmp ra rb =>
    refine ⟨_, rfl, ?_⟩
    split
    · rename_i h; exact effectOk_error (smPair_error h)
    · exact ⟨fun d h => (by cases h; exact .compared _ _ ⟨ra, rb, .inl rfl⟩), fun _ h => (by cases h)⟩
  | smAdd rd ra rb =>
    exact smBinary_effect (f := fun a b => .ok (signedAdd a b)) rfl
      (fun a b r ha hb hB h => by cases h; rw [signedAdd_eq ha hb hB]; exact Sm.wf_of_digitsOf _ _ _) fun _ _ _ h => by cases h
  | smSub rd ra rb =>
    exact smBinary_effect (f := fun a b => .ok (signedSub a b)) rfl
      (fun a b r ha hb hB h => by cases h; rw [signedSub_eq ha hb hB]; exact Sm.wf_of_digitsOf _ _ _) fun _ _ _ h => by cases h
  | smMul rd ra rb =>
    exact smBinary_effect (f := fun a b => .ok (smProduct a b)) rfl
      (fun a b r ha hb hB h => by cases h; rw [smProduct_eq ha hb hB]; exact Sm.wf_of_digitsOf _ _ _) fun _ _ _ h => by cases h
  | smDiv rd ra rb =>
    refine smBinary_effect rfl (fun a b r ha hb hB h => ?_) fun a b code h => ?_
    · by_cases h0 : b.val = 0
      · rw [smQuotient_zero hb h0] at h; cases h
      · rw [smQuotient_eq ha hb hB h0] at h; cases h; exact Sm.wf_of_digitsOf _ _ _
    · unfold smQuotient at h; split at h <;> cases h; exact ⟨by decide, by decide⟩
  | smMod rd ra rb =>
    refine smBinary_effect rfl (fun a b r ha hb hB h => ?_) fun a b code h => ?_
    · by_cases h0 : b.val = 0
      · rw [smRemainder_zero hb h0] at h; cases h
      · rw [smRemainder_eq ha hb hB h0] at h; cases h; exact Sm.wf_of_digitsOf _ _ _
    · unfold smRemainder at h; split at h <;> cases h; exact ⟨by decide, by decide⟩
  | smPow rd ra rb =>
    refine smBinary_effect rfl (fun a b r ha hb hB h => ?_) fun a b code h => ?_
    · by_cases h0 : 0 ≤ b.val
      · rw [smPower_eq ha hb h0] at h; cases h; exact Sm.wf_of_digitsOf _ _ _
      · rw [smPower_negative hb (by omega)] at h; cases h
    · unfold smPower at h; split at h <;> cases h; exact ⟨by decide, by decide⟩
  | binNeg rd ra =>
    exact binUnary_effect (f := fun x => .ok (binNegate x)) rfl (fun x r hx h => by cases h; rw [binNegate_eq hx]; exact canon_wf _) fun _ _ h => by cases h
  | binCmp ra rb =>
    refine ⟨_, rfl, ?_⟩
    split
    · rename_i h; exact effectOk_error (binPair_error h)
    · exact ⟨fun d h => (by cases h; exact .compared _ _ ⟨ra, rb, .inr rfl⟩), fun _ h => (by cases h)⟩
  | binAdd rd ra rb =>
    exact binBinary_effect (f := fun a b => .ok (binSum a b)) rfl (fun a b r ha hb h => by cases h; rw [binSum_eq ha hb]; exact canon_wf _)
      fun _ _ _ h => by cases h
  | binSub rd ra rb =>
    exact binBinary_effect (f := fun a b => .ok (binDifference a b)) rfl (fun a b r ha hb h => by cases h; rw [binDifference_eq ha hb]; exact canon_wf _)
      fun _ _ _ h => by cases h
  | binMul rd ra rb =>
    exact binBinary_effect (f := fun a b => .ok (binProduct a b)) rfl (fun a b r ha hb h => by cases h; rw [binProduct_eq ha hb]; exact canon_wf _)
      fun _ _ _ h => by cases h
  | binDiv rd ra rb =>
    refine binBinary_effect rfl (fun a b r ha hb h => ?_) fun a b code h => ?_
    · by_cases h0 : b.val = 0
      · unfold binQuotient at h; rw [if_pos ((binMag_zero_iff hb).2 h0)] at h; cases h
      · rw [binQuotient_eq ha hb h0] at h; cases h; exact canon_wf _
    · unfold binQuotient at h; split at h <;> cases h; exact ⟨by decide, by decide⟩
  | binMod rd ra rb =>
    refine binBinary_effect rfl (fun a b r ha hb h => ?_) fun a b code h => ?_
    · by_cases h0 : b.val = 0
      · unfold binRemainder at h; rw [if_pos ((binMag_zero_iff hb).2 h0)] at h; cases h
      · rw [binRemainder_eq ha hb h0] at h; cases h; exact canon_wf _
    · unfold binRemainder at h; split at h <;> cases h; exact ⟨by decide, by decide⟩
  | binResize rd ra m =>
    by_cases hm : m = 0
    · exact ⟨.error .illegalCommand, by simp [exec, execBinResize, hm, raiseIllegal, finish], effectOk_error ⟨by decide, by decide⟩⟩
    · have : exec (.binResize rd ra m) s = binUnary (.binResize rd ra m) rd ra s (binResized m) := by
        rw [exec, execBinResize, if_neg hm]
      rw [this]
      refine binUnary_effect rfl (fun x r hx h => ?_) fun x code h => ?_
      · by_cases hfit : -(2 ^ m.toNat : Int) ≤ x.val ∧ x.val < 2 ^ m.toNat
        · obtain ⟨r', h', hwf, -⟩ := binResized_fits hx hm hfit
          rw [h'] at h; cases h; exact hwf
        · rw [binResized_overflow hx hm hfit] at h; cases h
      · unfold binResized at h
        split at h
        · cases h; exact ⟨by decide, by decide⟩
        · split at h
          · cases h
          · split at h <;> cases h; exact ⟨by decide, by decide⟩
  | binNorm rd ra =>
    exact binUnary_effect (f := fun x => .ok (norm x)) rfl (fun x r hx h => by cases h; rw [norm_eq hx]; exact canon_wf _) fun _ _ h => by cases h
  | cvtS2b rd ra =>
    refine ⟨_, rfl, ?_⟩
    split
    · rename_i h; rw [src_error h]; exact effectOk_error ⟨by decide, by decide⟩
    · rename_i v h
      exact effectOk_write rfl fun hs => Value.wf_bin (toBinary_wf (wf_of_held hs (src_ok h)).1)
  | cvtB2s rd ra t =>
    refine ⟨_, rfl, ?_⟩
    split
    · rename_i h; exact effectOk_error (binOne_error h)
    · rename_i x hx
      split
      · rename_i code h
        have : code = .unsupportedBase := by
          unfold targetBase at h; split at h <;> exact resolveBase_error_code h
        rw [this]; exact effectOk_error ⟨by decide, by decide⟩
      · rename_i T _
        exact effectOk_write rfl fun hs => toBase_wf (bin_of_held hs (binOne_ok hx)) T

/-- Every command answers a next state: a raise of an error of the unit, or work of one of the five kinds with the
success response. -/
theorem exec_cases (i : Instr) (s : State) :
    (∃ d, Did i s d ∧ exec i s = .next (d.state.respond 0 d.data)) ∨
    (∃ code, code ≠ .emptyStackUnderflow ∧ exec i s = .next (s.raise (encodeWord i) code)) := by
  obtain ⟨e, he, hok, hne⟩ := exec_effect i s
  cases e with
  | ok d => exact .inl ⟨d, hok d rfl, he⟩
  | error code => exact .inr ⟨code, (hne code rfl).1, he⟩

/-- Without a bound on the lengths no command raises CapacityExceeded (70_reset_and_hazards.md R297). -/
theorem exec_capacity {i : Instr} {s : State} (h : exec i s = .next (s.raise (encodeWord i) .capacityExceeded)) :
    s.params.lmax ≠ none := by
  obtain ⟨e, he, -, hne⟩ := exec_effect i s
  have hc : e = .error .capacityExceeded := by
    rw [he] at h
    cases e with
    | ok d =>
      have := congrArg (fun o : Result => match o with
        | .next t => t.responses.getLast?
        | _ => none) h
      simp [finish] at this
      exact absurd this.1.symm (ErrorCode.number_ne_zero _)
    | error code =>
      have := congrArg (fun o : Result => match o with
        | .next t => t.responses.getLast?
        | _ => none) h
      simp [finish] at this
      rw [ErrorCode.number_injective this]
  exact (hne _ hc).2 rfl

/-! ## Well-formed states -/

section
variable {s : State}

theorem State.WF.setReg (hs : s.WF) (rd : VReg) {v : Value} (hv : v.wf = true) (ha : admits s.params v.size = true) :
    (s.setReg rd (.held v)).WF where
  regs i := by
    by_cases h : i = rd
    · subst h; simp [Content.wf, hv, ha]
    · rw [State.setReg_reg_other _ _ _ _ h]; exact hs.regs i
  base := hs.base
  flags := hs.flags
  ecode := hs.ecode
  ecmd := hs.ecmd

theorem State.WF.respond (hs : s.WF) (k : BitVec 4) (data : List Byte) : (s.respond k data).WF where
  regs := hs.regs
  base := hs.base
  flags := hs.flags
  ecode := hs.ecode
  ecmd := hs.ecmd

theorem State.WF.setPending (hs : s.WF) (todo : List HostAction) : (s.setPending todo).WF where
  regs := hs.regs
  base := hs.base
  flags := hs.flags
  ecode := hs.ecode
  ecmd := hs.ecmd

theorem State.WF.clearError (hs : s.WF) : s.clearError.WF where
  regs := hs.regs
  base := hs.base
  flags := hs.flags
  ecode := .inl rfl
  ecmd _ := rfl

theorem ErrorCode.number_setWidth_ne (e : ErrorCode) : e.number.setWidth 32 ≠ (0 : Word32) := by cases e <;> decide

theorem State.WF.raise (hs : s.WF) (w : Word32) {e : ErrorCode} (he : e ≠ .emptyStackUnderflow) : (s.raise w e).WF := by
  by_cases h : s.ecode = 0
  · obtain ⟨h1, h2⟩ := State.raise_records (s := s) w e h
    exact {
      regs := fun i => by rw [State.raise_reg, State.raise_params]; exact hs.regs i
      base := by rw [State.raise_base]; exact hs.base
      flags := by rw [State.raise_flags]; exact hs.flags
      ecode := .inr ⟨e, he, h1⟩
      ecmd := fun h0 => absurd (h1 ▸ h0) (ErrorCode.number_setWidth_ne e) }
  · obtain ⟨h1, h2⟩ := State.raise_sticky (s := s) w e h
    exact {
      regs := fun i => by rw [State.raise_reg, State.raise_params]; exact hs.regs i
      base := by rw [State.raise_base]; exact hs.base
      flags := by rw [State.raise_flags]; exact hs.flags
      ecode := by rw [h1]; exact hs.ecode
      ecmd := fun h0 => absurd (h1 ▸ h0) h }

theorem State.WF.done {i : Instr} {d : Done} (hs : s.WF) (h : Did i s d) : d.state.WF := by
  cases h with
  | wrote rd v hd ha hv => exact hs.setReg rd (hv hs) ha
  | chose n hi hn =>
    exact {
      regs := hs.regs
      base := by rcases hn with rfl | rfl | rfl | rfl <;> simp
      flags := hs.flags
      ecode := hs.ecode
      ecmd := hs.ecmd }
  | compared eq lt hi =>
    exact {
      regs := hs.regs
      base := hs.base
      flags := by show flagsWord eq lt &&& 0xFFFFFFFC = 0; revert eq lt; decide
      ecode := hs.ecode
      ecmd := hs.ecmd }
  | cleared hi => exact hs.clearError
  | answered data hi => exact hs

theorem State.WF.applyReset (s : State) : s.applyReset.WF where
  regs i := by simp [Content.wf]
  base := .inl rfl
  flags := by show (0 : Word32) &&& 0xFFFFFFFC = 0; decide
  ecode := .inl rfl
  ecmd _ := rfl

end

/-! ## One step -/

/-- What a step can do: nothing, a reset, a decoded command, or an illegal one. -/
theorem step_cases (s : State) :
    (s.pending = [] ∧ step s = .next s) ∨
    (∃ rest, s.pending = .reset :: rest ∧ step s = .next (s.setPending rest).applyReset) ∨
    (∃ w p rest i, s.pending = .command w p :: rest ∧ decode w p = some i ∧ step s = exec i (s.setPending rest)) ∨
    (∃ w p rest, s.pending = .command w p :: rest ∧ decode w p = none ∧
      step s = .next ((s.setPending rest).raise w .illegalCommand)) := by
  unfold step
  split
  · exact .inl ⟨‹_›, rfl⟩
  · exact .inr (.inl ⟨_, ‹_›, rfl⟩)
  · rename_i w p rest hp
    unfold runWord
    split
    · rename_i i hi; exact .inr (.inr (.inl ⟨w, p, rest, i, hp, hi, rfl⟩))
    · rename_i hi; exact .inr (.inr (.inr ⟨w, p, rest, hp, hi, rfl⟩))

end Sys2Proof.Machine
end

