-- ==== Sys2Proof/Laws/Computed.lean ====
section
/-! SUPPORT. What a command writes is a function of the registers and BASE alone: not of FLAGS, the error record, the
parameters or the host's list (20_memory.md R57, 60_exceptions.md R271, 70_reset_and_hazards.md R297). -/

namespace Sys2Proof.Machine

/-- A state with given registers and BASE and nothing else. -/
def probe (regs : Vector Content 16) (base : Word32) : State := { State.reset with regs := regs, base := base }

/-- The value a command would write, or its error: a function of the registers and BASE alone. -/
abbrev Computed := Vector Content 16 → Word32 → Except ErrorCode Value

/-- A computed value on its way into a register. -/
def writeComputed (rd : VReg) (s : State) (r : Except ErrorCode Value) : Effect :=
  match r with
  | .error e => .error e
  | .ok v => writeValue rd v s

theorem smUnary_computed (i : Instr) (rd ra : VReg) (f : Sm → Sm) :
    ∃ g : Computed, ∀ s, smUnary i rd ra s f = finish (encodeWord i) s (writeComputed rd s (g s.regs s.base)) := by
  refine ⟨fun regs base => match smOne (probe regs base) ra with
    | .error e => .error e
    | .ok a => .ok (.sm (f a)), fun s => ?_⟩
  unfold smUnary
  beta_reduce
  rw [show smOne (probe s.regs s.base) ra = smOne s ra from rfl]
  congr 1
  cases smOne s ra <;> rfl

theorem smBinary_computed (i : Instr) (rd ra rb : VReg) (f : Sm → Sm → Except ErrorCode Sm) :
    ∃ g : Computed, ∀ s, smBinary i rd ra rb s f = finish (encodeWord i) s (writeComputed rd s (g s.regs s.base)) := by
  refine ⟨fun regs base => match smPair (probe regs base) ra rb with
    | .error e => .error e
    | .ok (a, b) => match f a b with
      | .error e => .error e
      | .ok r => .ok (.sm r), fun s => ?_⟩
  unfold smBinary
  beta_reduce
  rw [show smPair (probe s.regs s.base) ra rb = smPair s ra rb from rfl]
  congr 1
  cases smPair s ra rb with
  | error e => rfl
  | ok p => cases p with
    | mk a b => dsimp only; cases f a b <;> rfl

theorem binUnary_computed (i : Instr) (rd ra : VReg) (f : Bin → Except ErrorCode Bin) :
    ∃ g : Computed, ∀ s, binUnary i rd ra s f = finish (encodeWord i) s (writeComputed rd s (g s.regs s.base)) := by
  refine ⟨fun regs base => match binOne (probe regs base) ra with
    | .error e => .error e
    | .ok x => match f x with
      | .error e => .error e
      | .ok r => .ok (.bin r), fun s => ?_⟩
  unfold binUnary
  beta_reduce
  rw [show binOne (probe s.regs s.base) ra = binOne s ra from rfl]
  congr 1
  cases binOne s ra with
  | error e => rfl
  | ok x => dsimp only; cases f x <;> rfl

theorem binBinary_computed (i : Instr) (rd ra rb : VReg) (f : Bin → Bin → Except ErrorCode Bin) :
    ∃ g : Computed, ∀ s, binBinary i rd ra rb s f = finish (encodeWord i) s (writeComputed rd s (g s.regs s.base)) := by
  refine ⟨fun regs base => match binPair (probe regs base) ra rb with
    | .error e => .error e
    | .ok (a, b) => match f a b with
      | .error e => .error e
      | .ok r => .ok (.bin r), fun s => ?_⟩
  unfold binBinary
  beta_reduce
  rw [show binPair (probe s.regs s.base) ra rb = binPair s ra rb from rfl]
  congr 1
  cases binPair s ra rb with
  | error e => rfl
  | ok p => cases p with
    | mk a b => dsimp only; cases f a b <;> rfl

/-- Every command with a destination computes from the registers and BASE alone, then checks the length and writes. -/
theorem exec_computed (i : Instr) (rd : VReg) (hd : destination i = some rd) :
    ∃ g : Computed, ∀ s, exec i s = finish (encodeWord i) s (writeComputed rd s (g s.regs s.base)) := by
  cases i with
  | setbase | disp | digit | csrr | clrerr | smCmp | binCmp => cases hd
  | ldl rd text =>
    cases hd
    refine ⟨fun regs base => match activeBase (probe regs base) with
      | .error e => .error e
      | .ok b => parseLiteral b text, fun s => ?_⟩
    show execLdl rd text s = _
    unfold execLdl
    beta_reduce
    rw [show activeBase (probe s.regs s.base) = activeBase s from rfl]
    congr 1
    cases activeBase s with
    | error e => rfl
    | ok b => dsimp only; cases parseLiteral b text <;> rfl
  | ldi rd n =>
    cases hd
    refine ⟨fun regs base => match activeBase (probe regs base) with
      | .error e => .error e
      | .ok b => .ok (valueOfInt b n.toInt), fun s => ?_⟩
    show execLdi rd n s = _
    unfold execLdi
    beta_reduce
    rw [show activeBase (probe s.regs s.base) = activeBase s from rfl]
    congr 1
    cases activeBase s <;> rfl
  | smNeg rd ra => cases hd; exact smUnary_computed _ rd ra _
  | smAdd rd ra rb => cases hd; exact smBinary_computed _ rd ra rb fun a b => .ok (signedAdd a b)
  | smSub rd ra rb => cases hd; exact smBinary_computed _ rd ra rb fun a b => .ok (signedSub a b)
  | smMul rd ra rb => cases hd; exact smBinary_computed _ rd ra rb fun a b => .ok (smProduct a b)
  | smDiv rd ra rb => cases hd; exact smBinary_computed _ rd ra rb smQuotient
  | smMod rd ra rb => cases hd; exact smBinary_computed _ rd ra rb smRemainder
  | smPow rd ra rb => cases hd; exact smBinary_computed _ rd ra rb smPower
  | binNeg rd ra => cases hd; exact binUnary_computed _ rd ra fun x => .ok (binNegate x)
  | binNorm rd ra => cases hd; exact binUnary_computed _ rd ra fun x => .ok (norm x)
  | binAdd rd ra rb => cases hd; exact binBinary_computed _ rd ra rb fun a b => .ok (binSum a b)
  | binSub rd ra rb => cases hd; exact binBinary_computed _ rd ra rb fun a b => .ok (binDifference a b)
  | binMul rd ra rb => cases hd; exact binBinary_computed _ rd ra rb fun a b => .ok (binProduct a b)
  | binDiv rd ra rb => cases hd; exact binBinary_computed _ rd ra rb binQuotient
  | binMod rd ra rb => cases hd; exact binBinary_computed _ rd ra rb binRemainder
  | binResize rd ra m =>
    cases hd
    by_cases hm : m = 0
    · refine ⟨fun _ _ => .error .illegalCommand, fun s => ?_⟩
      rw [exec, execBinResize, if_pos hm]; rfl
    · obtain ⟨g, hg⟩ := binUnary_computed (.binResize rd ra m) rd ra (binResized m)
      refine ⟨g, fun s => ?_⟩
      rw [exec, execBinResize, if_neg hm]; exact hg s
  | cvtS2b rd ra =>
    cases hd
    refine ⟨fun regs base => match src (probe regs base) ra with
      | .error e => .error e
      | .ok v => .ok (.bin (toBinary v)), fun s => ?_⟩
    show execCvtS2b rd ra s = _
    unfold execCvtS2b
    beta_reduce
    rw [show src (probe s.regs s.base) ra = src s ra from rfl]
    congr 1
    cases src s ra <;> rfl
  | cvtB2s rd ra t =>
    cases hd
    refine ⟨fun regs base => match binOne (probe regs base) ra with
      | .error e => .error e
      | .ok x => match targetBase (probe regs base) t with
        | .error e => .error e
        | .ok T => .ok (toBase T x), fun s => ?_⟩
    show execCvtB2s rd ra t s = _
    unfold execCvtB2s
    beta_reduce
    rw [show binOne (probe s.regs s.base) ra = binOne s ra from rfl,
      show targetBase (probe s.regs s.base) t = targetBase s t from rfl]
    congr 1
    cases binOne s ra with
    | error e => rfl
    | ok x => dsimp only; cases targetBase s t <;> rfl
end Sys2Proof.Machine
end

