-- ==== Sys2Proof/Laws/Driver.lean ====
section
/-! SUPPORT. The host driver's use of the unit: what issuing one command gives (49_host_rpn_driver.md R241). -/

namespace Sys2Proof.Machine

/-- Issuing a command that encodes and decodes is its meaning, and the answer is its response (R241). -/
theorem issue_eq {i : Instr} (hw : i.wellFormed = true) (hrt : Laws.RoundTrip.Statement i) (s t : State)
    (he : exec i s = .next t) :
    issue i s = .next (t, t.responses.getLast?.getD { code := 0, data := [] }) := by
  unfold issue
  have : step (s.setPending (.command (encodeWord i) (encodePayload i) :: s.pending)) = .next t := by
    simp only [step, State.setPending_pending, runWord, hrt hw]
    exact he
  rw [this]; rfl

/-- Issuing a command whose meaning answers success. -/
theorem issue_ok {i : Instr} (hw : i.wellFormed = true) (hrt : Laws.RoundTrip.Statement i) (s u : State) (data)
    (he : exec i s = .next (u.respond 0 data)) :
    issue i s = .next (u.respond 0 data, { code := 0, data := data }) := by
  rw [issue_eq hw hrt s _ he]; simp

/-- A value in base 2 is the same integer. -/
theorem val_toBinary {v : Value} (h : v.wf = true) : (toBinary v).val = v.val ∧ (toBinary v).WF := by
  cases v with
  | sm x => exact ⟨(toBinary_sm (of_decide_eq_true h)).2.1, (toBinary_sm (of_decide_eq_true h)).1⟩
  | bin x => exact ⟨rfl, of_decide_eq_true h⟩

/-- CVT.S2B of either variant, when nothing bounds the lengths. -/
theorem exec_cvtS2b_unbounded {s : State} (rd ra : VReg) {v : Value} (hl : s.params.lmax = none)
    (h : s.reg ra = .held v) :
    exec (.cvtS2b rd ra) s = .next ((s.setReg rd (.held (.bin (toBinary v)))).respond 0 []) := by
  show execCvtS2b rd ra s = _
  unfold execCvtS2b; rw [src_held h]; dsimp only; rw [writeValue_admits (admits_of_unbounded hl _)]; rfl

/-! ## What a line and a script leave (R230, R237) -/

/-- A next state of two steps in a row comes through a next state of the first. -/
theorem andThen_next {α β : Type} {o : Host.Outcome α Fault Refusal} {f : α → Host.Outcome β Fault Refusal} {b : β}
    (h : andThen o f = .next b) : ∃ a, o = .next a ∧ f a = .next b := by
  cases o with
  | next a => exact ⟨a, rfl, h⟩
  | fault r => cases h
  | refused r => cases h

/-- Only SETBASE changes BASE (10_state.md R31). -/
theorem exec_base {i : Instr} {s t : State} (h : exec i s = .next t) (hi : ∀ n, i ≠ .setbase n) : t.base = s.base := by
  rcases exec_cases i s with ⟨d, hd, he⟩ | ⟨code, -, he⟩ <;> rw [he] at h <;> cases h
  · cases hd with
    | chose n hn => exact absurd hn (hi n)
    | wrote | compared | cleared | answered => rfl
  · simp

/-- What the unit's step does with a command the driver issues is the command's meaning. -/
theorem issue_next {i : Instr} {s t : State} {r : Response} (hw : i.wellFormed = true)
    (hrt : Laws.RoundTrip.Statement i) (h : issue i s = .next (t, r)) : exec i s = .next t ∧ r = t.responses.getLast?.getD { code := 0, data := [] } := by
  rcases exec_cases i s with ⟨d, -, he⟩ | ⟨code, -, he⟩ <;> rw [issue_eq hw hrt s _ he] at h <;> cases h <;>
    exact ⟨he, rfl⟩

/-- Issuing well-formed commands other than SETBASE leaves BASE. -/
theorem issueAll_base : ∀ {l : List Instr} {s t : State} {code : BitVec 4}, issueAll l s = .next (t, code) →
    (∀ i ∈ l, i.wellFormed = true ∧ Laws.RoundTrip.Statement i ∧ ∀ n, i ≠ .setbase n) → t.base = s.base
  | [], _, _, _, h, _ => by cases h; rfl
  | i :: rest, s, t, code, h, hl => by
    obtain ⟨⟨u, r⟩, h1, h2⟩ := andThen_next h
    obtain ⟨hw, hrt, hi⟩ := hl i (by simp)
    have hu := exec_base (issue_next hw hrt h1).1 hi
    dsimp only at h2
    split at h2
    · exact (issueAll_base h2 fun j hj => hl j (by simp [hj])).trans hu
    · cases h2; exact hu

/-- What every part of a line after line 0 leaves: the driver's base and the unit's BASE. -/
def KeepsBase (d : Driver) (s : State) (p : Progress) : Prop := p.driver.base = d.base ∧ p.unit.base = s.base

theorem runOperator_base {key : Text} {op : RpnOp} {d : Driver} {s : State} {p : Progress}
    (h : runOperator key op d s = .next p) : KeepsBase d s p := by
  unfold runOperator at h
  split at h
  · split at h
    · split at h
      · cases h; exact ⟨rfl, rfl⟩
      · obtain ⟨⟨u, code⟩, h1, h2⟩ := andThen_next h
        have hu : u.base = s.base := issueAll_base h1 (by
          cases op <;> simp [RpnOp.command, Instr.wellFormed, Laws.RoundTrip.cvtS2b, Laws.RoundTrip.cvtB2s,
            Laws.RoundTrip.binAdd, Laws.RoundTrip.binSub, Laws.RoundTrip.binMul, Laws.RoundTrip.binDiv,
            Laws.RoundTrip.binMod])
        dsimp only at h2
        split at h2 <;> cases h2 <;> exact ⟨rfl, hu⟩
    · cases h; exact ⟨rfl, rfl⟩
  · cases h; exact ⟨rfl, rfl⟩

/-- A key that is new when all thirteen registers are paired gets none (R231). -/
theorem allocName_full {key : Text} {names : List (Text × VReg)} (hk : lookupName key names = none)
    (h : ∀ r : VReg, r.val < 13 → r ∈ names.map Prod.snd) : allocName key names = .error .capacityExceeded := by
  have hfind : nameRegs.find? (fun r => !(names.map Prod.snd).contains r) = none := by
    rw [List.find?_eq_none]
    intro r hr
    have : r.val < 13 := by revert r; decide
    simpa using h r this
  unfold allocName
  rw [hk]; dsimp only; rw [hfind]

theorem runTokens_base {key : Text} : ∀ {ts : List Text} {d : Driver} {s : State} {p : Progress},
    runTokens key ts d s = .next p → KeepsBase d s p
  | [], _, _, _, h => by cases h; exact ⟨rfl, rfl⟩
  | t :: ts, d, s, p, h => by
    unfold runTokens at h
    split at h
    · obtain ⟨q, h1, h2⟩ := andThen_next h
      obtain ⟨ha, hb⟩ := runOperator_base h1
      split at h2
      · obtain ⟨hc, hd⟩ := runTokens_base h2
        exact ⟨hc.trans ha, hd.trans hb⟩
      · cases h2; exact ⟨ha, hb⟩
    · exact runTokens_base (d := { d with stack := t :: d.stack }) h

theorem runAssign_base {key value : Text} {d : Driver} {s : State} {p : Progress}
    (h : runAssign key value d s = .next p) : KeepsBase d s p := by
  unfold runAssign at h
  dsimp only at h
  split at h
  · cases h; exact ⟨rfl, rfl⟩
  · split at h
    · cases h; exact ⟨rfl, rfl⟩
    · rename_i hlen
      obtain ⟨⟨u, code⟩, h1, h2⟩ := andThen_next h
      have hu : u.base = s.base := issueAll_base h1 (by simp [Instr.wellFormed, Laws.RoundTrip.ldl]; omega)
      cases h2
      exact ⟨by dsimp only; split <;> rfl, hu⟩

theorem runForm_base {line : Text} {d : Driver} {s : State} {p : Progress} (h : runForm line d s = .next p) :
    KeepsBase d s p := by
  unfold runForm at h
  split at h
  · cases h; exact ⟨rfl, rfl⟩
  · split at h
    · split at h
      · exact runAssign_base h
      · cases h; exact ⟨rfl, rfl⟩
    · split at h
      · unfold runQuery at h; exact runTokens_base (d := d.emptyStack) h
      · cases h; exact ⟨rfl, rfl⟩
  · cases h; exact ⟨rfl, rfl⟩

/-- A line ends with an empty stack, and what its form did to the rest stands (R237). -/
theorem asLine_next {run : Driver → State → Issued Progress} {d : Driver} {s : State} {p : Progress}
    (h : asLine run d s = .next p) :
    p.driver.stack = [] ∧ ∃ q, run d.emptyStack s = .next q ∧ p = { q with driver := q.driver.emptyStack } := by
  obtain ⟨q, h1, h2⟩ := andThen_next h
  cases h2
  exact ⟨rfl, q, h1, rfl⟩

/-- Whether the driver's base is the unit's BASE and its stack is empty: what holds before and after each line (R230). -/
def BetweenLines (d : Driver) (s : State) : Prop := d.stack = [] ∧ d.base = s.base.toNat

/-- A line after line 0 (R230, R237). -/
theorem runLine_betweenLines {line : Text} {d : Driver} {s : State} {p : Progress} (h : runLine line d s = .next p)
    (hb : d.base = s.base.toNat) : BetweenLines p.driver p.unit := by
  obtain ⟨hs, q, h1, rfl⟩ := asLine_next h
  obtain ⟨h2, h3⟩ := runForm_base h1
  exact ⟨hs, by show q.driver.base = q.unit.base.toNat; rw [h2, h3]; exact hb⟩

/-- Line 0: the driver's base becomes the number SETBASE stored, or neither changes (R230, R232). -/
theorem runBaseLine_betweenLines {line : Text} {d : Driver} {s : State} {p : Progress}
    (h : runBaseLine line d s = .next p) (hb : d.base = s.base.toNat) : BetweenLines p.driver p.unit := by
  obtain ⟨hs, q, h1, rfl⟩ := asLine_next h
  refine ⟨hs, ?_⟩
  show q.driver.base = q.unit.base.toNat
  unfold runBaseForm at h1
  split at h1
  · cases h1; exact hb
  · rename_i n _
    split at h1
    · cases h1; exact hb
    · obtain ⟨⟨u, code⟩, h2, h3⟩ := andThen_next h1
      obtain ⟨⟨t, r⟩, h4, h5⟩ := andThen_next h2
      obtain ⟨he, hr⟩ := issue_next rfl (Laws.RoundTrip.setbase _) h4
      cases h3
      dsimp only at h5 ⊢
      have hn : (BitVec.setWidth 32 (BitVec.ofNat 16 n)).toNat = n := by simp; omega
      replace he : execSetbase (BitVec.ofNat 16 n) s = .next t := he
      unfold execSetbase at he
      cases hres : resolveBase (BitVec.ofNat 16 n).toNat with
      | ok b =>
        rw [hres] at he; cases he
        have hr0 : r.code = 0 := by rw [hr]; simp
        rw [if_pos hr0] at h5; cases h5
        rw [if_pos rfl]; exact hn.symm
      | error e =>
        rw [hres] at he; cases he
        have hr0 : r.code = e.number := by rw [hr]; simp
        rw [if_neg (by rw [hr0]; exact e.number_ne_zero)] at h5; cases h5
        rw [if_neg (by rw [hr0]; exact e.number_ne_zero)]
        simpa [Driver.emptyStack] using hb

theorem runLines_betweenLines : ∀ {lines : List Text} {d : Driver} {s : State} {r : ScriptResult},
    runLines lines d s = .next r → BetweenLines d s → BetweenLines r.driver r.unit
  | [], _, _, _, h, hb => by cases h; exact hb
  | _ :: _, _, _, _, h, hb => by
    obtain ⟨p, h1, h2⟩ := andThen_next h
    obtain ⟨q, h3, h4⟩ := andThen_next h2
    cases h4
    exact runLines_betweenLines (r := q) h3 (runLine_betweenLines h1 hb.2)

/-- A script ends with an empty stack and the driver's base equal to the unit's BASE (R230, R237). -/
theorem runScript_betweenLines {lines : List Text} {params : Params} {r : ScriptResult}
    (h : runScript lines params = .next r) : BetweenLines r.driver r.unit := by
  unfold runScript at h
  split at h
  · cases h; exact ⟨rfl, rfl⟩
  · obtain ⟨p, h1, h2⟩ := andThen_next h
    obtain ⟨q, h3, h4⟩ := andThen_next h2
    cases h4
    exact runLines_betweenLines (r := q) h3 (runBaseLine_betweenLines h1 rfl)

end Sys2Proof.Machine
end

