-- ==== Sys2Proof/Laws/Engine.lean ====
section
/-! SUPPORT. The engines' shared command frames (one or two operands, compute, write) solved: what they answer when the
operands fit and the result fits, when the computation raises, and when the operands do not pair. -/

namespace Sys2Proof.Machine

/-- The pair check refuses what a two-operand SM command refuses. -/
theorem refusesSmPair_of {i : Instr} {ra rb : VReg}
    (h : ∀ s, smPair s ra rb = .error .operandMismatch → exec i s = .next (s.raise (encodeWord i) .operandMismatch)) :
    RefusesSmPair i ra rb :=
  fun s _ _ hv hw hne => h s (smPair_mismatch hv hw hne)

/-- The pair check refuses what a two-operand BIN command refuses. -/
theorem refusesBinPair_of {i : Instr} {ra rb : VReg}
    (h : ∀ s, binPair s ra rb = .error .operandMismatch → exec i s = .next (s.raise (encodeWord i) .operandMismatch)) :
    RefusesBinPair i ra rb :=
  fun s _ _ hv hw hne => h s (binPair_mismatch hv hw hne)

/-- The operand check refuses what a one-operand BIN command refuses. -/
theorem refusesSmOperand_of {i : Instr} {ra : VReg}
    (h : ∀ s, binOne s ra = .error .operandMismatch → exec i s = .next (s.raise (encodeWord i) .operandMismatch)) :
    RefusesSmOperand i ra :=
  fun s _ hv => h s (binOne_mismatch hv)

/-- A result that fits is written. -/
theorem smBinary_ok {i rd ra rb s f a b r} (ha : s.reg ra = .held (.sm a)) (hb : s.reg rb = .held (.sm b))
    (hB : a.base = b.base) (hf : f a b = .ok r) (had : admits s.params r.digits.length = true) :
    smBinary i rd ra rb s f = .next ((s.setReg rd (.held (.sm r))).respond 0 []) := by
  unfold smBinary
  rw [smPair_held ha hb hB]; dsimp only; rw [hf]; dsimp only; rw [writeValue_admits (v := .sm r) had]; rfl

/-- An error of the computation is raised. -/
theorem smBinary_error {i rd ra rb s f a b e} (ha : s.reg ra = .held (.sm a)) (hb : s.reg rb = .held (.sm b))
    (hB : a.base = b.base) (hf : f a b = .error e) :
    smBinary i rd ra rb s f = .next (s.raise (encodeWord i) e) := by
  unfold smBinary
  rw [smPair_held ha hb hB]; dsimp only; rw [hf]; rfl

/-- Operands that do not pair are refused. -/
theorem smBinary_mismatch {i rd ra rb s f} (h : smPair s ra rb = .error .operandMismatch) : smBinary i rd ra rb s f =
    .next (s.raise (encodeWord i) .operandMismatch) := by
  unfold smBinary; rw [h]; rfl

/-- A result that fits is written. -/
theorem binBinary_ok {i rd ra rb s f a b r} (ha : s.reg ra = .held (.bin a)) (hb : s.reg rb = .held (.bin b))
    (hf : f a b = .ok r) (had : admits s.params r.bits.length = true) :
    binBinary i rd ra rb s f = .next ((s.setReg rd (.held (.bin r))).respond 0 []) := by
  unfold binBinary
  rw [binPair_held ha hb]; dsimp only; rw [hf]; dsimp only; rw [writeValue_admits (v := .bin r) had]; rfl

/-- An error of the computation is raised. -/
theorem binBinary_error {i rd ra rb s f a b e} (ha : s.reg ra = .held (.bin a)) (hb : s.reg rb = .held (.bin b))
    (hf : f a b = .error e) :
    binBinary i rd ra rb s f = .next (s.raise (encodeWord i) e) := by
  unfold binBinary
  rw [binPair_held ha hb]; dsimp only; rw [hf]; rfl

/-- Operands that do not pair are refused. -/
theorem binBinary_mismatch {i rd ra rb s f} (h : binPair s ra rb = .error .operandMismatch) :
    binBinary i rd ra rb s f = .next (s.raise (encodeWord i) .operandMismatch) := by
  unfold binBinary; rw [h]; rfl

/-- A result that fits is written. -/
theorem binUnary_ok {i rd ra s f a r} (ha : s.reg ra = .held (.bin a)) (hf : f a = .ok r)
    (had : admits s.params r.bits.length = true) :
    binUnary i rd ra s f = .next ((s.setReg rd (.held (.bin r))).respond 0 []) := by
  unfold binUnary
  rw [binOne_held ha]; dsimp only; rw [hf]; dsimp only; rw [writeValue_admits (v := .bin r) had]; rfl

/-- An error of the computation is raised. -/
theorem binUnary_error {i rd ra s f a e} (ha : s.reg ra = .held (.bin a)) (hf : f a = .error e) :
    binUnary i rd ra s f = .next (s.raise (encodeWord i) e) := by
  unfold binUnary
  rw [binOne_held ha]; dsimp only; rw [hf]; rfl

/-- An operand of the other variant is refused. -/
theorem binUnary_mismatch {i rd ra s f} (h : binOne s ra = .error .operandMismatch) : binUnary i rd ra s f =
    .next (s.raise (encodeWord i) .operandMismatch) := by
  unfold binUnary; rw [h]; rfl

/-- The bits of the FLAGS word (10_state.md R33). -/
theorem flagsWord_bits (eq lt : Bool) : (flagsWord eq lt).getLsbD 0 = eq ∧ (flagsWord eq lt).getLsbD 1 =
    lt ∧ ∀ n, 2 ≤ n → (flagsWord eq lt).getLsbD n = false := by
  refine ⟨by cases eq <;> cases lt <;> rfl, by cases eq <;> cases lt <;> rfl, fun n hn => ?_⟩
  unfold flagsWord
  simp only [BitVec.getLsbD_append]
  rw [if_neg (by omega), if_neg (by omega)]; simp

/-- An SM value is its sign over its magnitude. -/
theorem Sm.val_eq_natAbs (x : Sm) : x.val = if x.neg then -(x.val.natAbs : Int) else x.val.natAbs := by
  unfold Sm.val; cases x.neg <;> simp

/-- Truncated division on signs and magnitudes. -/
theorem tdiv_of_signs (x y : Int) (p q : Bool) (m n : Nat) (hx : x = if p then -(m:Int) else m)
    (hy : y = if q then -(n:Int) else n) : Int.tdiv x y =
    if xor p q then -((m / n : Nat):Int) else ((m / n : Nat):Int) := by
  subst hx hy
  cases p <;> cases q <;> simp [Int.neg_tdiv, Int.tdiv_neg]

end Sys2Proof.Machine
end

