-- ==== Sys2Proof/Laws/Layout.lean ====
section
/-! SUPPORT. Words from their fields: what a matching row fixes of a word, so that the word is the encoder's
(30_encoding.md R71, R75, R76). -/

namespace Sys2Proof

open Laws.RoundTrip

/-- A bit of a word is a bit of the field it lies in. -/
theorem getLsbD_piece (w : Word32) (i k n j : Nat) (h1 : j < n) (h2 : k + j = i) :
    w.getLsbD i = (w.extractLsb' k n).getLsbD j := by
  simp [h1, h2]

/-- A word is its format R fields, joined. -/
theorem word_eq_fieldsR (w : Word32) :
    w = w.extractLsb' 24 8 ++ w.extractLsb' 20 4 ++ w.extractLsb' 16 4 ++ w.extractLsb' 12 4 ++
      w.extractLsb' 0 12 := by
  apply BitVec.eq_of_getLsbD_eq
  intro i hi
  simp only [BitVec.getLsbD_append]
  split
  · exact getLsbD_piece w i 0 12 i (by omega) (by omega)
  · split
    · exact getLsbD_piece w i 12 4 _ (by omega) (by omega)
    · split
      · exact getLsbD_piece w i 16 4 _ (by omega) (by omega)
      · split
        · exact getLsbD_piece w i 20 4 _ (by omega) (by omega)
        · exact getLsbD_piece w i 24 8 _ (by omega) (by omega)

/-- A word is its format I fields, joined. -/
theorem word_eq_fieldsI (w : Word32) :
    w = w.extractLsb' 24 8 ++ w.extractLsb' 20 4 ++ w.extractLsb' 16 4 ++ w.extractLsb' 0 16 := by
  apply BitVec.eq_of_getLsbD_eq
  intro i hi
  simp only [BitVec.getLsbD_append]
  split
  · exact getLsbD_piece w i 0 16 i (by omega) (by omega)
  · split
    · exact getLsbD_piece w i 16 4 _ (by omega) (by omega)
    · split
      · exact getLsbD_piece w i 20 4 _ (by omega) (by omega)
      · exact getLsbD_piece w i 24 8 _ (by omega) (by omega)

/-- The format R layout determines its fields. -/
theorem layoutR_injective {a a' : BitVec 8} {b b' c c' d d' : BitVec 4} {z z' : BitVec 12}
    (h : a ++ b ++ c ++ d ++ z = a' ++ b' ++ c' ++ d' ++ z') : a = a' ∧ b = b' ∧ c = c' ∧ d = d' ∧ z = z' := by
  have e1 := congrArg (fun w => BitVec.extractLsb' 24 8 w) h
  have e2 := congrArg (fun w => BitVec.extractLsb' 20 4 w) h
  have e3 := congrArg (fun w => BitVec.extractLsb' 16 4 w) h
  have e4 := congrArg (fun w => BitVec.extractLsb' 12 4 w) h
  simp only [extract_opcodeR, extract_rdR, extract_raR, extract_rbR] at e1 e2 e3 e4
  subst e1 e2 e3 e4
  have e5 := congrArg (fun w => BitVec.extractLsb' 0 12 w) h
  have low (x : BitVec 20) (y : BitVec 12) : (x ++ y).extractLsb' 0 12 = y := by
    ext i hi
    simp only [BitVec.getElem_extractLsb', BitVec.getLsbD_append]
    rw [if_pos (by omega), ← BitVec.getLsbD_eq_getElem]; congr 1; omega
  simp only [low] at e5
  exact ⟨rfl, rfl, rfl, rfl, e5⟩

/-- The format I layout determines its fields. -/
theorem layoutI_injective {a a' : BitVec 8} {b b' c c' : BitVec 4} {z z' : BitVec 16}
    (h : a ++ b ++ c ++ z = a' ++ b' ++ c' ++ z') : a = a' ∧ b = b' ∧ c = c' ∧ z = z' := by
  have e1 := congrArg (fun w => BitVec.extractLsb' 24 8 w) h
  have e2 := congrArg (fun w => BitVec.extractLsb' 20 4 w) h
  have e3 := congrArg (fun w => BitVec.extractLsb' 16 4 w) h
  have e4 := congrArg (fun w => BitVec.extractLsb' 0 16 w) h
  simp only [extract_opcodeI, extract_rdI, extract_raI, extract_immI] at e1 e2 e3 e4
  exact ⟨e1, e2, e3, e4⟩

/-- A word is its named format R fields, joined. -/
theorem word_eq_formatR (w : Word32) :
    w = opcodeField w ++ BitVec.ofFin (w := 4) (rdField w) ++ BitVec.ofFin (w := 4) (raField w) ++
      BitVec.ofFin (w := 4) (rbField w) ++ w.extractLsb' 0 12 := word_eq_fieldsR w
/-- A word is its named format I fields, joined. -/
theorem word_eq_formatI (w : Word32) :
    w = opcodeField w ++ BitVec.ofFin (w := 4) (rdField w) ++ BitVec.ofFin (w := 4) (raField w) ++
      imm16Field w := word_eq_fieldsI w

/-- A word that a three-register row matches. -/
theorem eq_formatR_of_mask3 {o : BitVec 8} {w : Word32} (h : w &&& 0xFF000FFF = formatR o 0 0 0) :
    w = formatR o (rdField w) (raField w) (rbField w) := by
  have h' : w &&& ((0xFF#8) ++ 0#4 ++ 0#4 ++ 0#4 ++ 0xFFF#12) = o ++ 0#4 ++ 0#4 ++ 0#4 ++ 0#12 := h
  rw [word_eq_formatR w, and_layoutR] at h'
  obtain ⟨e1, -, -, -, e5⟩ := layoutR_injective h'
  rw [and_ones8] at e1
  have e5' : w.extractLsb' 0 12 = 0#12 := by rw [← e5]; exact BitVec.and_allOnes.symm
  conv_lhs => rw [word_eq_formatR w, e1, e5']
  rfl

/-- A masked-out register field is 0. -/
theorem vreg_eq_zero {v : VReg} (h : BitVec.ofFin (w := 4) v &&& 0xF#4 = 0#4) : v = 0 := by
  have : BitVec.ofFin (w := 4) v = 0#4 := by rw [← h]; exact BitVec.and_allOnes.symm
  exact congrArg BitVec.toFin this

/-- A word that a row with `rb` unused matches. -/
theorem eq_formatR_of_maskDa {o : BitVec 8} {w : Word32} (h : w &&& 0xFF00FFFF = formatR o 0 0 0) :
    w = formatR o (rdField w) (raField w) 0 := by
  have h' : w &&& ((0xFF#8) ++ 0#4 ++ 0#4 ++ 0xF#4 ++ 0xFFF#12) = o ++ 0#4 ++ 0#4 ++ 0#4 ++ 0#12 := h
  rw [word_eq_formatR w, and_layoutR] at h'
  obtain ⟨e1, -, -, e4, e5⟩ := layoutR_injective h'
  rw [and_ones8] at e1
  have e5' : w.extractLsb' 0 12 = 0#12 := by rw [← e5]; exact BitVec.and_allOnes.symm
  conv_lhs => rw [word_eq_formatR w, e1, e5', vreg_eq_zero e4]
  rfl

/-- A word that a row with `rd` unused matches. -/
theorem eq_formatR_of_maskAb {o : BitVec 8} {w : Word32} (h : w &&& 0xFFF00FFF = formatR o 0 0 0) :
    w = formatR o 0 (raField w) (rbField w) := by
  have h' : w &&& ((0xFF#8) ++ 0xF#4 ++ 0#4 ++ 0#4 ++ 0xFFF#12) = o ++ 0#4 ++ 0#4 ++ 0#4 ++ 0#12 := h
  rw [word_eq_formatR w, and_layoutR] at h'
  obtain ⟨e1, e2, -, -, e5⟩ := layoutR_injective h'
  rw [and_ones8] at e1
  have e5' : w.extractLsb' 0 12 = 0#12 := by rw [← e5]; exact BitVec.and_allOnes.symm
  conv_lhs => rw [word_eq_formatR w, e1, e5', vreg_eq_zero e2]
  rfl

/-- What a format I mask fixes of a word that matches. -/
theorem fields_of_maskI {o : BitVec 8} {md ma : BitVec 4} {mi v : BitVec 16} {w : Word32}
    (h : w &&& ((0xFF#8) ++ md ++ ma ++ mi) = o ++ 0#4 ++ 0#4 ++ v) :
    opcodeField w = o ∧ BitVec.ofFin (w := 4) (rdField w) &&& md = 0#4 ∧
      BitVec.ofFin (w := 4) (raField w) &&& ma = 0#4 ∧ imm16Field w &&& mi = v := by
  rw [word_eq_formatI w, and_layoutI] at h
  obtain ⟨e1, e2, e3, e4⟩ := layoutI_injective h
  rw [and_ones8] at e1
  exact ⟨e1, e2, e3, e4⟩

/-- A command without a payload decodes only with none. -/
theorem withoutPayload_some {p i j} (h : withoutPayload p i = some j) : p = [] ∧ j = i := by
  cases p <;> simp_all [withoutPayload]

/-- The control-register numbers are one to one. -/
theorem number_of_csrOfNumber {n c} (h : csrOfNumber n = some c) : c.number = n := by
  unfold csrOfNumber at h
  split_ifs at h <;> cases h <;> (rename_i h; exact h.symm)

end Sys2Proof
end

