-- ==== Sys2Proof/Laws/Literal.lean ====
section
/-! SUPPORT. Reading literals and the active base, for LDL and LDI (40_setup_and_transfer.md R101 to R104, R109). -/

namespace Sys2Proof.Machine

/-- The base number of an SM base resolves to it. -/
theorem resolveBase_toNat (b : SmBase) : resolveBase b.toNat = .ok (.sm b) := by cases b <;> rfl

/-- BASE 8, 10 or 16. -/
theorem activeBase_sm {s : State} {b : SmBase} (h : s.base.toNat = b.toNat) : activeBase s = .ok (.sm b) := by
    rw [activeBase, h, resolveBase_toNat]

/-- BASE 2. -/
theorem activeBase_two {s : State} (h : s.base.toNat = 2) : activeBase s = .ok .two := by rw [activeBase, h]; rfl

/-- No base chosen yet. -/
theorem activeBase_zero {s : State} (h : s.base = 0) : activeBase s = .error .unsupportedBase := by
    rw [activeBase, h]; rfl

/-- The text of one digit or more is not empty. -/
theorem map_charOfDigit_cons {D : List Nat} (h : D ≠ []) : ∃ c cs, D.reverse.map charOfDigit = c :: cs := by
  cases hD : D.reverse.map charOfDigit with
  | nil => simp at hD; exact absurd hD h
  | cons c cs => exact ⟨c, cs, rfl⟩

/-- Reading an optional sign and digits gives the trimmed value (R102). -/
theorem parseSm_literal (b : SmBase) (sign : Text) (D : List Nat) (hs : sign = [] ∨ sign = [0x2B] ∨ sign = [0x2D])
    (hne : D ≠ []) (hD : ∀ d ∈ D, d < b.toNat) :
    parseSm b (sign ++ D.reverse.map charOfDigit) =
    .ok { base := b, neg := decide (sign = [0x2D]), digits := trim D } := by
  obtain ⟨c, cs, hc⟩ := map_charOfDigit_cons hne
  have htxt : digitsOfText b.toNat (D.reverse.map charOfDigit) = some D.reverse :=
    digitsOfText_map (SmBase.toNat_le b) _ (fun d hd => hD d (by simpa using hd))
  have hsplit : splitSign (sign ++ D.reverse.map charOfDigit) = (decide (sign = [0x2D]), D.reverse.map charOfDigit) :=
    by
    rcases hs with rfl | rfl | rfl
    · rw [hc]
      have hm : c ∈ D.reverse.map charOfDigit := by rw [hc]; simp
      obtain ⟨d, hd, rfl⟩ := List.mem_map.1 hm
      have hlt : d < 16 := Nat.lt_of_lt_of_le (hD d (by simpa using hd)) (SmBase.toNat_le b)
      obtain ⟨h1, h2⟩ := charOfDigit_not_sign hlt
      simp [splitSign, h1, h2]
    · rfl
    · rfl
  unfold parseSm
  rw [hsplit, hc]
  rw [hc] at htxt
  simp only [htxt, List.reverse_reverse]

/-- A character that is no digit of the base spoils the text (R102, R103). -/
theorem digitsOfText_bad {B : Nat} {body : Text} (h : ∃ c ∈ body, ∀ d, digitOfChar c = some d → B ≤ d) :
    digitsOfText B body = none := by
  obtain ⟨c, hc, hb⟩ := h
  induction body with
  | nil => cases hc
  | cons x xs ih =>
    unfold digitsOfText
    rcases List.mem_cons.1 hc with rfl | hc
    · cases hx : digitOfChar c with
      | none => rfl
      | some d => simp [Nat.not_lt.2 (hb d hx)]
    · split
      · rfl
      · rw [ih hc]; simp

/-- Trimming never lengthens. -/
theorem trim_length : ∀ X : List Nat, (trim X).length ≤ X.length
  | [] => Nat.le_refl _
  | d :: ds => by
    have ih := trim_length ds
    unfold trim
    split
    · simp
    · split
      · simp
      · rename_i t _ _; simp at ih ⊢; exact ih

/-- The sign and the rest are no longer than the text. -/
theorem splitSign_length (c : Text) : (splitSign c).2.length + (if (splitSign c).1 = true then 1 else 0) ≤ c.length :=
    by
  cases c with
  | nil => simp [splitSign]
  | cons c cs =>
    rw [splitSign]
    by_cases h1 : c = charPlus
    · rw [if_pos h1]; simp
    · rw [if_neg h1]
      by_cases h2 : c = charMinus
      · rw [if_pos h2]; simp
      · rw [if_neg h2]; simp

/-- The text of a value read is no longer than the text it was read from (R109). -/
theorem textSm_length {b : SmBase} {text : Text} {x : Sm} (h : parseSm b text = .ok x) :
    (textSm x).length ≤ text.length := by
  have hl := splitSign_length text
  unfold parseSm at h
  split at h
  · cases h
  · rename_i neg d ds hsp
    rw [hsp] at hl
    split at h
    · cases h
    · rename_i vals hv; cases h
      have h1 := (digitsOfText_some hv).1
      have h2 := trim_length vals.reverse
      simp only [textSm, List.length_append, List.length_map, List.length_reverse] at h2 ⊢
      rw [h1] at h2
      cases neg <;> simp at hl ⊢ <;> simp at h2 <;> omega

/-- The text of a value read is no longer than the text it was read from (R109). -/
theorem textBin_length {text : Text} {x : Bin} (h : parseBin text = .ok x) : (textBin x).length ≤ text.length := by
  unfold parseBin at h
  split at h
  · cases h
  · cases h
  · cases h
  · rename_i s b bs hv; cases h
    have h1 := (digitsOfText_some hv).1
    simp [textBin] at h1 ⊢; omega

/-- A value read from a literal is read again from its own display text: same variant, base, sign and digits (R109). -/
theorem parseLiteral_displayText {b : NumBase} {text : Text} {v : Value} (h : parseLiteral b text = .ok v) :
    parseLiteral b (displayText v) = .ok v := by
  cases b with
  | two =>
    simp only [parseLiteral] at h ⊢
    split at h <;> cases h
    rw [displayText, parseBin_textBin (parseBin_wf ‹_›)]
  | sm b =>
    simp only [parseLiteral] at h ⊢
    split at h <;> cases h
    obtain ⟨hw, rfl⟩ := parseSm_wf ‹_›
    rw [displayText, parseSm_textSm hw]

/-- A display text is no longer than the literal the value was read from, so it fits a payload as that literal did
(R109, 30_encoding.md R70). -/
theorem displayText_length {b : NumBase} {text : Text} {v : Value} (h : parseLiteral b text = .ok v) :
    (displayText v).length ≤ text.length := by
  cases b with
  | two => simp only [parseLiteral] at h; split at h <;> cases h; exact textBin_length ‹_›
  | sm b => simp only [parseLiteral] at h; split at h <;> cases h; exact textSm_length ‹_›

/-- The digit characters and their values: `0` to `9` and upper-case `A` to `F`, and no other byte (20_memory.md R54). -/
theorem digitOfChar_eq_some {c : Byte} {d : Nat} : digitOfChar c = some d ↔
    (d < 10 ∧ c.toNat = 0x30 + d) ∨ (10 ≤ d ∧ d < 16 ∧ c.toNat = 0x41 + (d - 10)) := by
  unfold digitOfChar
  split
  · simp only [Option.some.injEq]; omega
  · split
    · simp only [Option.some.injEq]; omega
    · simp only [reduceCtorEq, false_iff]; omega

end Sys2Proof.Machine
end

