-- ==== Sys2Proof/Tests/Slice0.lean ====
section
/-! SUPPORT. Small tests: ill-formed terms refused, one word of every row decoded, one step of every command with the
result the spec states, and for every obligation a state and operands that meet its hypotheses. "Vectors" is
spec/95_test_vectors.md; its rows and the rules' own examples are where every expected result comes from. -/

namespace Sys2Proof.Tests

open Sys2Proof Sys2Proof.Machine

/-! ## Ill-formed terms (30_encoding.md R70, R77, R79) -/

theorem smoke_ldl_too_long (text : Text) (h : text.length = 65536) : (Instr.ldl 0 text).wellFormed = false :=
  decide_eq_false (by omega)

theorem smoke_ldl_longest (text : Text) (h : text.length = 65535) : (Instr.ldl 0 text).wellFormed = true :=
  decide_eq_true (by omega)

/-- There is a text of every length. -/
theorem smoke_text_of_length (n : Nat) : ∃ text : Text, text.length = n := ⟨List.replicate n 0x31, List.length_replicate⟩

theorem smoke_resize_to_no_bits : (Instr.binResize 1 0 0).wellFormed = false := by decide

/-- What `encode` makes of the ill-formed BIN.RESIZE does not decode. -/
theorem smoke_resize_word_refused : decode (encodeWord (.binResize 1 0 0)) [] = none := by decide

/-- Vectors 2.1: CSRR of the reserved number 4. -/
theorem smoke_reserved_csr_refused : decode 0x06000004 [] = none := by decide

/-- Vectors 2.1: LDI with four payload bytes. -/
theorem smoke_short_ldi_refused : decode 0x03000008 [0, 0, 0, 0] = none := by decide

/-! ## Decoding: a word of every row, from R75's table and R80's sums or the rule's own example -/

/-- 01 | 0 | 0 | 000A. -/
theorem decode_setbase : decode 0x0100000A [] = some (.setbase 10) := by decide
/-- 02 | rd 1 | 0 | length 1, payload "5". -/
theorem decode_ldl : decode 0x02100001 [0x35] = some (.ldl 1 [0x35]) := by decide
/-- 03 | rd 2 | 0 | 0008, payload of 1000. -/
theorem decode_ldi : decode 0x03200008 [0xE8, 0x03, 0, 0, 0, 0, 0, 0] = some (.ldi 2 1000) := by decide
/-- 04 | 0 | ra 15 | 0000. -/
theorem decode_disp : decode 0x040F0000 [] = some (.disp 15) := by decide
/-- 05 | 0 | ra 15 | index FFFF. -/
theorem decode_digit : decode 0x050FFFFF [] = some (.digit 15 65535) := by decide
/-- 06 | 0 | 0 | number 3. -/
theorem decode_csrr : decode 0x06000003 [] = some (.csrr .ecmd) := by decide
theorem decode_clrerr : decode 0x07000000 [] = some .clrerr := by decide
/-- 0001 0000 | rd 0010 | ra 0011 | rb 0000 | zeros. -/
theorem decode_smNeg : decode 0b00010000001000110000000000000000 [] = some (.smNeg 2 3) := by decide
theorem decode_smCmp : decode 0x11003000 [] = some (.smCmp 0 3) := by decide
/-- 0001 0010 | rd 1111 | ra 1111 | rb 1111 | zeros. -/
theorem decode_smAdd : decode 0b00010010111111111111000000000000 [] = some (.smAdd 15 15 15) := by decide
theorem decode_smSub : decode 0x13201000 [] = some (.smSub 2 0 1) := by decide
theorem decode_smMul : decode 0x14201000 [] = some (.smMul 2 0 1) := by decide
theorem decode_smDiv : decode 0x15201000 [] = some (.smDiv 2 0 1) := by decide
theorem decode_smMod : decode 0x16201000 [] = some (.smMod 2 0 1) := by decide
theorem decode_smPow : decode 0x17201000 [] = some (.smPow 2 0 1) := by decide
theorem decode_binNeg : decode 0x20200000 [] = some (.binNeg 2 0) := by decide
theorem decode_binCmp : decode 0x21010000 [] = some (.binCmp 1 0) := by decide
/-- 0010 0010 | rd 1111 | ra 1101 | rb 1110 | zeros: `BIN.ADD V15, V13, V14` of R244. -/
theorem decode_binAdd : decode 0b00100010111111011110000000000000 [] = some (.binAdd 15 13 14) := by decide
theorem decode_binSub : decode 0x23FDE000 [] = some (.binSub 15 13 14) := by decide
theorem decode_binMul : decode 0x24201000 [] = some (.binMul 2 0 1) := by decide
theorem decode_binDiv : decode 0x25201000 [] = some (.binDiv 2 0 1) := by decide
theorem decode_binMod : decode 0x26201000 [] = some (.binMod 2 0 1) := by decide
theorem decode_binResize : decode 0x28FFFFFF [] = some (.binResize 15 15 65535) := by decide
theorem decode_binNorm : decode 0x29000000 [] = some (.binNorm 0 0) := by decide
theorem decode_cvtS2b : decode 0x30E10000 [] = some (.cvtS2b 14 1) := by decide
/-- 0011 0001 | rd 0010 | ra 1111 | target 0: `CVT.B2S V2, V15` of R244. -/
theorem decode_cvtB2s : decode 0b00110001001011110000000000000000 [] = some (.cvtB2s 2 15 0) := by decide

/-- The host's numbering: the first word is bits 31 to 0, payload byte k follows at bit 32 + 8k. -/
theorem decode_table_word : decodeTableWord 48 0x323102000002 = some (.ldl 0 [0x31, 0x32]) := by decide

/-! ## One step of every command -/

/-- An SM value in base 10. -/
def dec (neg : Bool) (D : List Nat) : Content := .held (.sm { base := .ten, neg := neg, digits := D })

/-- An SM value in base 16. -/
def hex (neg : Bool) (D : List Nat) : Content := .held (.sm { base := .sixteen, neg := neg, digits := D })

/-- A BIN value. -/
def bits (sign : Bool) (D : List Nat) : Content := .held (.bin { sign := sign, bits := D })

/-- Reset, a base chosen, and V0 and V1 loaded. -/
def start (base : Word32) (v0 v1 : Content) : State := ((State.reset.setBase base).setReg 0 v0).setReg 1 v1

/-- What a command answers and what it leaves in V2. -/
def after (s : State) (w : Word32) (p : List Byte) : Option (Nat × List Byte × Content) :=
  match step (s.setPending [.command w p]) with
  | .next t => t.responses.getLast?.map fun r => (r.code.toNat, r.data, t.reg 2)
  | _ => none

/-- What a command leaves in the control registers. -/
def controlsAfter (s : State) (w : Word32) (p : List Byte) : Option (Word32 × Word32 × Word32 × Word32) :=
  match step (s.setPending [.command w p]) with
  | .next t => some (t.base, t.flags, t.ecode, t.ecmd)
  | _ => none

theorem test_setbase : controlsAfter State.reset 0x0100000A [] = some (10, 0, 0, 0) := by decide
/-- Code 1, ECMD the word. -/
theorem test_setbase_refuses : controlsAfter State.reset 0x01000003 [] = some (0, 0, 1, 0x01000003) := by decide
/-- Vectors 2.2: "-000" is minus zero. -/
theorem test_ldl_sm : after (start 10 .empty .empty) 0x02200004 [0x2D, 0x30, 0x30, 0x30] = some (0, [], dec true [0]) := by
  decide
/-- Vectors 2.2: "00101" keeps its zero bits. -/
theorem test_ldl_bin : after (start 2 .empty .empty) 0x02200005 [0x30, 0x30, 0x31, 0x30, 0x31] =
    some (0, [], bits false [1, 0, 1, 0]) := by decide
/-- Vectors 2.3: base 16, -26. -/
theorem test_ldi_sm : after (start 16 .empty .empty) 0x03200008 [0xE6, 0xFF, 0xFF, 0xFF, 0xFF, 0xFF, 0xFF, 0xFF] =
    some (0, [], hex true [10, 1]) := by decide
/-- Vectors 2.3: base 2, -8. -/
theorem test_ldi_bin : after (start 2 .empty .empty) 0x03200008 [0xF8, 0xFF, 0xFF, 0xFF, 0xFF, 0xFF, 0xFF, 0xFF] =
    some (0, [], bits true [0, 0, 0, 1]) := by decide
/-- Vectors 2.2: base 16 "-1A" displays the same. -/
theorem test_disp_sm : after (start 10 (hex true [10, 1]) .empty) 0x04000000 [] = some (0, [0x2D, 0x31, 0x41], .empty) := by
  decide
/-- Vectors 2.2: BIN(1,[1,1,0]) displays "1011". -/
theorem test_disp_bin : after (start 10 (bits true [1, 1, 0]) .empty) 0x04000000 [] =
    some (0, [0x31, 0x30, 0x31, 0x31], .empty) := by decide
/-- Vectors 2.6: index 2 of 1011. -/
theorem test_digit : after (start 2 (bits true [1, 1, 0]) .empty) 0x05000002 [] = some (0, [0], .empty) := by decide
/-- Vectors 2.6: index 3 of 1011 is the sign's place and out of range. -/
theorem test_digit_range : after (start 2 (bits true [1, 1, 0]) .empty) 0x05000003 [] = some (11, [], .empty) := by decide
/-- Vectors 2.9: `CSRR ECMD` answers 00 10 20 15. -/
theorem test_csrr : after ((start 10 .empty .empty).setError 5 0x15201000) 0x06000003 [] =
    some (0, [0x00, 0x10, 0x20, 0x15], .empty) := by decide
theorem test_clrerr : controlsAfter ((start 10 .empty .empty).setError 5 0x15201000) 0x07000000 [] = some (10, 0, 0, 0) := by
  decide
theorem test_smNeg : after (start 10 (dec false [2, 1]) .empty) 0x10200000 [] = some (0, [], dec true [2, 1]) := by decide
theorem test_smNeg_minus_zero : after (start 10 (dec true [0]) .empty) 0x10200000 [] = some (0, [], dec false [0]) := by
  decide
/-- Vectors 2.5: `-0` and `0` are EQ and LT. -/
theorem test_smCmp_zeros : controlsAfter (start 10 (dec true [0]) (dec false [0])) 0x11001000 [] = some (10, 3, 0, 0) := by
  decide
/-- Vectors 2.5: `-100` and `-5` by default. -/
theorem test_smCmp_negatives : controlsAfter (start 10 (dec true [0, 0, 1]) (dec true [5])) 0x11001000 [] =
    some (10, 0, 0, 0) := by decide
theorem test_smAdd_carry : after (start 10 (dec false [9, 9]) (dec false [1])) 0x12201000 [] =
    some (0, [], dec false [0, 0, 1]) := by decide
theorem test_smAdd_cancel : after (start 10 (dec true [5]) (dec false [5])) 0x12201000 [] = some (0, [], dec false [0]) := by
  decide
theorem test_smSub_borrow : after (start 10 (dec false [0, 0, 1]) (dec false [1])) 0x13201000 [] =
    some (0, [], dec false [9, 9]) := by decide
theorem test_smSub_zeros : after (start 10 (dec true [0]) (dec false [0])) 0x13201000 [] = some (0, [], dec true [0]) := by
  decide
theorem test_smMul : after (start 10 (dec false [9, 9]) (dec false [9, 9])) 0x14201000 [] =
    some (0, [], dec false [1, 0, 8, 9]) := by decide
theorem test_smMul_zero_sign : after (start 10 (dec true [3]) (dec false [0])) 0x14201000 [] = some (0, [], dec true [0]) := by
  decide
theorem test_smDiv : after (start 10 (dec false [7, 1]) (dec true [5])) 0x15201000 [] = some (0, [], dec true [3]) := by decide
theorem test_smDiv_minus_zero : after (start 10 (dec false [5]) (dec true [0])) 0x15201000 [] = some (3, [], .empty) := by
  decide
theorem test_smMod : after (start 10 (dec true [7, 1]) (dec false [5])) 0x16201000 [] = some (0, [], dec true [2]) := by decide
theorem test_smMod_zero_sign : after (start 10 (dec true [6]) (dec false [3])) 0x16201000 [] = some (0, [], dec true [0]) := by
  decide
theorem test_smPow : after (start 10 (dec true [2]) (dec false [3])) 0x17201000 [] = some (0, [], dec true [8]) := by decide
/-- Base 16: the exponent `10` is sixteen. -/
theorem test_smPow_hex : after (start 16 (hex false [2]) (hex false [0, 1])) 0x17201000 [] =
    some (0, [], hex false [0, 0, 0, 0, 1]) := by decide
theorem test_binNeg : after (start 2 (bits false [1, 0, 1]) .empty) 0x20200000 [] = some (0, [], bits true [1, 1, 0]) := by
  decide
/-- `1000` negated is `01000`. -/
theorem test_binNeg_extreme : after (start 2 (bits true [0, 0, 0]) .empty) 0x20200000 [] =
    some (0, [], bits false [0, 0, 0, 1]) := by decide
/-- `1000` and `11000` are both -8. -/
theorem test_binCmp_lengths : controlsAfter (start 2 (bits true [0, 0, 0]) (bits true [0, 0, 0, 1])) 0x21001000 [] =
    some (2, 1, 0, 0) := by decide
theorem test_binCmp_less : controlsAfter (start 2 (bits true [1, 1, 0]) (bits true [1, 0, 1])) 0x21001000 [] =
    some (2, 2, 0, 0) := by decide
/-- `1000 + 1000` is `110000`. -/
theorem test_binAdd : after (start 2 (bits true [0, 0, 0]) (bits true [0, 0, 0])) 0x22201000 [] =
    some (0, [], bits true [0, 0, 0, 0, 1]) := by decide
theorem test_binAdd_cancel : after (start 2 (bits false [1, 0, 1]) (bits true [1, 1, 0])) 0x22201000 [] =
    some (0, [], bits false [0]) := by decide
/-- `1000 - 01` is `10111`. -/
theorem test_binSub : after (start 2 (bits true [0, 0, 0]) (bits false [1])) 0x23201000 [] =
    some (0, [], bits true [1, 1, 1, 0]) := by decide
/-- `00 - 1000` is `01000`. -/
theorem test_binSub_extreme : after (start 2 (bits false [0]) (bits true [0, 0, 0])) 0x23201000 [] =
    some (0, [], bits false [0, 0, 0, 1]) := by decide
/-- `1011 * 011` is `10001`. -/
theorem test_binMul : after (start 2 (bits true [1, 1, 0]) (bits false [1, 1])) 0x24201000 [] =
    some (0, [], bits true [1, 0, 0, 0]) := by decide
theorem test_binMul_zero : after (start 2 (bits true [1, 1, 0]) (bits false [0])) 0x24201000 [] =
    some (0, [], bits false [0]) := by decide
/-- `0111 / 1101` is `110`. -/
theorem test_binDiv : after (start 2 (bits false [1, 1, 1]) (bits true [1, 0, 1])) 0x25201000 [] =
    some (0, [], bits true [0, 1]) := by decide
theorem test_binDiv_long_zero : after (start 2 (bits false [1, 0, 1]) (bits false [0, 0, 0])) 0x25201000 [] =
    some (3, [], .empty) := by decide
/-- `1001 % 011` is `11`. -/
theorem test_binMod : after (start 2 (bits true [1, 0, 0]) (bits false [1, 1])) 0x26201000 [] =
    some (0, [], bits true [1]) := by decide
/-- `1010 % 011` is `00`. -/
theorem test_binMod_exact : after (start 2 (bits true [0, 1, 0]) (bits false [1, 1])) 0x26201000 [] =
    some (0, [], bits false [0]) := by decide
/-- `11000` to three bits is `1000`. -/
theorem test_binResize_drop : after (start 2 (bits true [0, 0, 0, 1]) .empty) 0x28200003 [] =
    some (0, [], bits true [0, 0, 0]) := by decide
theorem test_binResize_overflow : after (start 2 (bits true [1, 1, 0]) .empty) 0x28200002 [] = some (13, [], .empty) := by
  decide
/-- `1000` in canonical length is `11000`. -/
theorem test_binNorm_grow : after (start 2 (bits true [0, 0, 0]) .empty) 0x29200000 [] =
    some (0, [], bits true [0, 0, 0, 1]) := by decide
theorem test_binNorm_shrink : after (start 2 (bits false [1, 0, 1, 0]) .empty) 0x29200000 [] =
    some (0, [], bits false [1, 0, 1]) := by decide
/-- Base 16 `-1A` is `111100110`. -/
theorem test_cvtS2b_hex : after (start 16 (hex true [10, 1]) .empty) 0x30200000 [] =
    some (0, [], bits true [0, 1, 1, 0, 0, 1, 1, 1]) := by decide
/-- Base 10 `-8` is `11000`. -/
theorem test_cvtS2b_dec : after (start 10 (dec true [8]) .empty) 0x30200000 [] = some (0, [], bits true [0, 0, 0, 1]) := by
  decide
/-- `0100000000` in base 10 is `256`. -/
theorem test_cvtB2s_dec : after (start 2 (bits false [0, 0, 0, 0, 0, 0, 0, 0, 1]) .empty) 0x3120000A [] =
    some (0, [], dec false [6, 5, 2]) := by decide
/-- `10001` in the active base 16 is `-F`. -/
theorem test_cvtB2s_active : after (start 16 (bits true [1, 0, 0, 0]) .empty) 0x31200000 [] = some (0, [], hex true [15]) := by
  decide
/-- Vectors 2.1: an illegal word is recorded. -/
theorem test_illegal : controlsAfter (start 10 .empty .empty) 0x27201000 [] = some (10, 0, 8, 0x27201000) := by decide
/-- A word the host stores for `step` is the next command. -/
theorem test_withFetchWord : (match step (State.reset.withFetchWord 32 0x0100000A) with
    | .next t => some t.base
    | _ => none) = some 10 := by decide

/-! ## Witnesses: for every obligation with hypotheses, states and operands that meet them -/

/-- A state that holds what a run can reach, checked by evaluation. -/
theorem wf_of {s : State}
    (h : (∀ i : VReg, (s.reg i).wf s.params = true) ∧
      (s.base = 0 ∨ s.base = 2 ∨ s.base = 8 ∨ s.base = 10 ∨ s.base = 16) ∧
      s.flags &&& 0xFFFFFFFC = 0 ∧ s.ecode = 0 ∧ s.ecmd = 0) : s.WF :=
  ⟨h.1, h.2.1, h.2.2.1, .inl h.2.2.2.1, fun _ => h.2.2.2.2⟩

/-- 12 and -5 in base 10. -/
def tens : State := start 10 (dec false [2, 1]) (dec true [5])

/-- 12 and minus zero in base 10. -/
def tensZero : State := start 10 (dec false [2, 1]) (dec true [0])

/-- 5 and -5 in base 2. -/
def twos : State := start 2 (bits false [1, 0, 1]) (bits true [1, 1, 0])

/-- 5 and a zero of three bits in base 2. -/
def twosZero : State := start 2 (bits false [1, 0, 1]) (bits false [0, 0, 0])

theorem tens_wf : tens.WF := wf_of (by decide)
theorem tensZero_wf : tensZero.WF := wf_of (by decide)
theorem twos_wf : twos.WF := wf_of (by decide)
theorem twosZero_wf : twosZero.WF := wf_of (by decide)

/-- DecodeOfEncode: the longest text, the widest bit count, the lowest integer. -/
theorem witness_DecodeOfEncode : (∃ text : Text, text.length = 65535 ∧ (Instr.ldl 15 text).wellFormed = true) ∧
    (Instr.binResize 15 15 65535).wellFormed = true ∧ (Instr.ldi 15 (BitVec.ofInt 64 (-9223372036854775808))).wellFormed = true :=
  ⟨(smoke_text_of_length 65535).imp fun _ h => ⟨h, decide_eq_true (by omega)⟩, by decide, rfl⟩

theorem witness_EncodeOfDecode : decode 0x28100001 [] = some (.binResize 1 0 1) ∧ decode 0x02000000 [] = some (.ldl 0 []) := by
  decide

theorem witness_OneRowPerWord :
    ∃ r ∈ opTable, (0x31FF0010 : Word32) &&& r.mask = r.value := by decide

/-- The three ways a word can be illegal, each opcode range at its ends. -/
theorem witness_IllegalWordRaises :
    (∀ r ∈ opTable, (0x08000000 : Word32) &&& r.mask ≠ r.value) ∧
    (∃ r ∈ opTable, opcodeField 0x01100002 = opcodeField r.value ∧ (0x01100002 : Word32) &&& r.mask ≠ r.value) ∧
    ([0x00000000, 0x08000000, 0x0F000000, 0x18000000, 0x1F000000, 0x27201000, 0x2A000000, 0x2F000000, 0x32000000,
      0xFFFFFFFF] : List Word32).all (fun w =>
        let o := (opcodeField w).toNat
        decide (o = 0x00 ∨ (0x08 ≤ o ∧ o ≤ 0x0F) ∨ (0x18 ≤ o ∧ o ≤ 0x1F) ∨ o = 0x27 ∨ (0x2A ≤ o ∧ o ≤ 0x2F) ∨ 0x32 ≤ o)) =
      true ∧
    (tens.setPending [.command 0x08000000 []]).pending = .command 0x08000000 [] :: [] := by decide

/-- A payload too short, one too long, the lowest and the highest reserved number, no bits; base numbers beside the legal
ones, the target with them. -/
theorem witness_PayloadAndValueConditions :
    ([0x31] : List Byte).length ≠ payloadLength 0x02000002 ∧ ([0x31] : List Byte).length ≠ payloadLength 0x04000000 ∧
    (opcodeField 0x06000004 = 0x06 ∧ 3 < (imm16Field 0x06000004).toNat) ∧
    (opcodeField 0x0600FFFF = 0x06 ∧ 3 < (imm16Field 0x0600FFFF).toNat) ∧
    (opcodeField 0x28100000 = 0x28 ∧ imm16Field 0x28100000 = 0) ∧
    (tens.setPending [.command 0x28100000 []]).pending = .command 0x28100000 [] :: [] ∧
    ([0, 1, 3, 7, 9, 11, 15, 17, 65535] : List (BitVec 16)).all (fun n => decide (¬(n = 2 ∨ n = 8 ∨ n = 10 ∨ n = 16))) = true ∧
    ([1, 3, 7, 9, 11, 15, 17, 65535] : List (BitVec 16)).all
      (fun t => decide (¬(t = 0 ∨ t = 2 ∨ t = 8 ∨ t = 10 ∨ t = 16))) = true ∧
    twos.reg 0 = .held (.bin { sign := false, bits := [1, 0, 1] }) := by decide

theorem witness_StepRunsDecodedCommand :
    (tens.setPending [.command 0x12201000 [], .reset]).pending = .command 0x12201000 [] :: [.reset] ∧
    decode 0x12201000 [] = some (.smAdd 2 0 1) := by decide

theorem witness_ResetEventClearsState : (tens.setPending [.reset]).pending = .reset :: [] := rfl

theorem witness_IdleUnitHoldsState : tens.pending = [] := rfl

/-- A legal command and an illegal one. -/
theorem witness_EveryCommandAnswersOnce :
    (tens.setPending [.command 0x12201000 []]).pending = .command 0x12201000 [] :: [] ∧
    (tens.setPending [.command 0xFFFFFFFF []]).pending = .command 0xFFFFFFFF [] :: [] := ⟨rfl, rfl⟩

theorem witness_StepKeepsWellFormed :
    (tens.setPending [.command 0x12201000 []]).WF ∧ ∃ t, step (tens.setPending [.command 0x12201000 []]) = .next t :=
  ⟨wf_of (by decide), _, rfl⟩

/-- A division by zero is a raise. -/
theorem witness_RaiseOnlyRecordsError :
    exec (.smDiv 2 0 1) tensZero = .next (tensZero.raise 0x15201000 .divisionByZero) ∧ ErrorCode.divisionByZero.number ≠ 0 :=
  ⟨rfl, by decide⟩

/-- A first raise; a raise and a success while an error is recorded. -/
theorem witness_ErrorRecordIsSticky :
    (exec (.smDiv 2 0 1) tensZero = .next (tensZero.raise 0x15201000 .divisionByZero) ∧
      (tensZero.raise 0x15201000 .divisionByZero).responses =
        tensZero.responses ++ [{ code := ErrorCode.divisionByZero.number, data := [] }] ∧ tensZero.ecode = 0) ∧
    ((∃ t, exec (.smDiv 2 0 1) (tensZero.setError 5 0x15203000) = .next t) ∧ (tensZero.setError 5 0x15203000).ecode ≠ 0) ∧
    (∃ t, exec (.smNeg 2 0) (tensZero.setError 5 0x15203000) = .next t ∧
      t.responses = (tensZero.setError 5 0x15203000).responses ++ [{ code := 0, data := [] }]) :=
  ⟨⟨rfl, rfl, rfl⟩, ⟨⟨_, rfl⟩, by decide⟩, _, rfl, rfl⟩

/-- Either source of a two-operand command can be the EMPTY one. -/
theorem witness_EmptySourceRaises :
    (Instr.smAdd 2 0 3).wellFormed = true ∧ 3 ∈ sources (.smAdd 2 0 3) ∧ 15 ∈ sources (.smAdd 2 15 0) ∧
    tens.reg 3 = .empty ∧ tens.reg 15 = .empty := by decide

/-- A success and a raise of a command with a destination. -/
theorem witness_WriterCommandsFrame :
    destination (.smAdd 2 0 1) = some 2 ∧ (∃ t, exec (.smAdd 2 0 1) tens = .next t) ∧
    destination (.smDiv 0 0 1) = some 0 ∧ (∃ t, exec (.smDiv 0 0 1) tensZero = .next t) := ⟨rfl, ⟨_, rfl⟩, rfl, _, rfl⟩

/-- A success and a raise of a comparison. -/
theorem witness_CompareCommandsFrame :
    (∃ t, exec (.smCmp 0 1) tens = .next t) ∧ (∃ t, exec (.binCmp 0 1) tens = .next t) := ⟨⟨_, rfl⟩, _, rfl⟩

theorem witness_ReadCommandsChangeNothing :
    (∃ ra, Instr.disp 0 = .disp ra) ∧ (∃ ra k, Instr.digit 0 1 = .digit ra k) ∧ ∃ c, Instr.csrr .flags = .csrr c :=
  ⟨⟨_, rfl⟩, ⟨_, _, rfl⟩, _, rfl⟩

theorem witness_NoCommandEmptiesRegister : (∃ t, exec (.smAdd 0 0 1) tens = .next t) ∧ tens.reg 0 ≠ .empty :=
  ⟨⟨_, rfl⟩, by decide⟩

/-- Each of the four control registers is changed by some command. -/
theorem witness_ControlRegisterWriters :
    (∃ t, exec (.setbase 16) tens = .next t ∧ t.base ≠ tens.base) ∧
    (∃ t, exec (.smCmp 1 0) tens = .next t ∧ t.flags ≠ tens.flags) ∧
    (∃ t, exec (.smNeg 2 3) tens = .next t ∧ t.ecode ≠ tens.ecode ∧ t.ecmd ≠ tens.ecmd) :=
  ⟨⟨_, rfl, by decide⟩, ⟨_, rfl, by decide⟩, _, rfl, by decide⟩

/-- 12 - 5 is 7, of one digit: a bound of 1 admits it and a bound of 0 does not; a zero divisor raises anyway. -/
theorem witness_CapacityIsLastCheck :
    tens.params.lmax = none ∧ destination (.smAdd 2 0 1) = some 2 ∧
    (∃ t, exec (.smAdd 2 0 1) (tens.withParams { lmax := none, negOrderReversed := false }) = .next t ∧
      t.responses = tens.responses ++ [{ code := 0, data := [] }] ∧
      t.reg 2 = .held (.sm { base := .ten, neg := false, digits := [7] })) ∧
    Value.size (.sm { base := .ten, neg := false, digits := [7] }) ≤ 1 ∧
    0 < Value.size (.sm { base := .ten, neg := false, digits := [7] }) ∧
    exec (.smDiv 2 0 1) (tensZero.withParams { lmax := none, negOrderReversed := false }) =
      .next ((tensZero.withParams { lmax := none, negOrderReversed := false }).raise (encodeWord (.smDiv 2 0 1)) .divisionByZero) :=
  ⟨rfl, rfl, ⟨_, rfl, rfl, rfl⟩, by decide, by decide, rfl⟩

/-- Every legal base number, and the numbers beside them. -/
theorem witness_SetbaseChoosesBase :
    ([2, 8, 10, 16] : List (BitVec 16)).all (fun n => decide (n = 2 ∨ n = 8 ∨ n = 10 ∨ n = 16)) = true ∧
    ([0, 1, 3, 7, 9, 11, 15, 17, 65535] : List (BitVec 16)).all (fun n => decide (¬(n = 2 ∨ n = 8 ∨ n = 10 ∨ n = 16))) =
      true := by decide

/-- The bytes at the ends of the two digit ranges and beside them; the greatest digit; a sign alone; `-A` in base 10, whose A is a digit of base 16 only. -/
theorem witness_LdlReadsSmLiteral :
    ((9 : Nat) < 10 ∧ (0x39 : Byte).toNat = 0x30 + 9) ∧ ((10 : Nat) ≤ 10 ∧ (10 : Nat) < 16 ∧ (0x41 : Byte).toNat = 0x41 + (10 - 10)) ∧
    (10 ≤ 15 ∧ 15 < 16 ∧ (0x46 : Byte).toNat = 0x41 + (15 - 10)) ∧
    ([0x2F, 0x3A, 0x40, 0x47, 0x61, 0x66] : Text).all (fun c => digitOfChar c == none) = true ∧
    tens.base.toNat = SmBase.ten.toNat ∧
    (([0x2D] : Text) = [] ∨ ([0x2D] : Text) = [0x2B] ∨ ([0x2D] : Text) = [0x2D]) ∧
    ([9, 0] : List Nat) ≠ [] ∧ (∀ d ∈ [9, 0], d < SmBase.ten.toNat) ∧ admits tens.params (trim [9, 0]).length = true ∧
    (([0x2B] : Text) = [] ∨ ([0x2B] : Text) = [0x2B] ∨ ([0x2B] : Text) = [0x2D]) ∧
    (∃ c ∈ ([0x41] : Text), ∀ d, digitOfChar c = some d → SmBase.ten.toNat ≤ d) := by
  refine ⟨by decide, by decide, by decide, by decide, by decide, by decide, by decide, by decide, by decide, by decide, 0x41, by simp, fun d h => ?_⟩
  have : digitOfChar 0x41 = some 10 := by decide
  rw [this] at h; cases h; decide

/-- The two digits of base 2; each text without a bit; a `2`. -/
theorem witness_LdlReadsBinLiteral :
    twos.base.toNat = 2 ∧ ([0, 1] : List Nat) ≠ [] ∧ (∀ d ∈ [0, 1], d < 2) ∧
    admits twos.params ([0, 1] : List Nat).length = true ∧
    (([0x31] : Text) = [] ∨ ([0x31] : Text) = [0x30] ∨ ([0x31] : Text) = [0x31]) ∧
    (∃ c ∈ ([0x30, 0x32] : Text), c ≠ 0x30 ∧ c ≠ 0x31) := by decide

/-- The reset state, for LDL and LDI; a BIN operand with no base chosen, for CVT.B2S. -/
theorem witness_NoBaseRaisesUnsupportedBase :
    State.reset.base = 0 ∧ (twos.setBase 0).base = 0 ∧
    (twos.setBase 0).reg 0 = .held (.bin { sign := false, bits := [1, 0, 1] }) := by decide

/-- The lowest integer in each kind of base, and a payload of the top bit. -/
theorem witness_LdiLoadsInteger :
    ([0, 0, 0, 0, 0, 0, 0, 0x80] : List Byte).length = 8 ∧ ¬leNat [0, 0, 0, 0, 0, 0, 0, 0x80] < 2 ^ 63 ∧
    leNat [0xFF, 0xFF, 0xFF, 0xFF, 0xFF, 0xFF, 0xFF, 0x7F] < 2 ^ 63 ∧ State.reset.base = 0 ∧
    twos.base.toNat = 2 ∧ admits twos.params (canon (BitVec.ofInt 64 (-9223372036854775808)).toInt).bits.length = true ∧
    tens.base.toNat = SmBase.ten.toNat ∧
    admits tens.params (smOf .ten true (2 ^ 63)).digits.length = true := by decide

/-- A value of each variant, and an EMPTY register. -/
theorem witness_DispAnswersText :
    tens.reg 1 = .held (.sm { base := .ten, neg := true, digits := [5] }) ∧
    twos.reg 1 = .held (.bin { sign := true, bits := [1, 1, 0] }) ∧ tens.reg 2 = .empty := by decide

theorem witness_LoadDisplayReload :
    ∃ t, exec (.ldl 0 [0x2D, 0x30, 0x37]) tens = .next t ∧ t.responses = tens.responses ++ [{ code := 0, data := [] }] :=
  ⟨_, rfl, rfl⟩

/-- The last index of a value, and the one past it. -/
theorem witness_DigitAnswersOneDigit :
    tens.reg 0 = .held (.sm { base := .ten, neg := false, digits := [2, 1] }) ∧
    (1 : BitVec 16).toNat < ([2, 1] : List Nat).length ∧ ([2, 1] : List Nat).length ≤ (2 : BitVec 16).toNat ∧
    twos.reg 0 = .held (.bin { sign := false, bits := [1, 0, 1] }) ∧ tens.reg 2 = .empty := by decide

theorem witness_CsrrAnswersFourBytes :
    (Csr.base = .base ∧ tens.base = tens.base) ∧ (Csr.ecmd = .ecmd ∧ tens.ecmd = tens.ecmd) ∧
    3 < (4 : BitVec 16).toNat ∧ 3 < (65535 : BitVec 16).toNat := by decide

/-- A list to trim, and trimmed lists, at the ends of a base's digits. -/
theorem witness_DigitsOfIsTheTrimmedList :
    1 < 2 ∧ DigitsOk 10 [9, 0, 0] ∧ DigitsOk 16 [0, 15] ∧ Trimmed [0, 15] ∧ Trimmed [0] := by decide

/-- Unequal lengths; equal magnitudes; a divisor that is not zero. -/
theorem witness_MagnitudePrimitivesExact :
    1 < 10 ∧ DigitsOk 10 [0, 0, 1] ∧ Trimmed [0, 0, 1] ∧ DigitsOk 10 [9] ∧ Trimmed [9] ∧
    mag 10 [9] ≤ mag 10 [0, 0, 1] ∧ mag 10 [9] ≤ mag 10 [9] ∧ ([9] : List Nat) ≠ [0] := by decide

/-- Minus zero is the sign's corner, and a BIN operand is refused. -/
theorem witness_SmNegFlipsSign :
    tensZero.WF ∧ tensZero.reg 1 = .held (.sm { base := .ten, neg := true, digits := [0] }) ∧
    twos.reg 0 = .held (.bin { sign := false, bits := [1, 0, 1] }) := ⟨tensZero_wf, by decide, by decide⟩

/-- Two operands of one base: the hypotheses of the SM comparisons and of SM.ADD, SM.SUB and SM.MUL. -/
theorem witness_smPair :
    tens.WF ∧ tens.reg 0 = .held (.sm { base := .ten, neg := false, digits := [2, 1] }) ∧
    tens.reg 1 = .held (.sm { base := .ten, neg := true, digits := [5] }) ∧
    admits tens.params (smOf .ten false 7).digits.length = true ∧
    admits tens.params (smOf .ten false 17).digits.length = true ∧
    admits tens.params (smOf .ten true 60).digits.length = true := ⟨tens_wf, by decide, by decide, rfl, rfl, rfl⟩

/-- Operands SM commands refuse: other bases, other variants. -/
theorem witness_RefusesSmPair :
    (start 10 (dec false [2, 1]) (hex false [10])).reg 1 = hex false [10] ∧
    (∀ a b : Sm, Value.sm { base := .ten, neg := false, digits := [2, 1] } = .sm a →
      Value.sm { base := .sixteen, neg := false, digits := [10] } = .sm b → a.base ≠ b.base) ∧
    (∀ a b : Sm, Value.sm { base := .ten, neg := false, digits := [2, 1] } = .sm a →
      Value.bin { sign := false, bits := [1] } = .sm b → a.base ≠ b.base) :=
  ⟨by decide, fun a b ha hb => by cases ha; cases hb; decide, fun a b _ hb => by cases hb⟩

/-- SM.DIV and SM.MOD: a divisor that is minus zero, and one that is not zero. -/
theorem witness_smDivMod :
    tensZero.WF ∧ Sm.val { base := .ten, neg := true, digits := [0] } = 0 ∧
    tens.WF ∧ Sm.val { base := .ten, neg := true, digits := [5] } ≠ 0 ∧
    admits tens.params (smOf .ten true 2).digits.length = true := ⟨tensZero_wf, by decide, tens_wf, by decide, rfl⟩

/-- SM.POW: a negative exponent, and the exponent minus zero. -/
theorem witness_SmPowIsPower :
    tens.WF ∧ Sm.val { base := .ten, neg := true, digits := [5] } < 0 ∧
    tensZero.WF ∧ 0 ≤ Sm.val { base := .ten, neg := true, digits := [0] } ∧
    admits tensZero.params (smOf .ten false 1).digits.length = true := ⟨tens_wf, by decide, tensZero_wf, by decide, rfl⟩

theorem witness_QuotientAndRemainderReconstruct :
    tens.WF ∧ tens.params.lmax = none ∧ tens.reg 0 = .held (.sm { base := .ten, neg := false, digits := [2, 1] }) ∧
    tens.reg 1 = .held (.sm { base := .ten, neg := true, digits := [5] }) ∧
    Sm.val { base := .ten, neg := true, digits := [5] } ≠ 0 := ⟨tens_wf, rfl, by decide, by decide, by decide⟩

theorem witness_TransformNegatesWord : ∀ b ∈ [0, 1, 1], b < 2 := by decide

/-- Zero is the least of the first clause, minus one the greatest of the second. -/
theorem witness_CanonicalFormClosed :
    (0 : Int) ≤ 0 ∧ (-1 : Int) < 0 ∧ Bin.WF { sign := true, bits := [0, 0, 0] } := by decide

/-- Two BIN operands: the hypotheses of BIN.NEG, BIN.NORM, BIN.CMP, BIN.ADD, BIN.SUB and BIN.MUL. -/
theorem witness_binPair :
    twos.WF ∧ twos.reg 0 = .held (.bin { sign := false, bits := [1, 0, 1] }) ∧
    twos.reg 1 = .held (.bin { sign := true, bits := [1, 1, 0] }) ∧
    admits twos.params (canon (-5)).bits.length = true ∧ admits twos.params (canon 0).bits.length = true ∧
    admits twos.params (canon 10).bits.length = true ∧ admits twos.params (canon (-25)).bits.length = true :=
  ⟨twos_wf, by decide, by decide, rfl, rfl, rfl, rfl⟩

/-- Operands BIN commands refuse. -/
theorem witness_RefusesBinPair :
    (∃ a : Sm, Value.sm { base := .ten, neg := false, digits := [2, 1] } = .sm a) ∧
    tens.reg 0 = .held (.sm { base := .ten, neg := false, digits := [2, 1] }) := ⟨⟨_, rfl⟩, by decide⟩

/-- To three bits 5 fits and -8 fits; to two bits 5 does not; 7 and -8 are the ends of three bits. -/
theorem witness_BinResizeKeepsValue :
    (3 : BitVec 16) ≠ 0 ∧ twos.WF ∧ twos.reg 0 = .held (.bin { sign := false, bits := [1, 0, 1] }) ∧
    (-(2 ^ (3 : BitVec 16).toNat : Int) ≤ Bin.val { sign := false, bits := [1, 1, 1] } ∧
      Bin.val { sign := false, bits := [1, 1, 1] } < 2 ^ (3 : BitVec 16).toNat) ∧
    (-(2 ^ (3 : BitVec 16).toNat : Int) ≤ Bin.val { sign := true, bits := [0, 0, 0] } ∧
      Bin.val { sign := true, bits := [0, 0, 0] } < 2 ^ (3 : BitVec 16).toNat) ∧
    ¬(-(2 ^ (2 : BitVec 16).toNat : Int) ≤ Bin.val { sign := false, bits := [1, 0, 1] } ∧
      Bin.val { sign := false, bits := [1, 0, 1] } < 2 ^ (2 : BitVec 16).toNat) ∧
    admits twos.params (3 : BitVec 16).toNat = true := ⟨by decide, twos_wf, by decide, by decide, by decide, by decide, rfl⟩

/-- BIN.DIV and BIN.MOD: a zero divisor of three bits, and one that is not zero. -/
theorem witness_binDivMod :
    twosZero.WF ∧ twosZero.reg 1 = .held (.bin { sign := false, bits := [0, 0, 0] }) ∧
    Bin.val { sign := false, bits := [0, 0, 0] } = 0 ∧ twos.WF ∧ Bin.val { sign := true, bits := [1, 1, 0] } ≠ 0 ∧
    admits twos.params (canon (-1)).bits.length = true := ⟨twosZero_wf, by decide, by decide, twos_wf, by decide, rfl⟩

/-- The greatest digit of each width, a decimal list, and a bit list of a length no chunk divides. -/
theorem witness_ConverterPrimitivesExact :
    (∀ d ∈ [7, 0], d < 2 ^ 3) ∧ (∀ d ∈ [15, 0], d < 2 ^ 4) ∧ DigitsOk 10 [9, 1] ∧ Trimmed [9, 1] ∧ 0 < 3 ∧
    DigitsOk 2 [1, 0, 1, 1] := by decide

/-- A value of each variant and of each base. -/
theorem witness_CvtS2bKeepsValue :
    twos.WF ∧ twos.reg 1 = .held (.bin { sign := true, bits := [1, 1, 0] }) ∧
    tens.WF ∧ tens.reg 1 = .held (.sm { base := .ten, neg := true, digits := [5] }) ∧
    (start 16 (hex true [8]) (.held (.sm { base := .eight, neg := true, digits := [4] }))).WF ∧
    admits tens.params 3 = true := ⟨twos_wf, by decide, tens_wf, by decide, wf_of (by decide), rfl⟩

/-- Target 0 is the active base 2, target 16 an SM base, targets 1 and 17 neither; with BASE 0, target 0 is neither. -/
theorem witness_CvtB2sKeepsValue :
    twos.WF ∧ twos.reg 1 = .held (.bin { sign := true, bits := [1, 1, 0] }) ∧
    (2 : Nat) = (if (0 : BitVec 16) = 0 then twos.base.toNat else (0 : BitVec 16).toNat) ∧
    SmBase.sixteen.toNat = (if (16 : BitVec 16) = 0 then twos.base.toNat else (16 : BitVec 16).toNat) ∧
    admits twos.params (smOf .sixteen true 5).digits.length = true ∧
    ((1 : Nat) ≠ 2 ∧ (17 : Nat) ≠ 2 ∧ (0 : Nat) ≠ 2 ∧ ∀ b : SmBase, 1 ≠ b.toNat ∧ 17 ≠ b.toNat ∧ 0 ≠ b.toNat) :=
  ⟨twos_wf, by decide, by decide, by decide, rfl, by decide, by decide, by decide, fun b => by cases b <;> decide⟩

theorem witness_ConversionRoundTrip :
    tensZero.WF ∧ tensZero.params.lmax = none ∧
    tensZero.reg 1 = .held (.sm { base := .ten, neg := true, digits := [0] }) ∧
    twos.WF ∧ twos.params.lmax = none ∧ twos.reg 1 = .held (.bin { sign := true, bits := [1, 1, 0] }) :=
  ⟨tensZero_wf, rfl, by decide, twos_wf, rfl, by decide⟩

/-- The driver before the `-` of `c ? a b -` in script S1: `a` below `b` on the stack. -/
def s1Driver : Driver := { names := [([0x61], 0), ([0x62], 1)], stack := [[0x62], [0x61]], base := 10 }

theorem witness_DriverOperatorOrder :
    s1Driver.stack = [0x62] :: [0x61] :: [] ∧ lookupName [0x61] s1Driver.names = some 0 ∧
    lookupName [0x62] s1Driver.names = some 1 ∧ (0 : VReg).val < 13 ∧ (1 : VReg).val < 13 ∧
    allocName [0x63] s1Driver.names = .ok (2, s1Driver.names ++ [([0x63], 2)]) ∧
    tens.WF ∧ tens.params.lmax = none ∧ tens.base ≠ 0 ∧ tens.reg 0 = dec false [2, 1] ∧ tens.reg 1 = dec true [5] ∧
    Value.val (.sm { base := .ten, neg := true, digits := [5] }) ≠ 0 ∧
    tens.base.toNat = SmBase.ten.toNat ∧ twos.WF ∧ twos.base.toNat = 2 :=
  ⟨rfl, rfl, rfl, by decide, by decide, rfl, tens_wf, rfl, by decide, by decide, by decide, by decide, by decide, twos_wf, by decide⟩

/-- A line leaves no residue: `c ? a` pushes a name that nothing pops (R230, R237). -/
theorem test_line_leaves_empty_stack :
    (match runLine [0x63, 0x20, 0x3F, 0x20, 0x61] s1Driver tens with
      | .next p => some (p.driver.stack, p.code.toNat)
      | _ => none) = some ([], 0) := by decide

/-- A blank line after a residue: nothing of it reaches the line or stays (D30). -/
theorem test_blank_line_empties_stack :
    (match runLine [0x20] s1Driver tens with
      | .next p => some (p.driver.stack, p.code.toNat)
      | _ => none) = some ([], 0) := by decide

/-- A driver with thirteen one-letter keys, `a` to `m`. -/
def fullDriver : Driver :=
  { names := nameRegs.map fun r => ([BitVec.ofNat 8 (0x61 + r.val)], r), stack := [[0x62], [0x61]], base := 10 }

/-- A division by zero for a fourteenth name `z`: CapacityExceeded, and nothing is issued (R231). -/
theorem test_fourteenth_name_issues_nothing :
    (match runOperator [0x7A] .div fullDriver tensZero with
      | .next p => some (p.code.toNat, p.unit.responses.length, p.unit.reg tempLeft, p.unit.ecode, p.driver.names.length)
      | _ => none) = some (12, 0, .empty, 0, 13) := by decide

/-- One entry is one too few; a name the store lacks; thirteen names and a fourteenth. -/
theorem witness_DriverNameErrors :
    ({ s1Driver with stack := [[0x61]] } : Driver).stack.length < 2 ∧
    ({ s1Driver with stack := [[0x7A], [0x61]] } : Driver).stack = [0x7A] :: [0x61] :: [] ∧
    lookupName [0x7A] s1Driver.names = none ∧
    fullDriver.stack = [0x62] :: [0x61] :: [] ∧ lookupName [0x61] fullDriver.names ≠ none ∧
    lookupName [0x62] fullDriver.names ≠ none ∧ lookupName [0x7A] fullDriver.names = none ∧
    (∀ r : VReg, r.val < 13 → r ∈ fullDriver.names.map Prod.snd) := by decide

end Sys2Proof.Tests
end

section
/-! Proofs of the family 00_scope.md: every command runs to completion and answers once (R11). -/

namespace Sys2Proof.Machine

/-- From `s` to `t` the unit gave exactly one more response, an error response carries no data, and the host's list and
the parameters are the same (00_scope.md R11, 30_encoding.md R74). -/
def AnswersOnce (s t : State) : Prop :=
  ∃ r : Response, t.pending = s.pending ∧ t.responses = s.responses ++ [r] ∧ (r.code ≠ 0 → r.data = []) ∧
    t.params = s.params

/-- The work of a command touches architectural state only; the response is given after it. -/
theorem Did.pending_responses_params {i : Instr} {s : State} {d : Done} (h : Did i s d) :
    d.state.pending = s.pending ∧ d.state.responses = s.responses ∧ d.state.params = s.params := by
  cases h with
  | wrote | chose | compared | cleared | answered => exact ⟨rfl, rfl, rfl⟩

/-- A command that did its work answers with code 0. -/
theorem Did.answersOnce {i : Instr} {s : State} {d : Done} (h : Did i s d) :
    AnswersOnce s (d.state.respond 0 d.data) := by
  obtain ⟨hpending, hresponses, hparams⟩ := h.pending_responses_params
  exact ⟨{ code := 0, data := d.data }, hpending, by simp [hresponses], fun hcode => absurd rfl hcode, hparams⟩

/-- A raise answers with the error's code and no data (60_exceptions.md R270). -/
theorem State.raise_answersOnce (s : State) (w : Word32) (code : ErrorCode) : AnswersOnce s (s.raise w code) :=
  ⟨{ code := code.number, data := [] }, s.raise_pending w code, s.raise_responses w code, fun _ => rfl,
    s.raise_params w code⟩

theorem exec_answersOnce (i : Instr) (s : State) : ∃ t, exec i s = .next t ∧ AnswersOnce s t := by
  obtain ⟨d, hdid, hexec⟩ | ⟨code, -, hexec⟩ := exec_cases i s
  · exact ⟨_, hexec, hdid.answersOnce⟩
  · exact ⟨_, hexec, s.raise_answersOnce _ code⟩

/-- A word that decodes answers as its command does; one that does not is a raise (30_encoding.md R76). -/
theorem runWord_answersOnce (w : Word32) (p : List Byte) (s : State) :
    ∃ t, runWord w p s = .next t ∧ AnswersOnce s t := by
  unfold runWord
  split
  · exact exec_answersOnce _ s
  · exact ⟨_, rfl, s.raise_answersOnce w .illegalCommand⟩

theorem step_command {s : State} {w : Word32} {p : List Byte} {rest : List HostAction}
    (h : s.pending = .command w p :: rest) : step s = runWord w p (s.setPending rest) := by
  simp [step, h]

/-- Settles O10: the step runs the word over the rest of the host's list, and running any word answers once. -/
theorem everyCommandAnswersOnce : Obligations.EveryCommandAnswersOnce := by
  intro s w p rest hpending
  obtain ⟨t, hrun, r, hrest, hresponses, hdata, hparams⟩ := runWord_answersOnce w p (s.setPending rest)
  exact ⟨t, r, (step_command hpending).trans hrun, hrest, hresponses, hdata, hparams⟩

end Sys2Proof.Machine
end

section
/-! Proofs of the family 10_state.md: what a command changes and what it leaves (R28, R29, R31), the state after reset
(R39), and the invariant every step keeps (R21, R22, R25, R32 to R35). -/

namespace Sys2Proof.Machine

/-! ## The invariant -/

/-- What the state after a command can be: the command's work and the success response, or a raise. -/
theorem exec_next {i : Instr} {s t : State} (h : exec i s = .next t) :
    (∃ d, Did i s d ∧ t = d.state.respond 0 d.data) ∨
    (∃ code, code ≠ .emptyStackUnderflow ∧ t = s.raise (encodeWord i) code) := by
  obtain ⟨d, hdid, hexec⟩ | ⟨code, hcode, hexec⟩ := exec_cases i s
  · exact .inl ⟨d, hdid, by simpa [hexec] using h.symm⟩
  · exact .inr ⟨code, hcode, by simpa [hexec] using h.symm⟩

theorem State.WF.exec {i : Instr} {s t : State} (hs : s.WF) (h : exec i s = .next t) : t.WF := by
  obtain ⟨d, hdid, rfl⟩ | ⟨code, hcode, rfl⟩ := exec_next h
  · exact (hs.done hdid).respond 0 d.data
  · exact hs.raise (encodeWord i) hcode

/-- Settles O13: idling, a reset, a command and an illegal word each keep the invariant. -/
theorem stepKeepsWellFormed : Obligations.StepKeepsWellFormed := by
  intro s t hs hstep
  obtain ⟨-, hidle⟩ | ⟨rest, -, hreset⟩ | ⟨w, p, rest, i, -, -, hcommand⟩ | ⟨w, p, rest, -, -, hillegal⟩ := step_cases s
  · cases hidle.symm.trans hstep
    exact hs
  · cases hreset.symm.trans hstep
    exact State.WF.applyReset (s.setPending rest)
  · exact (hs.setPending rest).exec (hcommand.symm.trans hstep)
  · cases hillegal.symm.trans hstep
    exact (hs.setPending rest).raise w (by decide)

/-! ## Reset -/

@[simp] theorem State.resetWith_reg (p : Params) (i : VReg) : (State.resetWith p).reg i = .empty := by
  simp [State.reg, State.resetWith]

/-- The state after reset is what a reset event makes of it, so it is well formed as every state after a reset event. -/
theorem State.WF.resetWith (p : Params) : (State.resetWith p).WF := State.WF.applyReset (State.resetWith p)

/-- Settles O11: every register and every control register of `State.reset` has the value R39 states. -/
theorem stateAfterReset : Obligations.StateAfterReset :=
  ⟨State.resetWith_reg Params.default, rfl, rfl, rfl, rfl, rfl, rfl⟩

/-- Settles O12: `State.reset` is the reset state of the default parameters. -/
theorem resetStateWellFormed : Obligations.ResetStateWellFormed :=
  ⟨State.WF.resetWith Params.default, State.WF.resetWith⟩

/-! ## An operand that cannot be read is raised -/

section
variable {i : Instr} {rd ra rb r : VReg} {s : State} {e : ErrorCode}

theorem smUnary_operand_error {f : Sm → Sm} (h : smOne s ra = .error e) :
    smUnary i rd ra s f = .next (s.raise (encodeWord i) e) := by
  unfold smUnary; rw [h]; rfl

theorem smBinary_operand_error {f : Sm → Sm → Except ErrorCode Sm} (h : smPair s ra rb = .error e) :
    smBinary i rd ra rb s f = .next (s.raise (encodeWord i) e) := by
  unfold smBinary; rw [h]; rfl

theorem binUnary_operand_error {f : Bin → Except ErrorCode Bin} (h : binOne s ra = .error e) :
    binUnary i rd ra s f = .next (s.raise (encodeWord i) e) := by
  unfold binUnary; rw [h]; rfl

theorem binBinary_operand_error {f : Bin → Bin → Except ErrorCode Bin} (h : binPair s ra rb = .error e) :
    binBinary i rd ra rb s f = .next (s.raise (encodeWord i) e) := by
  unfold binBinary; rw [h]; rfl

theorem execBinResize_operand_error {m : BitVec 16} (hm : m ≠ 0) (h : binOne s ra = .error e) :
    execBinResize rd ra m s = .next (s.raise (encodeWord (.binResize rd ra m)) e) := by
  rw [execBinResize, if_neg hm]; exact binUnary_operand_error h

theorem execSmCmp_operand_error (h : smPair s ra rb = .error e) :
    execSmCmp ra rb s = .next (s.raise (encodeWord (.smCmp ra rb)) e) := by
  unfold execSmCmp; rw [h]; rfl

theorem execBinCmp_operand_error (h : binPair s ra rb = .error e) :
    execBinCmp ra rb s = .next (s.raise (encodeWord (.binCmp ra rb)) e) := by
  unfold execBinCmp; rw [h]; rfl

theorem execDisp_operand_error (h : src s ra = .error e) :
    execDisp ra s = .next (s.raise (encodeWord (.disp ra)) e) := by
  unfold execDisp; rw [h]; rfl

theorem execDigit_operand_error {k : BitVec 16} (h : src s ra = .error e) :
    execDigit ra k s = .next (s.raise (encodeWord (.digit ra k)) e) := by
  unfold execDigit; rw [h]; rfl

theorem execCvtS2b_operand_error (h : src s ra = .error e) :
    execCvtS2b rd ra s = .next (s.raise (encodeWord (.cvtS2b rd ra)) e) := by
  unfold execCvtS2b; rw [h]; rfl

theorem execCvtB2s_operand_error {t : BitVec 16} (h : binOne s ra = .error e) :
    execCvtB2s rd ra t s = .next (s.raise (encodeWord (.cvtB2s rd ra t)) e) := by
  unfold execCvtB2s; rw [h]; rfl

/-- The one source of a command is EMPTY. -/
theorem reg_empty_of_mem_one (hr : r ∈ [ra]) (h : s.reg r = .empty) : s.reg ra = .empty :=
  List.mem_singleton.1 hr ▸ h

/-- One of the two sources of a command is EMPTY. -/
theorem reg_empty_of_mem_two (hr : r ∈ [ra, rb]) (h : s.reg r = .empty) : s.reg ra = .empty ∨ s.reg rb = .empty := by
  obtain rfl | rfl : r = ra ∨ r = rb := by simpa using hr
  · exact .inl h
  · exact .inr h

end

/-- Settles O16: reading the operands is the first check of every command, and an EMPTY one of them is
UnknownRegister. -/
theorem emptySourceRaises : Obligations.EmptySourceRaises := by
  intro i s r hwf hr hempty
  cases i with
  | setbase | ldl | ldi | csrr | clrerr => cases hr
  | disp ra => exact execDisp_operand_error (src_empty (reg_empty_of_mem_one hr hempty))
  | digit ra k => exact execDigit_operand_error (src_empty (reg_empty_of_mem_one hr hempty))
  | smNeg rd ra => exact smUnary_operand_error (smOne_empty (reg_empty_of_mem_one hr hempty))
  | smCmp ra rb => exact execSmCmp_operand_error (smPair_empty (reg_empty_of_mem_two hr hempty))
  | smAdd rd ra rb | smSub rd ra rb | smMul rd ra rb | smDiv rd ra rb | smMod rd ra rb | smPow rd ra rb =>
    rw [exec]; exact smBinary_operand_error (smPair_empty (reg_empty_of_mem_two hr hempty))
  | binNeg rd ra | binNorm rd ra =>
    rw [exec]; exact binUnary_operand_error (binOne_empty (reg_empty_of_mem_one hr hempty))
  | binCmp ra rb => exact execBinCmp_operand_error (binPair_empty (reg_empty_of_mem_two hr hempty))
  | binAdd rd ra rb | binSub rd ra rb | binMul rd ra rb | binDiv rd ra rb | binMod rd ra rb =>
    rw [exec]; exact binBinary_operand_error (binPair_empty (reg_empty_of_mem_two hr hempty))
  | binResize rd ra m =>
    have hm : m ≠ 0 := by simpa [Instr.wellFormed] using hwf
    exact execBinResize_operand_error hm (binOne_empty (reg_empty_of_mem_one hr hempty))
  | cvtS2b rd ra => exact execCvtS2b_operand_error (src_empty (reg_empty_of_mem_one hr hempty))
  | cvtB2s rd ra t => exact execCvtB2s_operand_error (binOne_empty (reg_empty_of_mem_one hr hempty))

/-! ## What the work of a command changes -/

section
variable {i : Instr} {s : State} {d : Done}

/-- The work of a command with a destination is one write of it (R29). -/
theorem Did.eq_write {rd : VReg} (h : Did i s d) (hrd : destination i = some rd) :
    ∃ v, d = { state := s.setReg rd (.held v), data := [] } := by
  cases h with
  | wrote rd' v hd => obtain rfl : rd' = rd := Option.some.inj (hd.symm.trans hrd); exact ⟨v, rfl⟩
  | chose n hi => subst hi; cases hrd
  | compared eq lt hi => obtain ⟨ra, rb, rfl | rfl⟩ := hi <;> cases hrd
  | cleared hi => subst hi; cases hrd
  | answered data hi => obtain ⟨ra, rfl⟩ | ⟨ra, k, rfl⟩ | ⟨c, rfl⟩ := hi <;> cases hrd

/-- The work of a comparison is one write of FLAGS (R33). -/
theorem Did.eq_flags {ra rb : VReg} (h : Did i s d) (hcmp : i = .smCmp ra rb ∨ i = .binCmp ra rb) :
    ∃ eq lt, d = { state := s.setFlags (flagsWord eq lt), data := [] } := by
  cases h with
  | wrote rd v hd => obtain rfl | rfl := hcmp <;> cases hd
  | chose n hi => subst hi; obtain h | h := hcmp <;> cases h
  | compared eq lt => exact ⟨eq, lt, rfl⟩
  | cleared hi => subst hi; obtain h | h := hcmp <;> cases h
  | answered data hi =>
    obtain rfl | rfl := hcmp <;> obtain ⟨ra, h⟩ | ⟨ra, k, h⟩ | ⟨c, h⟩ := hi <;> cases h

theorem Did.reg_ne_empty {j : VReg} (h : Did i s d) (hj : s.reg j ≠ .empty) : d.state.reg j ≠ .empty := by
  cases h with
  | wrote rd v =>
    by_cases hjd : j = rd
    · subst hjd; simp
    · rw [State.setReg_reg_other _ _ _ _ hjd]; exact hj
  | chose | compared | cleared | answered => exact hj

/-- Only SETBASE writes BASE (R32). -/
theorem Did.setbase_of_base_ne (h : Did i s d) (hne : d.state.base ≠ s.base) : ∃ n, i = .setbase n := by
  cases h with
  | chose n hi => exact ⟨n, hi⟩
  | wrote | compared | cleared | answered => exact absurd rfl hne

/-- Only the comparisons write FLAGS (R33). -/
theorem Did.cmp_of_flags_ne (h : Did i s d) (hne : d.state.flags ≠ s.flags) :
    ∃ ra rb, i = .smCmp ra rb ∨ i = .binCmp ra rb := by
  cases h with
  | compared eq lt hi => exact hi
  | wrote | chose | cleared | answered => exact absurd rfl hne

/-- Of the commands that raise nothing only CLRERR writes the error record (R34, R35). -/
theorem Did.clrerr_of_error_ne (h : Did i s d) (hne : d.state.ecode ≠ s.ecode ∨ d.state.ecmd ≠ s.ecmd) :
    i = .clrerr := by
  cases h with
  | cleared hi => exact hi
  | wrote | chose | compared | answered => exact (hne.elim (· rfl) (· rfl)).elim

end

/-- A raise changes the error record only while none is recorded (60_exceptions.md R271). -/
theorem State.ecode_eq_zero_of_raise_ne {s : State} {w : Word32} {e : ErrorCode}
    (hne : (s.raise w e).ecode ≠ s.ecode ∨ (s.raise w e).ecmd ≠ s.ecmd) : s.ecode = 0 := by
  by_contra h
  obtain ⟨hecode, hecmd⟩ := State.raise_sticky s w e h
  exact hne.elim (· hecode) (· hecmd)

/-! ## Frames -/

/-- Settles O17: a success is one register write, and a raise is the record of an error. -/
theorem writerCommandsFrame : Obligations.WriterCommandsFrame := by
  intro i rd s t hrd hexec
  obtain ⟨d, hdid, rfl⟩ | ⟨code, -, rfl⟩ := exec_next hexec
  · obtain ⟨v, rfl⟩ := hdid.eq_write hrd
    exact ⟨fun j hj => State.setReg_reg_other s rd j _ hj, rfl, rfl, rfl, rfl, 0, rfl,
      fun _ => ⟨rfl, rfl, v, State.setReg_reg_self s rd _⟩, fun h => absurd rfl h⟩
  · exact ⟨fun j _ => by simp, by simp, by simp, by simp, by simp, code.number, by simp,
      fun h => absurd h code.number_ne_zero, fun _ => by simp⟩

/-- Settles O18: a success is one write of the FLAGS word, and a raise is the record of an error. -/
theorem compareCommandsFrame : Obligations.CompareCommandsFrame := by
  intro i ra rb s t hcmp hexec
  obtain ⟨d, hdid, rfl⟩ | ⟨code, -, rfl⟩ := exec_next hexec
  · obtain ⟨eq, lt, rfl⟩ := hdid.eq_flags hcmp
    exact ⟨rfl, rfl, rfl, rfl, 0, rfl, fun _ => ⟨rfl, rfl, (flagsWord_bits eq lt).2.2⟩, fun h => absurd rfl h⟩
  · exact ⟨by simp, by simp, by simp, by simp, code.number, by simp, fun h => absurd h code.number_ne_zero,
      fun _ => by simp⟩

/-- Settles O20: the one register a command may change then holds a value. -/
theorem noCommandEmptiesRegister : Obligations.NoCommandEmptiesRegister := by
  intro i s t j hexec hj
  obtain ⟨d, hdid, rfl⟩ | ⟨code, -, rfl⟩ := exec_next hexec
  · exact hdid.reg_ne_empty hj
  · rwa [State.raise_reg]

/-- Settles O21: each control register's writer among the commands that raise nothing, and a raise's own two. -/
theorem controlRegisterWriters : Obligations.ControlRegisterWriters := by
  intro i s t hexec
  obtain ⟨d, hdid, rfl⟩ | ⟨code, -, rfl⟩ := exec_next hexec
  · exact ⟨hdid.setbase_of_base_ne, hdid.cmp_of_flags_ne, fun hne => .inl (hdid.clrerr_of_error_ne hne)⟩
  · refine ⟨fun hne => absurd (s.raise_base _ code) hne, fun hne => absurd (s.raise_flags _ code) hne,
      fun hne => .inr ?_⟩
    have hzero := State.ecode_eq_zero_of_raise_ne hne
    obtain ⟨hecode, hecmd⟩ := State.raise_records s (encodeWord i) code hzero
    exact ⟨hzero, _, s.raise_responses _ code, code.number_ne_zero, hecode, hecmd⟩

/-! ## No base chosen -/

section
variable {rd ra : VReg} {s : State} {e : ErrorCode}

theorem execLdl_base_error {text : Text} (h : activeBase s = .error e) :
    execLdl rd text s = .next (s.raise (encodeWord (.ldl rd text)) e) := by
  unfold execLdl; rw [h]; rfl

theorem execLdi_base_error {n : BitVec 64} (h : activeBase s = .error e) :
    execLdi rd n s = .next (s.raise (encodeWord (.ldi rd n)) e) := by
  unfold execLdi; rw [h]; rfl

theorem execCvtB2s_target_error {t : BitVec 16} {x : Bin} (hx : binOne s ra = .ok x) (h : targetBase s t = .error e) :
    execCvtB2s rd ra t s = .next (s.raise (encodeWord (.cvtB2s rd ra t)) e) := by
  unfold execCvtB2s; rw [hx]; dsimp only; rw [h]; rfl

/-- Target 0 of CVT.B2S is the active base (43_base_converter.md R216). -/
theorem targetBase_zero (s : State) : targetBase s 0 = activeBase s := if_pos rfl

end

/-- Settles O26: the active base of BASE 0 is UnsupportedBase, and all three commands ask for it before they compute. -/
theorem noBaseRaisesUnsupportedBase : Obligations.NoBaseRaisesUnsupportedBase := by
  intro s rd hbase
  have hactive := activeBase_zero hbase
  exact ⟨fun _ => execLdl_base_error hactive, fun _ => execLdi_base_error hactive,
    fun _ _ hx => execCvtB2s_target_error (binOne_held hx) ((targetBase_zero s).trans hactive)⟩

end Sys2Proof.Machine
end

section
/-! Proofs of the family 20_memory.md: the commands that only answer the host change nothing they read (R57). -/

namespace Sys2Proof.Machine

/-- The work of DISP, DIGIT or CSRR is data for the host and no change of state (20_memory.md R57). -/
theorem Did.eq_answer {i : Instr} {s : State} {d : Done} (h : Did i s d)
    (hread : (∃ ra, i = .disp ra) ∨ (∃ ra k, i = .digit ra k) ∨ ∃ c, i = .csrr c) :
    ∃ data, d = { state := s, data := data } := by
  cases h with
  | answered data => exact ⟨data, rfl⟩
  | wrote rd v hd => obtain ⟨ra, rfl⟩ | ⟨ra, k, rfl⟩ | ⟨c, rfl⟩ := hread <;> cases hd
  | chose n hi | cleared hi => subst hi; obtain ⟨ra, h⟩ | ⟨ra, k, h⟩ | ⟨c, h⟩ := hread <;> cases h
  | compared eq lt hi =>
    obtain ⟨ra, rb, rfl | rfl⟩ := hi <;> obtain ⟨ra, h⟩ | ⟨ra, k, h⟩ | ⟨c, h⟩ := hread <;> cases h

/-- Settles O19: a success is the response to the state as it was, and a raise is the record of an error. -/
theorem readCommandsChangeNothing : Obligations.ReadCommandsChangeNothing := by
  intro i s hread
  obtain ⟨d, hdid, hexec⟩ | ⟨code, -, hexec⟩ := exec_cases i s
  · obtain ⟨data, rfl⟩ := hdid.eq_answer hread
    exact .inl ⟨data, hexec⟩
  · exact .inr ⟨code, hexec⟩

end Sys2Proof.Machine
end

section
/-! Proofs of the family 30_encoding.md: the encoder and the decoder are each other's inverse (R71 to R75, R79, R80), the
words and payloads that are illegal (R76, R77), and the step as the decoded command's run (R79, R84). -/

namespace Sys2Proof.Machine

open Sys2Proof.Laws

/-! ## From an instruction to its command -/

/-- Settles O1: the word of each instruction matches the instruction's own row, and that row reads its fields back. -/
theorem decodeOfEncode : Obligations.DecodeOfEncode := by
  intro i
  cases i with
  | setbase n => exact RoundTrip.setbase n
  | ldl rd text => exact RoundTrip.ldl rd text
  | ldi rd n => exact RoundTrip.ldi rd n
  | disp ra => exact RoundTrip.disp ra
  | digit ra k => exact RoundTrip.digit ra k
  | csrr c => exact RoundTrip.csrr c
  | clrerr => exact RoundTrip.clrerr
  | smNeg rd ra => exact RoundTrip.smNeg rd ra
  | smCmp ra rb => exact RoundTrip.smCmp ra rb
  | smAdd rd ra rb => exact RoundTrip.smAdd rd ra rb
  | smSub rd ra rb => exact RoundTrip.smSub rd ra rb
  | smMul rd ra rb => exact RoundTrip.smMul rd ra rb
  | smDiv rd ra rb => exact RoundTrip.smDiv rd ra rb
  | smMod rd ra rb => exact RoundTrip.smMod rd ra rb
  | smPow rd ra rb => exact RoundTrip.smPow rd ra rb
  | binNeg rd ra => exact RoundTrip.binNeg rd ra
  | binCmp ra rb => exact RoundTrip.binCmp ra rb
  | binAdd rd ra rb => exact RoundTrip.binAdd rd ra rb
  | binSub rd ra rb => exact RoundTrip.binSub rd ra rb
  | binMul rd ra rb => exact RoundTrip.binMul rd ra rb
  | binDiv rd ra rb => exact RoundTrip.binDiv rd ra rb
  | binMod rd ra rb => exact RoundTrip.binMod rd ra rb
  | binResize rd ra m => exact RoundTrip.binResize rd ra m
  | binNorm rd ra => exact RoundTrip.binNorm rd ra
  | cvtS2b rd ra => exact RoundTrip.cvtS2b rd ra
  | cvtB2s rd ra t => exact RoundTrip.cvtB2s rd ra t

/-- Settles O4: each of the words is the encoding of its command, so O1 decodes it; LDI's payload is computed. -/
theorem sampleWordsDecode : Obligations.SampleWordsDecode :=
  ⟨decodeOfEncode (.setbase 10) rfl, decodeOfEncode (.ldl 0 [0x31, 0x32]) rfl,
    by decide, decodeOfEncode (.disp 0) rfl, decodeOfEncode (.digit 1 0) rfl,
    decodeOfEncode (.csrr .flags) rfl, decodeOfEncode .clrerr rfl, decodeOfEncode (.smNeg 1 0) rfl,
    decodeOfEncode (.smCmp 0 1) rfl, decodeOfEncode (.smAdd 2 0 1) rfl, decodeOfEncode (.smPow 2 0 1) rfl,
    decodeOfEncode (.binCmp 1 0) rfl, decodeOfEncode (.binMod 2 0 1) rfl, decodeOfEncode (.binResize 1 0 8) rfl,
    decodeOfEncode (.binNorm 0 0) rfl, decodeOfEncode (.cvtS2b 1 0) rfl, decodeOfEncode (.cvtB2s 2 1 10) rfl⟩

/-! ## Rows of the table -/

section
variable {w : Word32} {r r' : OpRow}

/-- The row that matches a word is the one the decoder finds. -/
theorem findRow_of_mask_eq (hr : r ∈ opTable) (h : w &&& r.mask = r.value) : findRow w = some r :=
  findRow_of_hits hr (beq_iff_eq.2 h)

/-- A word that a row matches has the row's opcode (30_encoding.md R75). -/
theorem opcodeField_of_mask_eq (hr : r ∈ opTable) (h : w &&& r.mask = r.value) : opcodeField w = opcodeField r.value :=
  opcode_of_hits hr (beq_iff_eq.2 h)

/-- A row is known by its opcode (30_encoding.md R75). -/
theorem row_eq_of_opcodeField_eq (hr : r ∈ opTable) (hr' : r' ∈ opTable)
    (h : opcodeField r.value = opcodeField r'.value) : r = r' :=
  List.inj_on_of_nodup_map (List.pairwise_map.2 opTable_opcodes_distinct) hr hr' h

/-- Settles O3: a row that matches is the row the decoder finds, and it finds one. -/
theorem oneRowPerWord : Obligations.OneRowPerWord := fun _ _ _ hr hr' h h' =>
  Option.some.inj ((findRow_of_mask_eq hr h).symm.trans (findRow_of_mask_eq hr' h'))

end

/-! ## From a command to its instruction -/

section
variable {w : Word32} {p : List Byte} {i j : Instr}

/-- A command that decodes does so by a row its word matches (30_encoding.md R79). -/
theorem exists_row_of_decode (h : decode w p = some i) :
    ∃ r ∈ opTable, w &&& r.mask = r.value ∧ buildInstr r.op w p = some i := by
  unfold decode at h
  split at h
  · rename_i r hr
    exact ⟨r, List.mem_of_find?_eq_some hr, beq_iff_eq.1 (List.find?_some hr :), h⟩
  · cases h

/-- `i` is the well-formed instruction whose word is `w` and whose payload is `p`. -/
def Encodes (i : Instr) (w : Word32) (p : List Byte) : Prop :=
  i.wellFormed = true ∧ encodeWord i = w ∧ encodePayload i = p

/-- A command that takes the empty payload encodes the instruction its fields give (30_encoding.md R73). -/
theorem encodes_of_withoutPayload (h : withoutPayload p j = some i) (hj : Encodes j w []) : Encodes i w p := by
  obtain ⟨rfl, rfl⟩ := withoutPayload_some h
  exact hj

/-- A word is in format I with the fields it has (30_encoding.md R71). -/
theorem formatI_of_fields {o : BitVec 8} {rd ra : VReg} {n : BitVec 16} (ho : opcodeField w = o) (hd : rdField w = rd)
    (ha : raField w = ra) (hn : imm16Field w = n) : formatI o rd ra n = w := by
  subst ho hd ha hn
  exact (word_eq_formatI w).symm

/-- The bytes of an integer of eight bytes are those bytes (20_memory.md R53). -/
theorem leBytes_ofNat_leNat (h : p.length = 8) : leBytes 8 (BitVec.ofNat 64 (leNat p)).toNat = p := by
  have hlt : leNat p < 2 ^ 64 := by
    have hmod := leNat_leBytes p.length (leNat p)
    rw [leBytes_leNat, h] at hmod
    omega
  rw [BitVec.toNat_ofNat, Nat.mod_eq_of_lt hlt, ← h, leBytes_leNat]

/-- What a matching row fixes of a word and its payload makes them the encoding of what the row builds. -/
theorem encodes_of_buildInstr {r : OpRow} (hr : r ∈ opTable) (hw : w &&& r.mask = r.value)
    (h : buildInstr r.op w p = some i) : Encodes i w p := by
  obtain ⟨op, value, mask⟩ := r
  dsimp only at hw h
  cases op <;> obtain ⟨rfl, rfl⟩ : _ ∧ _ := by simpa [opTable, setupRows, smRows, binRows, cvtRows] using hr
  case setbase =>
    obtain ⟨ho, hd, ha, -⟩ := fields_of_maskI (o := 0x01) (md := 0xF) (ma := 0xF) (mi := 0) (v := 0) hw
    exact encodes_of_withoutPayload h ⟨rfl, formatI_of_fields ho (vreg_eq_zero hd) (vreg_eq_zero ha) rfl, rfl⟩
  case ldl =>
    obtain ⟨ho, -, ha, -⟩ := fields_of_maskI (o := 0x02) (md := 0) (ma := 0xF) (mi := 0) (v := 0) hw
    obtain ⟨hlen, rfl⟩ : p.length = (imm16Field w).toNat ∧ Instr.ldl (rdField w) p = i := by
      simpa [buildInstr] using h
    have hn : imm16Field w = BitVec.ofNat 16 p.length := by simp [hlen]
    exact ⟨decide_eq_true (hlen ▸ (imm16Field w).isLt), formatI_of_fields ho rfl (vreg_eq_zero ha) hn, rfl⟩
  case ldi =>
    obtain ⟨ho, -, ha, hn⟩ := fields_of_maskI (o := 0x03) (md := 0) (ma := 0xF) (mi := 0xFFFF) (v := 8) hw
    obtain ⟨hlen, rfl⟩ : p.length = 8 ∧ Instr.ldi (rdField w) (BitVec.ofNat 64 (leNat p)) = i := by
      simpa [buildInstr] using h
    exact ⟨rfl, formatI_of_fields ho rfl (vreg_eq_zero ha) ((RoundTrip.and_ones16 _).symm.trans hn),
      leBytes_ofNat_leNat hlen⟩
  case disp =>
    obtain ⟨ho, hd, -, hn⟩ := fields_of_maskI (o := 0x04) (md := 0xF) (ma := 0) (mi := 0xFFFF) (v := 0) hw
    exact encodes_of_withoutPayload h
      ⟨rfl, formatI_of_fields ho (vreg_eq_zero hd) rfl ((RoundTrip.and_ones16 _).symm.trans hn), rfl⟩
  case digit =>
    obtain ⟨ho, hd, -, -⟩ := fields_of_maskI (o := 0x05) (md := 0xF) (ma := 0) (mi := 0) (v := 0) hw
    exact encodes_of_withoutPayload h ⟨rfl, formatI_of_fields ho (vreg_eq_zero hd) rfl rfl, rfl⟩
  case csrr =>
    obtain ⟨ho, hd, ha, -⟩ := fields_of_maskI (o := 0x06) (md := 0xF) (ma := 0xF) (mi := 0) (v := 0) hw
    simp only [buildInstr] at h
    split at h
    · rename_i c hc
      exact encodes_of_withoutPayload h
        ⟨rfl, formatI_of_fields ho (vreg_eq_zero hd) (vreg_eq_zero ha) (number_of_csrOfNumber hc).symm, rfl⟩
    · cases h
  case clrerr =>
    exact encodes_of_withoutPayload h ⟨rfl, hw.symm.trans BitVec.and_allOnes, rfl⟩
  case binResize =>
    obtain ⟨ho, -, -, -⟩ := fields_of_maskI (o := 0x28) (md := 0) (ma := 0) (mi := 0) (v := 0) hw
    simp only [buildInstr] at h
    split at h
    · cases h
    · rename_i hm
      exact encodes_of_withoutPayload h ⟨decide_eq_true hm, formatI_of_fields ho rfl rfl rfl, rfl⟩
  case cvtB2s =>
    obtain ⟨ho, -, -, -⟩ := fields_of_maskI (o := 0x31) (md := 0) (ma := 0) (mi := 0) (v := 0) hw
    exact encodes_of_withoutPayload h ⟨rfl, formatI_of_fields ho rfl rfl rfl, rfl⟩
  case smNeg | binNeg | binNorm | cvtS2b =>
    exact encodes_of_withoutPayload h ⟨rfl, (eq_formatR_of_maskDa hw).symm, rfl⟩
  case smCmp | binCmp =>
    exact encodes_of_withoutPayload h ⟨rfl, (eq_formatR_of_maskAb hw).symm, rfl⟩
  case smAdd | smSub | smMul | smDiv | smMod | smPow | binAdd | binSub | binMul | binDiv | binMod =>
    exact encodes_of_withoutPayload h ⟨rfl, (eq_formatR_of_mask3 hw).symm, rfl⟩

/-- Settles O2: a command decodes by a row, and each row builds the instruction that the command encodes. -/
theorem encodeOfDecode : Obligations.EncodeOfDecode := by
  intro w p i h
  obtain ⟨r, hr, hw, hbuild⟩ := exists_row_of_decode h
  exact encodes_of_buildInstr hr hw hbuild

end

/-! ## The step on a command -/

section
variable {s : State} {w : Word32} {p : List Byte} {rest : List HostAction}

theorem runWord_of_decode {i : Instr} (h : decode w p = some i) : runWord w p s = exec i s := by rw [runWord, h]

theorem runWord_of_decode_none (h : decode w p = none) : runWord w p s = .next (s.raise w .illegalCommand) := by
  rw [runWord, h]; rfl

/-- A step over a command that does not decode raises IllegalCommand (30_encoding.md R76). -/
theorem step_of_decode_none (hpending : s.pending = .command w p :: rest) (h : decode w p = none) :
    step s = .next ((s.setPending rest).raise w .illegalCommand) :=
  (step_command hpending).trans (runWord_of_decode_none h)

end

/-- Settles O7: the step runs the word, and running a word that decodes is its command's meaning. -/
theorem stepRunsDecodedCommand : Obligations.StepRunsDecodedCommand := fun _ _ _ _ _ hpending h =>
  (step_command hpending).trans (runWord_of_decode h)

/-! ## Words that match no row -/

section
variable {w : Word32} {p : List Byte} {r : OpRow}

theorem decode_eq_none_of_no_row (h : ∀ r ∈ opTable, w &&& r.mask ≠ r.value) : decode w p = none := by
  refine Option.eq_none_iff_forall_ne_some.2 fun i hi => ?_
  obtain ⟨r, hr, hw, -⟩ := exists_row_of_decode hi
  exact h r hr hw

/-- A word that fails the mask of its opcode's row matches no other row (30_encoding.md R76). -/
theorem no_row_of_mask_ne (hr : r ∈ opTable) (ho : opcodeField w = opcodeField r.value) (hw : w &&& r.mask ≠ r.value) :
    ∀ r' ∈ opTable, w &&& r'.mask ≠ r'.value := by
  intro r' hr' hw'
  obtain rfl := row_eq_of_opcodeField_eq hr hr' (ho.symm.trans (opcodeField_of_mask_eq hr' hw'))
  exact hw hw'

/-- An opcode that R76 lists as illegal. -/
def UnlistedOpcode (o : Nat) : Prop :=
  o = 0x00 ∨ (0x08 ≤ o ∧ o ≤ 0x0F) ∨ (0x18 ≤ o ∧ o ≤ 0x1F) ∨ o = 0x27 ∨ (0x2A ≤ o ∧ o ≤ 0x2F) ∨ 0x32 ≤ o

theorem opTable_opcode_listed : ∀ r ∈ opTable, ¬ UnlistedOpcode (opcodeField r.value).toNat := by
  unfold UnlistedOpcode
  decide

theorem no_row_of_unlistedOpcode (h : UnlistedOpcode (opcodeField w).toNat) : ∀ r ∈ opTable, w &&& r.mask ≠ r.value := by
  intro r hr hw
  rw [opcodeField_of_mask_eq hr hw] at h
  exact opTable_opcode_listed r hr h

end

/-- Settles O5: in each of the three cases no row matches, so the word does not decode. -/
theorem illegalWordRaises : Obligations.IllegalWordRaises := by
  intro w hillegal s p rest hpending
  have hno : ∀ r ∈ opTable, w &&& r.mask ≠ r.value := by
    obtain hno | ⟨r, hr, ho, hw⟩ | ⟨o, rfl, ho⟩ := hillegal
    · exact hno
    · exact no_row_of_mask_ne hr ho hw
    · exact no_row_of_unlistedOpcode ho
  exact step_of_decode_none hpending (decode_eq_none_of_no_row hno)

/-! ## The conditions a mask cannot express -/

/-- The control registers are numbered 0 to 3 (10_state.md R31). -/
theorem csr_number_le_three (c : Csr) : c.number.toNat ≤ 3 := by cases c <;> decide

/-- The payload the encoder writes has the length R73 requires of its word. -/
theorem length_encodePayload {i : Instr} (h : i.wellFormed = true) :
    (encodePayload i).length = payloadLength (encodeWord i) := by
  cases i with
  | ldl rd text =>
    have hlen : text.length < 65536 := by simpa [Instr.wellFormed] using h
    simp [encodePayload, payloadLength, encodeWord, Nat.mod_eq_of_lt hlen]
  | _ => simp [encodePayload, payloadLength, encodeWord]

section
variable {w : Word32} {p : List Byte}

/-- A payload of another length is no instruction's payload (30_encoding.md R77). -/
theorem decode_eq_none_of_length_ne (h : p.length ≠ payloadLength w) : decode w p = none := by
  refine Option.eq_none_iff_forall_ne_some.2 fun i hi => ?_
  obtain ⟨hwf, rfl, rfl⟩ := encodeOfDecode w p i hi
  exact h (length_encodePayload hwf)

/-- CSRR of a reserved number is no instruction's word (30_encoding.md R77). -/
theorem decode_csrr_reserved (ho : opcodeField w = 0x06) (hn : 3 < (imm16Field w).toNat) : decode w p = none := by
  refine Option.eq_none_iff_forall_ne_some.2 fun i hi => ?_
  obtain ⟨-, rfl, -⟩ := encodeOfDecode w p i hi
  cases i with
  | csrr c =>
    rw [encodeWord, imm16Field_formatI] at hn
    exact absurd (csr_number_le_three c) (Nat.not_le.2 hn)
  | _ => simp [encodeWord] at ho

/-- BIN.RESIZE to no bits is no well-formed instruction (30_encoding.md R77). -/
theorem decode_binResize_zero (ho : opcodeField w = 0x28) (hm : imm16Field w = 0) : decode w p = none := by
  refine Option.eq_none_iff_forall_ne_some.2 fun i hi => ?_
  obtain ⟨hwf, rfl, -⟩ := encodeOfDecode w p i hi
  cases i with
  | binResize rd ra m =>
    rw [encodeWord, imm16Field_formatI] at hm
    exact of_decide_eq_true hwf hm
  | _ => simp [encodeWord] at ho

end

/-- A 16-bit number that names no base (00_scope.md R3). -/
theorem resolveBase_toNat_error {n : BitVec 16} (h : ¬(n = 2 ∨ n = 8 ∨ n = 10 ∨ n = 16)) :
    resolveBase n.toNat = .error .unsupportedBase := by
  simp only [not_or] at h
  apply resolveBase_error
  bv_omega

theorem execSetbase_error {n : BitVec 16} {s : State} {e : ErrorCode} (h : resolveBase n.toNat = .error e) :
    execSetbase n s = .next (s.raise (encodeWord (.setbase n)) e) := by
  unfold execSetbase; rw [h]; rfl

/-- Settles O6: the first three conditions keep a command from decoding; a base number is looked at by the command. -/
theorem payloadAndValueConditions : Obligations.PayloadAndValueConditions := by
  refine ⟨fun w p h s rest hpending => ?_, fun n s => ?_, fun rd ra t s x => ?_⟩
  · have hnone : decode w p = none := by
      obtain hlen | ⟨ho, hn⟩ | ⟨ho, hm⟩ := h
      · exact decode_eq_none_of_length_ne hlen
      · exact decode_csrr_reserved ho hn
      · exact decode_binResize_zero ho hm
    exact step_of_decode_none hpending hnone
  · exact ⟨decodeOfEncode (.setbase n) rfl, fun hn => execSetbase_error (resolveBase_toNat_error hn)⟩
  · refine ⟨decodeOfEncode (.cvtB2s rd ra t) rfl, fun hx ht => ?_⟩
    obtain ⟨hzero, hbase⟩ := not_or.1 ht
    have htarget : targetBase s t = .error .unsupportedBase := (if_neg hzero).trans (resolveBase_toNat_error hbase)
    exact execCvtB2s_target_error (binOne_held hx) htarget

end Sys2Proof.Machine
end

section
/-! Proofs of the family 40_setup_and_transfer.md: choosing the base (R100), literals and integers in (R101 to R104),
text and digits out (R106 to R110), the control registers (R112, R113), and digit lists (R104, R130). -/

namespace Sys2Proof.Machine

/-! ## What each command does, once its operands are read -/

section
variable {rd ra : VReg} {s : State} {b : NumBase} {v : Value} {text : Text} {e : ErrorCode}

theorem execSetbase_ok {n : BitVec 16} (h : resolveBase n.toNat = .ok b) :
    execSetbase n s = .next ((s.setBase (n.setWidth 32)).respond 0 []) := by
  unfold execSetbase; rw [h]; rfl

theorem execLdl_ok (hb : activeBase s = .ok b) (hv : parseLiteral b text = .ok v)
    (ha : admits s.params v.size = true) :
    execLdl rd text s = .next ((s.setReg rd (.held v)).respond 0 []) := by
  unfold execLdl; rw [hb]; dsimp only; rw [hv]; dsimp only; rw [writeValue_admits ha]; rfl

theorem execLdl_text_error (hb : activeBase s = .ok b) (hv : parseLiteral b text = .error e) :
    execLdl rd text s = .next (s.raise (encodeWord (.ldl rd text)) e) := by
  unfold execLdl; rw [hb]; dsimp only; rw [hv]; rfl

theorem execLdl_capacity_error (hb : activeBase s = .ok b) (hv : parseLiteral b text = .ok v)
    (ha : admits s.params v.size = false) :
    execLdl rd text s = .next (s.raise (encodeWord (.ldl rd text)) .capacityExceeded) := by
  unfold execLdl; rw [hb]; dsimp only; rw [hv]; dsimp only; rw [writeValue_not_admits ha]; rfl

theorem execLdi_ok {n : BitVec 64} (hb : activeBase s = .ok b)
    (ha : admits s.params (valueOfInt b n.toInt).size = true) :
    execLdi rd n s = .next ((s.setReg rd (.held (valueOfInt b n.toInt))).respond 0 []) := by
  unfold execLdi; rw [hb]; dsimp only; rw [writeValue_admits ha]; rfl

theorem execDisp_held (h : s.reg ra = .held v) : execDisp ra s = .next (s.respond 0 (displayText v)) := by
  unfold execDisp; rw [src_held h]; rfl

theorem execDigit_held {i : BitVec 16} {d : Nat} (h : s.reg ra = .held v) (hd : (digitList v)[i.toNat]? = some d) :
    execDigit ra i s = .next (s.respond 0 [BitVec.ofNat 8 d]) := by
  unfold execDigit; rw [src_held h]; dsimp only; rw [hd]; rfl

theorem execDigit_index_error {i : BitVec 16} (h : s.reg ra = .held v) (hd : (digitList v)[i.toNat]? = none) :
    execDigit ra i s = .next (s.raise (encodeWord (.digit ra i)) .indexOutOfRange) := by
  unfold execDigit; rw [src_held h]; dsimp only; rw [hd]; rfl

/-- LDL raises, or it had a base, a literal of that base, and room for its value. -/
theorem execLdl_cases (rd : VReg) (text : Text) (s : State) :
    (∃ code, execLdl rd text s = .next (s.raise (encodeWord (.ldl rd text)) code)) ∨
    (∃ b v, activeBase s = .ok b ∧ parseLiteral b text = .ok v ∧ admits s.params v.size = true) := by
  cases hb : activeBase s with
  | error e => exact .inl ⟨e, execLdl_base_error hb⟩
  | ok b =>
    cases hv : parseLiteral b text with
    | error e => exact .inl ⟨e, execLdl_text_error hb hv⟩
    | ok v =>
      cases ha : admits s.params v.size with
      | false => exact .inl ⟨_, execLdl_capacity_error hb hv ha⟩
      | true => exact .inr ⟨b, v, rfl, hv, ha⟩

/-- The response of a raise is not the success response: no error has the code 0. -/
theorem State.raise_responses_ne_success (s : State) (w : Word32) (code : ErrorCode) :
    (s.raise w code).responses ≠ s.responses ++ [{ code := 0, data := [] }] := by
  simpa using code.number_ne_zero

end

/-! ## Characters and literals -/

/-- The character of a digit is one of the two byte ranges of digits (20_memory.md R54). -/
theorem toNat_charOfDigit {d : Nat} (h : d < 16) :
    (d < 10 ∧ (charOfDigit d).toNat = 0x30 + d) ∨ (10 ≤ d ∧ d < 16 ∧ (charOfDigit d).toNat = 0x41 + (d - 10)) :=
  digitOfChar_eq_some.1 (digitOfChar_charOfDigit h)

section
variable {b : SmBase} {sign body text : Text} {x : Sm} {e : ErrorCode}

theorem parseLiteral_sm_ok (h : parseSm b text = .ok x) : parseLiteral (.sm b) text = .ok (.sm x) := by
  rw [parseLiteral, h]

theorem parseLiteral_sm_error (h : parseSm b text = .error e) : parseLiteral (.sm b) text = .error e := by
  rw [parseLiteral, h]

/-- A sign, or no sign before a character that is none, is cut off the rest (R102). -/
theorem splitSign_append (hs : sign = [] ∨ sign = [0x2B] ∨ sign = [0x2D])
    (hb : sign = [] → body.head? ≠ some 0x2B ∧ body.head? ≠ some 0x2D) :
    (splitSign (sign ++ body)).2 = body := by
  obtain rfl | rfl | rfl := hs
  · cases body with
    | nil => rfl
    | cons c cs =>
      obtain ⟨hplus, hminus⟩ : c ≠ charPlus ∧ c ≠ charMinus := by simpa [charPlus, charMinus] using hb rfl
      rw [List.nil_append, splitSign, if_neg hplus, if_neg hminus]
  · rfl
  · rfl

/-- A literal without a digit (R102). -/
theorem parseSm_no_digit (h : text = [] ∨ text = [0x2B] ∨ text = [0x2D]) : parseSm b text = .error .malformedLiteral := by
  obtain rfl | rfl | rfl := h <;> rfl

/-- A character after the sign that is no digit of the base (R102). -/
theorem parseSm_bad_digit (hbad : ∃ c ∈ (splitSign text).2, ∀ d, digitOfChar c = some d → b.toNat ≤ d) :
    parseSm b text = .error .invalidDigit := by
  unfold parseSm
  split
  · rename_i hsplit
    rw [hsplit] at hbad
    obtain ⟨c, hc, -⟩ := hbad
    cases hc
  · rename_i hsplit
    rw [hsplit] at hbad
    rw [digitsOfText_bad hbad]

end

/-- Settles O24: what ParseSM makes of each of the three kinds of text, and the bytes of the digit characters. -/
theorem ldlReadsSmLiteral : Obligations.LdlReadsSmLiteral := by
  refine ⟨fun c d => digitOfChar_eq_some, fun d hd => ?_, fun d hlow hd => ?_, fun s rd b hbase => ?_⟩
  · have := toNat_charOfDigit (show d < 16 by omega)
    omega
  · have := toNat_charOfDigit hd
    omega
  · have hb := activeBase_sm hbase
    refine ⟨fun sign D hs hne hD x hx ha => ?_, fun text h => ?_, fun sign body hs hhead hbad => ?_⟩
    · subst hx
      exact execLdl_ok hb (parseLiteral_sm_ok (parseSm_literal b sign D hs hne hD)) ha
    · exact execLdl_text_error hb (parseLiteral_sm_error (parseSm_no_digit h))
    · rw [← splitSign_append hs hhead] at hbad
      exact execLdl_text_error hb (parseLiteral_sm_error (parseSm_bad_digit hbad))

section
variable {text : Text} {x : Bin} {e : ErrorCode}

theorem parseLiteral_two_ok (h : parseBin text = .ok x) : parseLiteral .two text = .ok (.bin x) := by
  rw [parseLiteral, h]

theorem parseLiteral_two_error (h : parseBin text = .error e) : parseLiteral .two text = .error e := by
  rw [parseLiteral, h]

/-- A base-2 literal without a bit after the sign bit (R103). -/
theorem parseBin_no_bit (h : text = [] ∨ text = [0x30] ∨ text = [0x31]) : parseBin text = .error .malformedLiteral := by
  obtain rfl | rfl | rfl := h <;> rfl

/-- A byte other than `0` and `1` is no digit below 2 (20_memory.md R54). -/
theorem two_le_of_digitOfChar {c : Byte} {d : Nat} (h0 : c ≠ 0x30) (h1 : c ≠ 0x31) (h : digitOfChar c = some d) :
    2 ≤ d := by
  have := digitOfChar_eq_some.1 h
  bv_omega

/-- A character other than `0` and `1` (R103). -/
theorem parseBin_bad_digit (h : ∃ c ∈ text, c ≠ 0x30 ∧ c ≠ 0x31) : parseBin text = .error .invalidDigit := by
  obtain ⟨c, hc, h0, h1⟩ := h
  rw [parseBin, digitsOfText_bad ⟨c, hc, fun _ => two_le_of_digitOfChar h0 h1⟩]

end

/-- Settles O25: the literal of a BIN value is its display text, which ParseBin reads back as it is. -/
theorem ldlReadsBinLiteral : Obligations.LdlReadsBinLiteral := by
  intro s rd hbase
  have hb := activeBase_two hbase
  exact ⟨fun x hne hx ha => execLdl_ok hb (parseLiteral_two_ok (parseBin_textBin ⟨hne, hx⟩)) ha,
    fun text h => execLdl_text_error hb (parseLiteral_two_error (parseBin_no_bit h)),
    fun text h => execLdl_text_error hb (parseLiteral_two_error (parseBin_bad_digit h))⟩

/-- Settles O29: the value LDL wrote is the one its display text is read back to, in the same base and the same room. -/
theorem loadDisplayReload : Obligations.LoadDisplayReload := by
  intro s t rd re text hexec hresponses
  obtain ⟨code, hraise⟩ | ⟨b, v, hb, hv, ha⟩ := execLdl_cases rd text s
  · cases hraise.symm.trans hexec
    exact absurd hresponses (s.raise_responses_ne_success _ code)
  · cases (execLdl_ok hb hv ha).symm.trans hexec
    exact ⟨displayText v, _, execDisp_held (by simp), displayText_length hv,
      execLdl_ok hb (parseLiteral_displayText hv) ha, by simp, by simp⟩

/-! ## Integers -/

/-- A byte list of a given length denotes a number below 256 to that length (20_memory.md R53). -/
theorem leNat_lt (p : List Byte) : leNat p < 256 ^ p.length := by
  have hmod := leNat_leBytes p.length (leNat p)
  rw [leBytes_leNat] at hmod
  rw [hmod]
  exact Nat.mod_lt _ (by positivity)

/-- Eight bytes as a signed integer (R104). -/
theorem toInt_ofNat_leNat {p : List Byte} (h : p.length = 8) :
    (BitVec.ofNat 64 (leNat p)).toInt = if leNat p < 2 ^ 63 then (leNat p : Int) else (leNat p : Int) - 2 ^ 64 := by
  have hlt := leNat_lt p
  rw [h] at hlt
  rw [BitVec.toInt_eq_toNat_cond, BitVec.toNat_ofNat, Nat.mod_eq_of_lt (by omega)]
  split <;> split <;> omega

/-- The sign and the magnitude of an integer in an SM base denote it (R104). -/
theorem val_smOf_natAbs (b : SmBase) (i : Int) : (smOf b (decide (i < 0)) i.natAbs).val = i := by
  rw [smOf, Sm.val_of_digitsOf]
  simp only [decide_eq_true_eq]
  split <;> omega

/-- Settles O27: the payload LDI carries is its integer's eight bytes, and the value of an integer denotes it. -/
theorem ldiLoadsInteger : Obligations.LdiLoadsInteger := by
  refine ⟨fun rd p hp => ⟨BitVec.ofNat 64 (leNat p), ?_, toInt_ofNat_leNat hp⟩,
    fun s rd n => ⟨fun hbase => ?_, fun hbase ha => ?_, fun b hbase x hx ha => ?_⟩⟩
  · have hdecode := decodeOfEncode (.ldi rd (BitVec.ofNat 64 (leNat p))) rfl
    rwa [encodePayload, leBytes_ofNat_leNat hp] at hdecode
  · exact execLdi_base_error (activeBase_zero hbase)
  · exact ⟨val_canon _, execLdi_ok (activeBase_two hbase) ha⟩
  · subst hx
    exact ⟨val_smOf_natAbs b n.toInt, execLdi_ok (activeBase_sm hbase) ha⟩

/-- Settles O33: the digit list of a number is well formed and trimmed, and it is the only such list. -/
theorem digitsOfIsTheTrimmedList : Obligations.DigitsOfIsTheTrimmedList := fun _ hB =>
  ⟨fun m => ⟨mag_digitsOf hB m, digitsOf_ok hB m, digitsOf_trimmed hB m⟩,
    fun X hX => ⟨mag_trim X, trim_eq hB hX⟩, fun _ hX tX => eq_digitsOf hB hX tX⟩

/-! ## The other commands -/

/-- A 16-bit number that names a base (00_scope.md R3). -/
theorem resolveBase_toNat_ok {n : BitVec 16} (h : n = 2 ∨ n = 8 ∨ n = 10 ∨ n = 16) :
    ∃ b, resolveBase n.toNat = .ok b := by
  obtain rfl | rfl | rfl | rfl := h <;> exact ⟨_, rfl⟩

/-- Settles O23: the numbers that name a base are written, and every other number is refused. -/
theorem setbaseChoosesBase : Obligations.SetbaseChoosesBase := by
  refine fun n => ⟨decodeOfEncode (.setbase n) rfl, fun s => ⟨fun hn => ?_, fun hn => ?_⟩⟩
  · obtain ⟨b, hb⟩ := resolveBase_toNat_ok hn
    exact execSetbase_ok hb
  · exact execSetbase_error (resolveBase_toNat_error hn)

/-- Settles O28: DISP answers the display text, which is the text the statement writes out for each kind of value. -/
theorem dispAnswersText : Obligations.DispAnswersText := fun _ ra =>
  ⟨decodeOfEncode (.disp ra) rfl, fun _ hx => execDisp_held hx, fun _ hx => execDisp_held hx,
    fun hempty => execDisp_operand_error (src_empty hempty)⟩

/-- Settles O30: the index is looked up in the digit list of the value, whichever kind it is. -/
theorem digitAnswersOneDigit : Obligations.DigitAnswersOneDigit := by
  refine fun s ra i => ⟨decodeOfEncode (.digit ra i) rfl, fun hempty => execDigit_operand_error (src_empty hempty),
    fun D hD => ?_⟩
  obtain ⟨v, hv, rfl⟩ : ∃ v, s.reg ra = .held v ∧ D = digitList v := by
    obtain ⟨x, hx, rfl⟩ | ⟨x, hx, rfl⟩ := hD
    · exact ⟨.sm x, hx, rfl⟩
    · exact ⟨.bin x, hx, rfl⟩
  exact ⟨fun hi => execDigit_held hv (List.getElem?_eq_getElem hi),
    fun hi => execDigit_index_error hv (List.getElem?_eq_none hi)⟩

/-- The four bytes of a word, least significant first (20_memory.md R53). -/
theorem leBytes_toNat_word (r : Word32) :
    leBytes 4 r.toNat = [r.extractLsb' 0 8, r.extractLsb' 8 8, r.extractLsb' 16 8, r.extractLsb' 24 8] := by
  simp [leBytes, BitVec.extractLsb', Nat.shiftRight_eq_div_pow, Nat.div_div_eq_div_mul]

theorem execCsrr_eq (c : Csr) (s : State) :
    execCsrr c s = .next (s.respond 0 (leBytes 4 (s.csr c).toNat)) := rfl

/-- Settles O31: the register's bytes are answered, each number decodes to its register, and the others do not. -/
theorem csrrAnswersFourBytes : Obligations.CsrrAnswersFourBytes := by
  refine ⟨fun s r c hr => ?_, decodeOfEncode (.csrr .base) rfl, decodeOfEncode (.csrr .flags) rfl,
    decodeOfEncode (.csrr .ecode) rfl, decodeOfEncode (.csrr .ecmd) rfl, fun n hn p => ?_⟩
  · have hcsr : s.csr c = r := by obtain ⟨rfl, rfl⟩ | ⟨rfl, rfl⟩ | ⟨rfl, rfl⟩ | ⟨rfl, rfl⟩ := hr <;> rfl
    rw [← leBytes_toNat_word, ← hcsr]
    exact execCsrr_eq c s
  · exact decode_csrr_reserved (opcodeField_formatI ..) (by rwa [imm16Field_formatI])

/-- Settles O32: CLRERR's whole effect is one write of the error record. -/
theorem clrerrClearsRecord : Obligations.ClrerrClearsRecord := ⟨decodeOfEncode .clrerr rfl, fun _ => rfl⟩

end Sys2Proof.Machine
end

section
/-! Proofs of the family 41_sign_magnitude.md: the magnitude primitives (R131 to R135), the sign-magnitude commands
(R138 to R146), and quotient and remainder put together again (R145, R148). -/

namespace Sys2Proof.Machine

/-- Settles O34: the primitive's own law gives each of the five, and a trimmed list other than `[0]` is not zero. -/
theorem magnitudePrimitivesExact : Obligations.MagnitudePrimitivesExact := fun _ _ _ hB hX tX hY tY =>
  ⟨magCmp_eq hB hX tX hY tY, magAdd_eq hB hX tX hY tY, magSub_eq hB hX hY, magMul_eq hB hX hY,
    fun hne => magDivMod_eq hB hX hY tY ((eq_zero_iff hB hY tY).not.1 hne)⟩

/-! ## Values by sign and magnitude -/

theorem val_smOf (b : SmBase) (neg : Bool) (m : Nat) : (smOf b neg m).val = if neg then -(m : Int) else m :=
  Sm.val_of_digitsOf b neg m

/-- The sign of an SM value bounds what it denotes; zero may stand under either sign (10_state.md R24). -/
theorem Sm.val_sign (x : Sm) : if x.neg then x.val ≤ 0 else 0 ≤ x.val := by
  unfold Sm.val
  split <;> simp

/-- The magnitude of an integer under a sign it may have denotes the integer. -/
theorem val_smOf_of_sign {b : SmBase} {neg : Bool} {v : Int} (h : if neg then v ≤ 0 else 0 ≤ v) :
    (smOf b neg v.natAbs).val = v := by
  rw [val_smOf]
  split_ifs at h ⊢ <;> omega

/-- The rule of signs for a sum gives a sign the sum may have (R140). -/
theorem sum_sign (a b : Sm) :
    if (if a.neg = b.neg then a.neg else decide (a.val + b.val < 0)) then a.val + b.val ≤ 0 else 0 ≤ a.val + b.val := by
  have ha := a.val_sign
  have hb := b.val_sign
  by_cases heq : a.neg = b.neg
  · rw [if_pos heq]
    rw [← heq] at hb
    split_ifs at ha hb ⊢ <;> omega
  · simp only [if_neg heq, decide_eq_true_eq]
    split <;> omega

/-- The rule of signs for a difference is that for the sum with the subtrahend's sign flipped (R142). -/
theorem difference_sign (a b : Sm) :
    if (if a.neg = b.neg then decide (a.val - b.val < 0) else a.neg) then a.val - b.val ≤ 0 else 0 ≤ a.val - b.val := by
  have h := sum_sign a { b with neg := !b.neg }
  rw [Sm.val_flip, ← Int.sub_eq_add_neg] at h
  cases hp : a.neg <;> cases hq : b.neg <;> simpa [hp, hq] using h

section
variable {x y : Int} {p q : Bool} {m n : Nat}

/-- The product on signs and magnitudes (R143). -/
theorem mul_of_signs (hx : x = if p then -(m : Int) else m) (hy : y = if q then -(n : Int) else n) :
    x * y = if xor p q then -((m * n : Nat) : Int) else ((m * n : Nat) : Int) := by
  subst hx hy
  cases p <;> cases q <;> simp

/-- The truncated remainder on signs and magnitudes: the divisor's sign has no part in it (R145). -/
theorem tmod_of_signs (hx : x = if p then -(m : Int) else m) (hy : y = if q then -(n : Int) else n) :
    Int.tmod x y = if p then -((m % n : Nat) : Int) else ((m % n : Nat) : Int) := by
  subst hx hy
  cases p <;> cases q <;> simp [Int.neg_tmod, Int.tmod_neg, Int.tmod_eq_emod_of_nonneg]

/-- The power on sign and magnitude: the sign is kept by an odd exponent (R146). -/
theorem pow_of_sign (hx : x = if p then -(m : Int) else m) (k : Nat) :
    x ^ k = if p && decide (k % 2 = 1) then -((m ^ k : Nat) : Int) else ((m ^ k : Nat) : Int) := by
  subst hx
  cases p with
  | false => simp
  | true =>
    obtain heven | hodd := Nat.even_or_odd k
    · simp [heven.neg_pow, Nat.even_iff.1 heven]
    · simp [hodd.neg_pow, Nat.odd_iff.1 hodd]

end

/-! ## A command that computes an SM value -/

/-- What the exact SM commands do: the result denotes the integer asked for, and the command writes it when it fits, and
nothing else (R137, R147). -/
def Computes (i : Instr) (rd : VReg) (s : State) (r : Sm) (v : Int) : Prop :=
  r.val = v ∧
    (admits s.params r.digits.length = true → exec i s = .next ((s.setReg rd (.held (.sm r))).respond 0 []))

/-- What stands after a command wrote one register and raised nothing. -/
structure Wrote (s t : State) (rd : VReg) (r : Sm) : Prop where
  wf : t.WF
  params : t.params = s.params
  ecode : t.ecode = s.ecode
  result : t.reg rd = .held (.sm r)
  others : ∀ j, j ≠ rd → t.reg j = s.reg j

/-- Where nothing bounds the lengths, such a command succeeds. -/
theorem Computes.exists_wrote {i : Instr} {rd : VReg} {s : State} {r : Sm} {v : Int} (h : Computes i rd s r v) (hs : s.WF)
    (hl : s.params.lmax = none) : ∃ t, exec i s = .next t ∧ Wrote s t rd r :=
  have hexec := h.2 (admits_of_unbounded hl _)
  ⟨_, hexec, { wf := hs.exec hexec, params := rfl, ecode := rfl, result := by simp,
               others := fun j hj => by rw [State.respond_reg, State.setReg_reg_other _ _ _ _ hj] }⟩

/-- Every command on the SM pair frame refuses operands that do not pair (R136). -/
theorem refusesSmPair_of_smBinary {i : Instr} {rd ra rb : VReg} {f : Sm → Sm → Except ErrorCode Sm}
    (hexec : ∀ s, exec i s = smBinary i rd ra rb s f) : RefusesSmPair i ra rb :=
  refusesSmPair_of fun s h => (hexec s).trans (smBinary_mismatch h)

section
variable {rd ra rb : VReg} {s : State} {a b : Sm}

/-- A one-operand result that fits is written. -/
theorem smUnary_ok {i : Instr} {f : Sm → Sm} (ha : s.reg ra = .held (.sm a))
    (had : admits s.params (f a).digits.length = true) :
    smUnary i rd ra s f = .next ((s.setReg rd (.held (.sm (f a)))).respond 0 []) := by
  unfold smUnary
  rw [smOne_held ha]; dsimp only; rw [writeValue_admits (v := .sm (f a)) had]; rfl

/-- SM.CMP writes the flags its two comparisons give (R139). -/
theorem execSmCmp_ok (ha : s.reg ra = .held (.sm a)) (hb : s.reg rb = .held (.sm b)) (hB : a.base = b.base) :
    execSmCmp ra rb s =
      .next ((s.setFlags (flagsWord (smEq a b) (smLt s.params.negOrderReversed a b))).respond 0 []) := by
  unfold execSmCmp
  rw [smPair_held ha hb hB]; rfl

variable (hs : s.WF) (ha : s.reg ra = .held (.sm a)) (hb : s.reg rb = .held (.sm b)) (hB : a.base = b.base)
include hs ha hb hB

theorem smAdd_computes : Computes (.smAdd rd ra rb) rd s
    (smOf a.base (if a.neg = b.neg then a.neg else decide (a.val + b.val < 0)) (a.val + b.val).natAbs)
    (a.val + b.val) :=
  ⟨val_smOf_of_sign (sum_sign a b),
    smBinary_ok (f := fun a b => .ok (signedAdd a b)) ha hb hB
      (congrArg _ (signedAdd_eq (sm_of_held hs ha) (sm_of_held hs hb) hB))⟩

theorem smSub_computes : Computes (.smSub rd ra rb) rd s
    (smOf a.base (if a.neg = b.neg then decide (a.val - b.val < 0) else a.neg) (a.val - b.val).natAbs)
    (a.val - b.val) :=
  ⟨val_smOf_of_sign (difference_sign a b),
    smBinary_ok (f := fun a b => .ok (signedSub a b)) ha hb hB
      (congrArg _ (signedSub_eq (sm_of_held hs ha) (sm_of_held hs hb) hB))⟩

theorem smMul_computes : Computes (.smMul rd ra rb) rd s
    (smOf a.base (xor a.neg b.neg) (a.val.natAbs * b.val.natAbs)) (a.val * b.val) :=
  ⟨(val_smOf ..).trans (mul_of_signs a.val_eq_natAbs b.val_eq_natAbs).symm,
    smBinary_ok (f := fun a b => .ok (smProduct a b)) ha hb hB
      (congrArg _ (smProduct_eq (sm_of_held hs ha) (sm_of_held hs hb) hB))⟩

theorem smDiv_computes (h0 : b.val ≠ 0) : Computes (.smDiv rd ra rb) rd s
    (smOf a.base (xor a.neg b.neg) (a.val.natAbs / b.val.natAbs)) (Int.tdiv a.val b.val) :=
  ⟨(val_smOf ..).trans (tdiv_of_signs _ _ _ _ _ _ a.val_eq_natAbs b.val_eq_natAbs).symm,
    smBinary_ok ha hb hB (smQuotient_eq (sm_of_held hs ha) (sm_of_held hs hb) hB h0)⟩

theorem smMod_computes (h0 : b.val ≠ 0) : Computes (.smMod rd ra rb) rd s
    (smOf a.base a.neg (a.val.natAbs % b.val.natAbs)) (Int.tmod a.val b.val) :=
  ⟨(val_smOf ..).trans (tmod_of_signs a.val_eq_natAbs b.val_eq_natAbs).symm,
    smBinary_ok ha hb hB (smRemainder_eq (sm_of_held hs ha) (sm_of_held hs hb) hB h0)⟩

theorem smPow_computes (h0 : 0 ≤ b.val) : Computes (.smPow rd ra rb) rd s
    (smOf a.base (a.neg && decide (b.val.toNat % 2 = 1)) (a.val.natAbs ^ b.val.toNat)) (a.val ^ b.val.toNat) := by
  have hexp : b.val.toNat = b.val.natAbs := by omega
  refine ⟨(val_smOf ..).trans (pow_of_sign a.val_eq_natAbs _).symm, ?_⟩
  rw [hexp]
  exact smBinary_ok ha hb hB (smPower_eq (sm_of_held hs ha) (sm_of_held hs hb) h0)

end

/-! ## The commands -/

/-- Negation as R138 writes it. -/
theorem smNegate_eq_flip (a : Sm) :
    smNegate a = { base := a.base, neg := !a.neg && decide (a.digits ≠ [0]), digits := a.digits } := by
  by_cases h0 : a.digits = [0] <;> simp [smNegate, h0]

theorem val_smNegate (a : Sm) : (smNegate a).val = -a.val := by
  unfold smNegate
  split
  · next h0 => simp [Sm.val, h0]
  · exact Sm.val_flip a

/-- Settles O35: the result has the operand's own digits, so it fits where the operand does. -/
theorem smNegFlipsSign : Obligations.SmNegFlipsSign := by
  refine fun rd ra => ⟨decodeOfEncode (.smNeg rd ra) rfl,
    fun s x hx => smUnary_operand_error (smOne_mismatch hx), fun s a hs ha r hr => ?_⟩
  rw [← smNegate_eq_flip] at hr
  subst hr
  have hfits : admits s.params (smNegate a).digits.length = true := by
    rw [smNegate_eq_flip]
    exact (wf_of_held hs ha).2
  exact ⟨val_smNegate a, smUnary_ok ha hfits⟩

/-- Settles O36: the two comparisons are those of the integers and of the order R139 writes out. -/
theorem smCmpWritesFlags : Obligations.SmCmpWritesFlags := by
  refine fun ra rb => ⟨decodeOfEncode (.smCmp ra rb) rfl, refusesSmPair_of fun _ h => execSmCmp_operand_error h,
    fun s a b hs ha hb hB => ⟨_, execSmCmp_ok ha hb hB, ?_⟩⟩
  rw [← smEq_eq (sm_of_held hs ha) (sm_of_held hs hb) hB, ← smLt_eq (sm_of_held hs ha) (sm_of_held hs hb) hB]
  exact flagsWord_bits _ _

/-- Settles O37: SignedAdd is exact, and the sign it takes is one the sum may have. -/
theorem smAddIsSignedSum : Obligations.SmAddIsSignedSum := fun rd ra rb =>
  ⟨decodeOfEncode (.smAdd rd ra rb) rfl,
    refusesSmPair_of_smBinary (f := fun a b => .ok (signedAdd a b)) fun _ => rfl,
    fun _ _ _ hs ha hb hB _ hr => hr ▸ smAdd_computes hs ha hb hB⟩

/-- Settles O38: the difference is the sum with the subtrahend's sign flipped. -/
theorem smSubIsSignedDifference : Obligations.SmSubIsSignedDifference := fun rd ra rb =>
  ⟨decodeOfEncode (.smSub rd ra rb) rfl,
    refusesSmPair_of_smBinary (f := fun a b => .ok (signedSub a b)) fun _ => rfl,
    fun _ _ _ hs ha hb hB _ hr => hr ▸ smSub_computes hs ha hb hB⟩

/-- Settles O39: signs and magnitudes multiply apart, so a zero product keeps the sign of the rule. -/
theorem smMulIsSignedProduct : Obligations.SmMulIsSignedProduct := fun rd ra rb =>
  ⟨decodeOfEncode (.smMul rd ra rb) rfl,
    refusesSmPair_of_smBinary (f := fun a b => .ok (smProduct a b)) fun _ => rfl,
    fun _ _ _ hs ha hb hB _ hr => hr ▸ smMul_computes hs ha hb hB⟩

/-- Settles O40: a zero divisor of either sign is caught before the division. -/
theorem smDivTruncates : Obligations.SmDivTruncates := fun rd ra rb =>
  ⟨decodeOfEncode (.smDiv rd ra rb) rfl, refusesSmPair_of_smBinary fun _ => rfl, fun _ _ _ hs ha hb hB =>
    ⟨fun h0 => smBinary_error ha hb hB (smQuotient_zero (sm_of_held hs hb) h0),
      fun h0 _ hr => hr ▸ smDiv_computes hs ha hb hB h0⟩⟩

/-- Settles O41: a zero divisor of either sign is caught before the division. -/
theorem smModKeepsDividendSign : Obligations.SmModKeepsDividendSign := fun rd ra rb =>
  ⟨decodeOfEncode (.smMod rd ra rb) rfl, refusesSmPair_of_smBinary fun _ => rfl, fun _ _ _ hs ha hb hB =>
    ⟨fun h0 => smBinary_error ha hb hB (smRemainder_zero (sm_of_held hs hb) h0),
      fun h0 _ hr => hr ▸ smMod_computes hs ha hb hB h0⟩⟩

/-- Settles O42: an exponent below zero is caught before the power; minus zero is not below zero. -/
theorem smPowIsPower : Obligations.SmPowIsPower := fun rd ra rb =>
  ⟨decodeOfEncode (.smPow rd ra rb) rfl, refusesSmPair_of_smBinary fun _ => rfl, fun _ _ _ hs ha hb hB =>
    ⟨fun hneg => smBinary_error ha hb hB (smPower_negative (sm_of_held hs hb) hneg),
      fun h0 _ hr => hr ▸ smPow_computes hs ha hb hB h0⟩⟩

/-! ## The four commands in a row -/

/-- Settles O43: each command finds its operands where the ones before it left them, and the truncated quotient and
remainder of the integers give the dividend back. -/
theorem quotientAndRemainderReconstruct : Obligations.QuotientAndRemainderReconstruct := by
  intro s a b hs hl ha hb hB h0
  have hdiv := smDiv_computes (rd := 2) hs ha hb hB h0
  obtain ⟨t, ht, wt⟩ := hdiv.exists_wrote hs hl
  have hbt := (wt.others 1 (by decide)).trans hb
  have hmod := smMod_computes (rd := 3) wt.wf ((wt.others 0 (by decide)).trans ha) hbt hB h0
  obtain ⟨u, hu, wu⟩ := hmod.exists_wrote wt.wf (by rwa [wt.params])
  have hqu := (wu.others 2 (by decide)).trans wt.result
  have hmul := smMul_computes (rd := 4) wu.wf hqu ((wu.others 1 (by decide)).trans hbt) hB
  obtain ⟨v, hv, wv⟩ := hmul.exists_wrote wu.wf (by rwa [wu.params, wt.params])
  have hrv := (wv.others 3 (by decide)).trans wu.result
  have hadd := smAdd_computes (rd := 5) wv.wf wv.result hrv rfl
  obtain ⟨w, hw, ww⟩ := hadd.exists_wrote wv.wf (by rwa [wv.params, wu.params, wt.params])
  refine ⟨t, u, v, w, _, ht, hu, hv, hw, ww.result, rfl, ?_, by rw [ww.ecode, wv.ecode, wu.ecode, wt.ecode]⟩
  rw [hadd.1, hmul.1, hdiv.1, hmod.1, Int.tdiv_mul_add_tmod]

end Sys2Proof.Machine
end

section
/-! Proofs of the family 42_twos_complement.md: the two's-complement transform (R170), the canonical form (R173, R174),
and the base-2 commands (R175 to R177, R181, R183 to R188). -/

namespace Sys2Proof.Machine

/-! ## The transform -/

/-- The transform copies the zeros below the first 1 (R170). -/
theorem tct_replicate_zero_append (k : Nat) (w : List Nat) :
    tct (List.replicate k 0 ++ w) = List.replicate k 0 ++ tct w := by
  induction k with
  | zero => rfl
  | succ k ih => simp [List.replicate_succ, tct, ih]

/-- The transform copies the first 1 and inverts above it (R170). -/
theorem tct_one_cons (above : List Nat) : tct (1 :: above) = 1 :: above.map (fun b => 1 - b) := if_pos rfl

/-- The transform is negation modulo the word's weight (R170). -/
theorem mag_tct_mod {w : List Nat} (h : ∀ b ∈ w, b < 2) :
    mag 2 (tct w) = (2 ^ w.length - mag 2 w) % 2 ^ w.length := by
  have hsum := mag_tct w h
  by_cases h0 : mag 2 w = 0
  · rw [if_pos h0] at hsum
    rw [h0, Nat.sub_zero, Nat.mod_self]
    omega
  · rw [if_neg h0] at hsum
    rw [Nat.mod_eq_of_lt (by omega)]
    omega

/-- Settles O44: a word of zeros has no first 1, and any other word is copied up to it. -/
theorem transformNegatesWord : Obligations.TransformNegatesWord := by
  refine ⟨fun k => ?_, fun k above => ?_, fun w h => ⟨length_tct w, mag_tct_mod h, tct_tct w h⟩⟩
  · simpa [tct] using tct_replicate_zero_append k []
  · rw [tct_replicate_zero_append, tct_one_cons]

/-! ## The canonical form -/

theorem canon_of_nonneg {v : Int} (hv : 0 ≤ v) : canon v = { sign := false, bits := digitsOf 2 v.toNat } := by
  rw [show v.toNat = v.natAbs by omega]
  simp [canon, fromMag, hv]

theorem canon_of_neg {v : Int} (hv : v < 0) :
    canon v = { sign := true, bits := (tct (digitsOf 2 v.natAbs ++ [0])).dropLast } := by
  have hne : digitsOf 2 v.natAbs ≠ [0] := (digitsOf_eq_zero_iff (by decide) _).not.2 (by omega)
  simp [canon, fromMag, hv, hne]

/-- A negative integer and its canonical form have magnitudes of one length (R174). -/
theorem length_canon_of_neg {v : Int} (hv : v < 0) : (canon v).bits.length = (digitsOf 2 v.natAbs).length := by
  simp [canon_of_neg hv, length_tct]

/-- The bits of a negative integer's canonical form are the pattern `2^n - |v|`: with the sign bit on top they denote
the integer (R174). -/
theorem mag_canon_of_neg {v : Int} (hv : v < 0) :
    mag 2 (canon v).bits + v.natAbs = 2 ^ (digitsOf 2 v.natAbs).length := by
  have hval := val_canon v
  rw [Bin.val, if_pos (by rw [canon_of_neg hv]), length_canon_of_neg hv] at hval
  zify
  rw [abs_of_neg hv]
  omega

/-- Settles O45: the canonical form by the sign of the integer, and `norm` by the value's magnitude. -/
theorem canonicalFormClosed : Obligations.CanonicalFormClosed :=
  ⟨fun _ hv => canon_of_nonneg hv,
    fun _ hv => ⟨by rw [canon_of_neg hv], length_canon_of_neg hv, mag_canon_of_neg hv⟩,
    fun v => ⟨canon_wf v, val_canon v⟩,
    fun _ hx => ⟨binMag_eq hx, norm_eq hx⟩⟩

/-! ## A command that computes a BIN value -/

section
variable {i : Instr} {rd ra rb : VReg}

/-- A command on the one-operand frame whose function gives the canonical value of an integer: it refuses an SM operand
and writes that value when it fits (R175, R189). -/
theorem binUnary_exact {f : Bin → Bin} {g : Int → Int} (hexec : ∀ s, exec i s = binUnary i rd ra s fun x => .ok (f x))
    (hf : ∀ {x}, x.WF → f x = canon (g x.val)) :
    RefusesSmOperand i ra ∧
    ∀ (s : State) (x : Bin), s.WF → s.reg ra = .held (.bin x) →
      ∀ r : Bin, r = canon (g x.val) → admits s.params r.bits.length = true →
        exec i s = .next ((s.setReg rd (.held (.bin r))).respond 0 []) := by
  refine ⟨refusesSmOperand_of fun s h => (hexec s).trans (binUnary_mismatch h), fun s x hs hx r hr had => ?_⟩
  have hfx : f x = r := (hf (bin_of_held hs hx)).trans hr.symm
  exact (hexec s).trans (binUnary_ok hx (congrArg _ hfx) had)

/-- Every command on the two-operand frame refuses operands that are not two BIN values (R175). -/
theorem refusesBinPair_of_binBinary {f : Bin → Bin → Except ErrorCode Bin}
    (hexec : ∀ s, exec i s = binBinary i rd ra rb s f) : RefusesBinPair i ra rb :=
  refusesBinPair_of fun s h => (hexec s).trans (binBinary_mismatch h)

/-- A command on the two-operand frame whose function gives the canonical value of an integer: it refuses an SM operand
and writes that value when it fits (R175, R189). -/
theorem binBinary_exact {f : Bin → Bin → Bin} {g : Int → Int → Int}
    (hexec : ∀ s, exec i s = binBinary i rd ra rb s fun a b => .ok (f a b))
    (hf : ∀ {a b}, a.WF → b.WF → f a b = canon (g a.val b.val)) :
    RefusesBinPair i ra rb ∧
    ∀ (s : State) (a b : Bin), s.WF → s.reg ra = .held (.bin a) → s.reg rb = .held (.bin b) →
      ∀ r : Bin, r = canon (g a.val b.val) → admits s.params r.bits.length = true →
        exec i s = .next ((s.setReg rd (.held (.bin r))).respond 0 []) := by
  refine ⟨refusesBinPair_of_binBinary hexec, fun s a b hs ha hb r hr had => ?_⟩
  have hfab : f a b = r := (hf (bin_of_held hs ha) (bin_of_held hs hb)).trans hr.symm
  exact (hexec s).trans (binBinary_ok ha hb (congrArg _ hfab) had)

/-- A command on the two-operand frame that divides: it refuses an SM operand, raises DivisionByZero on a divisor of value
zero, and else writes the canonical value of its integer when it fits (R187, R188). -/
theorem binBinary_division {f : Bin → Bin → Except ErrorCode Bin} {g : Bin → Bin → Int}
    (hexec : ∀ s, exec i s = binBinary i rd ra rb s f)
    (hzero : ∀ {a b}, b.WF → b.val = 0 → f a b = .error .divisionByZero)
    (hf : ∀ {a b}, a.WF → b.WF → b.val ≠ 0 → f a b = .ok (canon (g a b))) :
    RefusesBinPair i ra rb ∧
    ∀ (s : State) (a b : Bin), s.WF → s.reg ra = .held (.bin a) → s.reg rb = .held (.bin b) →
      (b.val = 0 → exec i s = .next (s.raise (encodeWord i) .divisionByZero)) ∧
      (b.val ≠ 0 → ∀ q : Int, q = g a b → ∀ r : Bin, r = canon q → admits s.params r.bits.length = true →
        exec i s = .next ((s.setReg rd (.held (.bin r))).respond 0 [])) := by
  refine ⟨refusesBinPair_of_binBinary hexec, fun s a b hs ha hb => ⟨fun h0 => ?_, fun h0 q hq r hr had => ?_⟩⟩
  · exact (hexec s).trans (binBinary_error ha hb (hzero (bin_of_held hs hb) h0))
  · subst hq hr
    exact (hexec s).trans (binBinary_ok ha hb (hf (bin_of_held hs ha) (bin_of_held hs hb) h0) had)

end

/-! ## Quotient and remainder by sign and magnitude -/

section
variable {a b : Bin} (ha : a.WF) (hb : b.WF)
include ha hb

/-- The truncated quotient as R187 writes it. -/
theorem tdiv_val_of_signs : Int.tdiv a.val b.val =
    (if a.sign = b.sign then 1 else -1) * ((a.val.natAbs / b.val.natAbs : Nat) : Int) := by
  rw [tdiv_of_signs _ _ _ _ _ _ (val_eq_natAbs ha) (val_eq_natAbs hb)]
  by_cases hs : a.sign = b.sign
  · simp [hs]
  · simp [hs]

/-- The truncated remainder as R188 writes it. -/
theorem tmod_val_of_signs : Int.tmod a.val b.val =
    (if a.sign = true then -1 else 1) * ((a.val.natAbs % b.val.natAbs : Nat) : Int) := by
  rw [tmod_of_signs (val_eq_natAbs ha) (val_eq_natAbs hb)]
  split <;> simp

end

/-! ## Resizing -/

/-- What a resize that succeeds gives: the low m bits, filled up with the sign (R181). -/
theorem binResized_ok_eq {m : BitVec 16} {x r : Bin} (h : binResized m x = .ok r) :
    r = { sign := x.sign, bits := x.bits.take m.toNat ++ List.replicate (m.toNat - x.bits.length) x.sign.toNat } := by
  unfold binResized at h
  split at h
  · cases h
  · split at h
    · next hwide =>
      cases h
      rw [List.take_of_length_le hwide]
      rfl
    · next hnarrow =>
      split at h
      · cases h
        rw [Nat.sub_eq_zero_of_le (Nat.le_of_not_le hnarrow), List.replicate_zero, List.append_nil]
      · cases h

/-- A bit count that is not zero leaves BIN.RESIZE on the one-operand frame (R181). -/
theorem exec_binResize {m : BitVec 16} (hm : m ≠ 0) (rd ra : VReg) (s : State) :
    exec (.binResize rd ra m) s = binUnary (.binResize rd ra m) rd ra s (binResized m) := if_neg hm

/-! ## Comparing -/

/-- BIN.CMP writes the flags its two comparisons give (R183). -/
theorem execBinCmp_ok {ra rb : VReg} {s : State} {a b : Bin} (ha : s.reg ra = .held (.bin a))
    (hb : s.reg rb = .held (.bin b)) :
    execBinCmp ra rb s = .next ((s.setFlags (flagsWord (binEq a b) (binLt a b))).respond 0 []) := by
  unfold execBinCmp
  rw [binPair_held ha hb]; rfl

/-! ## The commands -/

/-- Settles O46: the transform of the widened word denotes the negated integer. -/
theorem binNegIsCanonicalNegation : Obligations.BinNegIsCanonicalNegation := fun rd ra =>
  ⟨decodeOfEncode (.binNeg rd ra) rfl, binUnary_exact (g := fun v => -v) (fun _ => rfl) binNegate_eq⟩

/-- Settles O47: the canonical value of the operand's own integer. -/
theorem binNormIsCanonical : Obligations.BinNormIsCanonical := by
  intro rd ra
  obtain ⟨hrefuses, hwrites⟩ := binUnary_exact (i := .binNorm rd ra) (g := id) (fun _ => rfl) norm_eq
  exact ⟨decodeOfEncode (.binNorm rd ra) rfl, hrefuses,
    fun s x hs hx r hr had => ⟨hr ▸ val_canon x.val, hwrites s x hs hx r hr had⟩⟩

/-- Settles O48: a resize succeeds exactly when the value fits, and what it then gives has the asked form. -/
theorem binResizeKeepsValue : Obligations.BinResizeKeepsValue := by
  refine fun rd ra m => ⟨fun p => decode_binResize_zero (opcodeField_formatI ..) (imm16Field_formatI ..),
    fun hm => decodeOfEncode (.binResize rd ra m) (decide_eq_true hm),
    fun hm => refusesSmOperand_of fun s h => execBinResize_operand_error hm h,
    fun s x hm hs hx => ⟨fun hfits r hr => ?_, fun hfits => ?_⟩⟩
  · obtain ⟨r', hok, -, hval, -, hlength⟩ := binResized_fits (bin_of_held hs hx) hm hfits
    obtain rfl : r = r' := hr.trans (binResized_ok_eq hok).symm
    refine ⟨hval, hlength, fun had => ?_⟩
    rw [← hlength] at had
    exact (exec_binResize hm rd ra s).trans (binUnary_ok hx hok had)
  · exact (exec_binResize hm rd ra s).trans (binUnary_error hx (binResized_overflow (bin_of_held hs hx) hm hfits))

/-- Settles O49: signs and magnitudes compare as the integers do. -/
theorem binCmpWritesFlags : Obligations.BinCmpWritesFlags := by
  refine fun ra rb => ⟨decodeOfEncode (.binCmp ra rb) rfl, refusesBinPair_of fun _ h => execBinCmp_operand_error h,
    fun s a b hs ha hb => ⟨_, execBinCmp_ok ha hb, ?_⟩⟩
  rw [← binEq_eq (bin_of_held hs ha) (bin_of_held hs hb), ← binLt_eq (bin_of_held hs ha) (bin_of_held hs hb)]
  exact flagsWord_bits _ _

/-- Settles O50: the sum of the words where the signs agree, else the difference of the magnitudes. -/
theorem binAddIsCanonicalSum : Obligations.BinAddIsCanonicalSum := fun rd ra rb =>
  ⟨decodeOfEncode (.binAdd rd ra rb) rfl, binBinary_exact (g := fun v w => v + w) (fun _ => rfl) binSum_eq⟩

/-- Settles O51: the difference of the magnitudes where the signs agree, else the sum with the negated subtrahend. -/
theorem binSubIsCanonicalDifference : Obligations.BinSubIsCanonicalDifference := fun rd ra rb =>
  ⟨decodeOfEncode (.binSub rd ra rb) rfl, binBinary_exact (g := fun v w => v - w) (fun _ => rfl) binDifference_eq⟩

/-- Settles O52: the product of the magnitudes under the signs, zero having one canonical form. -/
theorem binMulIsCanonicalProduct : Obligations.BinMulIsCanonicalProduct := fun rd ra rb =>
  ⟨decodeOfEncode (.binMul rd ra rb) rfl, binBinary_exact (g := fun v w => v * w) (fun _ => rfl) binProduct_eq⟩

/-- Settles O53: the quotient is the truncated one, written by signs and magnitudes. -/
theorem binDivTruncates : Obligations.BinDivTruncates := fun rd ra rb =>
  ⟨decodeOfEncode (.binDiv rd ra rb) rfl, binBinary_division (fun _ => rfl) (fun hb h0 => (binQuotient_zero hb h0).1)
    fun ha hb h0 => by rw [binQuotient_eq ha hb h0, tdiv_val_of_signs ha hb]⟩

/-- Settles O54: the remainder is the truncated one, written by the dividend's sign and the magnitudes. -/
theorem binModKeepsDividendSign : Obligations.BinModKeepsDividendSign := fun rd ra rb =>
  ⟨decodeOfEncode (.binMod rd ra rb) rfl, binBinary_division (fun _ => rfl) (fun hb h0 => (binQuotient_zero hb h0).2)
    fun ha hb h0 => by rw [binRemainder_eq ha hb h0, tmod_val_of_signs ha hb]⟩

end Sys2Proof.Machine
end

section
/-! Proofs of the family 43_base_converter.md: the digit-level primitives (R211, R213 to R215, R218), the two commands
(R212, R216), and a conversion there and back (R217). -/

namespace Sys2Proof.Machine

/-- Settles O55: the primitive's own law gives each of the four. -/
theorem converterPrimitivesExact : Obligations.ConverterPrimitivesExact := by
  refine ⟨fun k D hD => ?_, fun _ hD tD => decToBits_eq hD tD, fun _ _ hk hM => bitsToDigits_eq hk hM,
    fun _ hM => bitsToDec_eq hM.2⟩
  obtain ⟨hlength, hbits, hmag⟩ := digitsToBits_spec k D hD
  exact ⟨hmag, hlength, hbits⟩

/-! ## What each command does, once its operand is read -/

section
variable {rd ra : VReg} {s : State} {v : Value} {x : Bin} {t : BitVec 16} {T : NumBase}

theorem execCvtS2b_ok (h : s.reg ra = .held v) (had : admits s.params (toBinary v).bits.length = true) :
    execCvtS2b rd ra s = .next ((s.setReg rd (.held (.bin (toBinary v)))).respond 0 []) := by
  unfold execCvtS2b
  rw [src_held h]; dsimp only; rw [writeValue_admits (v := .bin (toBinary v)) had]; rfl

theorem execCvtB2s_ok (hx : s.reg ra = .held (.bin x)) (hT : targetBase s t = .ok T)
    (had : admits s.params (toBase T x).size = true) :
    execCvtB2s rd ra t s = .next ((s.setReg rd (.held (toBase T x))).respond 0 []) := by
  unfold execCvtB2s
  rw [binOne_held hx]; dsimp only; rw [hT]; dsimp only; rw [writeValue_admits had]; rfl

/-- To an SM base CVT.B2S writes the integer's sign and digits (R216). -/
theorem execCvtB2s_sm_ok {b : SmBase} (hx : s.reg ra = .held (.bin x)) (hwf : x.WF) (hT : targetBase s t = .ok (.sm b))
    (had : admits s.params (smOf b (decide (x.val < 0)) x.val.natAbs).digits.length = true) :
    execCvtB2s rd ra t s =
      .next ((s.setReg rd (.held (.sm (smOf b (decide (x.val < 0)) x.val.natAbs)))).respond 0 []) := by
  have hvalue : toBase (.sm b) x = .sm (smOf b (decide (x.val < 0)) x.val.natAbs) := toBase_sm hwf b
  rw [← hvalue]
  exact execCvtB2s_ok hx hT (hvalue ▸ had)

/-- The target is resolved from one number: the field, or BASE when the field is 0 (R216). -/
theorem targetBase_eq_resolveBase (s : State) (t : BitVec 16) :
    targetBase s t = resolveBase (if t = 0 then s.base.toNat else t.toNat) := by
  unfold targetBase activeBase
  split <;> rfl

/-- A field that names an SM base is not 0, so BASE is not read (R216). -/
theorem targetBase_ofNat_toNat (s : State) (b : SmBase) : targetBase s (BitVec.ofNat 16 b.toNat) = .ok (.sm b) := by
  rw [targetBase_eq_resolveBase]
  cases b <;> rfl

end

/-- Settles O56: the word of an SM value denotes its integer in as many bits as the magnitude was given. -/
theorem cvtS2bKeepsValue : Obligations.CvtS2bKeepsValue := by
  refine fun rd ra => ⟨decodeOfEncode (.cvtS2b rd ra) rfl, fun s hs => ⟨fun x hx => ?_, fun x hx => ?_⟩⟩
  · exact execCvtS2b_ok hx (wf_of_held hs hx).2
  · have hwf := sm_of_held hs hx
    obtain ⟨hwfBin, hval, hlength⟩ := toBinary_sm hwf
    obtain ⟨-, -, hlengthBits⟩ := smBits_spec hwf
    exact ⟨toBinary (.sm x), hwfBin, hval, hlength.trans hlengthBits, execCvtS2b_ok hx⟩

/-- Settles O57: the target's number is 2, that of an SM base, or one that no base has. -/
theorem cvtB2sKeepsValue : Obligations.CvtB2sKeepsValue := by
  refine fun rd ra t => ⟨decodeOfEncode (.cvtB2s rd ra t) rfl,
    refusesSmOperand_of fun s h => execCvtB2s_operand_error h, fun s x T hs hx hT => ?_⟩
  have htarget : targetBase s t = resolveBase T := hT ▸ targetBase_eq_resolveBase s t
  refine ⟨fun h2 => ?_, fun b hb r hr => ?_, fun h2 hne => ?_⟩
  · subst h2
    exact execCvtB2s_ok (T := .two) hx htarget (wf_of_held hs hx).2
  · subst hr
    have hresolved : targetBase s t = .ok (.sm b) := htarget.trans (hb ▸ resolveBase_toNat b)
    exact ⟨val_smOf_natAbs b x.val, execCvtB2s_sm_ok hx (bin_of_held hs hx) hresolved⟩
  · have hnone : resolveBase T = .error .unsupportedBase :=
      resolveBase_error ⟨h2, hne .eight, hne .ten, hne .sixteen⟩
    exact execCvtB2s_target_error (binOne_held hx) (htarget.trans hnone)

/-! ## There and back -/

/-- CVT.B2S to a named SM base, when nothing bounds the lengths. -/
theorem exec_cvtB2s_unbounded {s : State} {x : Bin} (rd ra : VReg) (b : SmBase) (hl : s.params.lmax = none)
    (hx : s.reg ra = .held (.bin x)) (hwf : x.WF) :
    exec (.cvtB2s rd ra (BitVec.ofNat 16 b.toNat)) s =
      .next ((s.setReg rd (.held (.sm (smOf b (decide (x.val < 0)) x.val.natAbs)))).respond 0 []) :=
  execCvtB2s_sm_ok hx hwf (targetBase_ofNat_toNat s b) (admits_of_unbounded hl _)

/-- The SM value of an SM value's own integer: its own digits, and its sign unless it denotes zero (R217). -/
theorem smOf_natAbs_val {x : Sm} (h : x.WF) :
    smOf x.base (decide (x.val < 0)) x.val.natAbs = { x with neg := x.neg && decide (x.val ≠ 0) } := by
  have hsign : decide (x.val < 0) = (x.neg && decide (x.val ≠ 0)) := by
    have hbound := x.val_sign
    cases hneg : x.neg with
    | false => simpa [hneg] using hbound
    | true =>
      have hle : x.val ≤ 0 := by simpa [hneg] using hbound
      rw [Bool.true_and, decide_eq_decide]
      omega
  rw [smOf, hsign, ← Sm.digits_eq h]

/-- Settles O58: both commands keep the integer, and an SM value is its base, its sign and the digits of its integer. -/
theorem conversionRoundTrip : Obligations.ConversionRoundTrip := by
  refine fun s rd re ra b hs hl => ⟨fun x hx => ?_, fun x hx => ?_⟩
  · have hwf := sm_of_held hs hx
    obtain ⟨hwfBin, hval, -⟩ := toBinary_sm hwf
    refine ⟨_, _, exec_cvtS2b_unbounded rd ra hl hx,
      exec_cvtB2s_unbounded re rd x.base hl (State.setReg_reg_self s rd _) hwfBin, ?_⟩
    rw [State.respond_reg, State.setReg_reg_self, hval, smOf_natAbs_val hwf]
  · have hwf : (smOf b (decide (x.val < 0)) x.val.natAbs).WF := Sm.wf_of_digitsOf b _ _
    obtain ⟨-, hval, -⟩ := toBinary_sm hwf
    exact ⟨_, _, _, exec_cvtB2s_unbounded rd ra b hl hx (bin_of_held hs hx),
      exec_cvtS2b_unbounded re rd hl (State.setReg_reg_self s rd _), State.setReg_reg_self _ re _,
      hval.trans (val_smOf_natAbs b x.val)⟩

end Sys2Proof.Machine
end

section
/-! Proofs of the family 49_host_rpn_driver.md: the three errors that issue nothing (R231, R238), and the four commands of
an operator token run to their end (R235, R236). -/

namespace Sys2Proof.Machine

/-! ## How an operator token ends -/

section
variable {key left right : Text} {rest : List Text} {op : RpnOp} {d : Driver} {s : State}

/-- Fewer than two stack entries (R238). -/
theorem runOperator_underflow (h : d.stack.length < 2) :
    runOperator key op d s = .next { driver := d, unit := s, code := ErrorCode.emptyStackUnderflow.number } := by
  unfold runOperator
  split
  · next hstack =>
    rw [hstack] at h
    simp at h
  · rfl

variable (hstack : d.stack = right :: left :: rest)
include hstack

/-- A popped name that the store lacks (R238). -/
theorem runOperator_unknown (h : lookupName left d.names = none ∨ lookupName right d.names = none) :
    runOperator key op d s =
      .next { driver := { d with stack := rest }, unit := s, code := ErrorCode.unknownRegister.number } := by
  unfold runOperator
  rw [hstack]; dsimp only
  split
  · next hleft hright => simp [hleft, hright] at h
  · rfl

variable {a b k : VReg} {names : List (Text × VReg)}
variable (hleft : lookupName left d.names = some a) (hright : lookupName right d.names = some b)
include hleft hright

/-- No register for the line's key (R231). -/
theorem runOperator_alloc_error {e : ErrorCode} (halloc : allocName key d.names = .error e) :
    runOperator key op d s = .next { driver := { d with stack := rest }, unit := s, code := e.number } := by
  unfold runOperator
  rw [hstack]; dsimp only; rw [hleft, hright]; dsimp only; rw [halloc]

/-- Every command succeeded: the pair is kept and the key pushed (R235). -/
theorem runOperator_success {u : State} (halloc : allocName key d.names = .ok (k, names))
    (hissue : issueAll [.cvtS2b tempLeft a, .cvtS2b tempRight b, op.command, .cvtB2s k tempResult 0] s = .next (u, 0)) :
    runOperator key op d s =
      .next { driver := { d with names := names, stack := key :: rest }, unit := u, code := 0 } := by
  unfold runOperator
  rw [hstack]; dsimp only; rw [hleft, hright]; dsimp only; rw [halloc]; dsimp only; rw [hissue]; rfl

end

/-- Settles O60: each of the three is found before the first command. -/
theorem driverNameErrors : Obligations.DriverNameErrors := by
  refine fun key op d s => ⟨runOperator_underflow, fun left right rest hstack hmissing => ?_,
    fun left right rest hstack hleft hright hkey hfull => ?_⟩
  · exact runOperator_unknown hstack hmissing
  · obtain ⟨a, ha⟩ := Option.ne_none_iff_exists'.1 hleft
    obtain ⟨b, hb⟩ := Option.ne_none_iff_exists'.1 hright
    exact runOperator_alloc_error hstack ha hb (allocName_full hkey hfull)

/-! ## Issuing commands that write a register -/

/-- The unit after a command that wrote one register and raised nothing. -/
def State.wrote (s : State) (rd : VReg) (v : Value) : State := (s.setReg rd (.held v)).respond 0 []

section
variable (s : State) (rd : VReg) (v : Value)

@[simp] theorem State.wrote_reg_self : (s.wrote rd v).reg rd = .held v := State.setReg_reg_self s rd _

theorem State.wrote_reg_other {j : VReg} (h : j ≠ rd) : (s.wrote rd v).reg j = s.reg j :=
  State.setReg_reg_other s rd j _ h

end

/-- A command that wrote its register answers success, so the driver goes on to the next (R235). -/
theorem issueAll_cons_wrote {i : Instr} {l : List Instr} {s : State} {rd : VReg} {v : Value} (hwf : i.wellFormed = true)
    (hexec : exec i s = .next (s.wrote rd v)) : issueAll (i :: l) s = issueAll l (s.wrote rd v) := by
  rw [issueAll, issue_ok hwf (decodeOfEncode i) s _ [] hexec]
  rfl

/-! ## The command of an operator -/

/-- The integer `left op right` of two operand integers, where the operator has one (R235, R236). -/
def RpnOp.Yields (op : RpnOp) (x y result : Int) : Prop :=
  (op = .add ∧ result = x + y) ∨ (op = .sub ∧ result = x - y) ∨ (op = .mul ∧ result = x * y) ∨
    (op = .div ∧ y ≠ 0 ∧ result = Int.tdiv x y) ∨ (op = .mod ∧ y ≠ 0 ∧ result = Int.tmod x y)

/-- The operator's command writes the canonical BIN value of `left op right` to the result temporary (R235). -/
theorem exec_command {op : RpnOp} {s : State} {a b : Bin} {result : Int} (hl : s.params.lmax = none)
    (ha : s.reg tempLeft = .held (.bin a)) (hb : s.reg tempRight = .held (.bin b)) (hwa : a.WF) (hwb : b.WF)
    (h : op.Yields a.val b.val result) : exec op.command s = .next (s.wrote tempResult (.bin (canon result))) := by
  have had := admits_of_unbounded hl (canon result).bits.length
  obtain ⟨rfl, rfl⟩ | ⟨rfl, rfl⟩ | ⟨rfl, rfl⟩ | ⟨rfl, h0, rfl⟩ | ⟨rfl, h0, rfl⟩ := h
  · exact binBinary_ok (f := fun a b => .ok (binSum a b)) ha hb (congrArg _ (binSum_eq hwa hwb)) had
  · exact binBinary_ok (f := fun a b => .ok (binDifference a b)) ha hb (congrArg _ (binDifference_eq hwa hwb)) had
  · exact binBinary_ok (f := fun a b => .ok (binProduct a b)) ha hb (congrArg _ (binProduct_eq hwa hwb)) had
  · exact binBinary_ok ha hb (binQuotient_eq hwa hwb h0) had
  · exact binBinary_ok ha hb (binRemainder_eq hwa hwb h0) had

/-! ## The result in the active base -/

/-- The canonical BIN value of an integer, converted, is the value the integer has in the target base (R104, R216). -/
theorem toBase_canon (T : NumBase) (v : Int) : toBase T (canon v) = valueOfInt T v := by
  cases T with
  | two => rfl
  | sm b => rw [toBase_sm (canon_wf v), val_canon]; rfl

/-- The value of an integer in any base denotes it (R104). -/
theorem val_valueOfInt (T : NumBase) (v : Int) : (valueOfInt T v).val = v := by
  cases T with
  | two => exact val_canon v
  | sm b => exact val_smOf_natAbs b v

/-- A unit in a legal state whose BASE is not 0 has an active base (10_state.md R32). -/
theorem State.WF.exists_activeBase {s : State} (hs : s.WF) (h0 : s.base ≠ 0) : ∃ T, activeBase s = .ok T := by
  obtain h | h | h | h | h := hs.base
  · exact absurd h h0
  · exact ⟨.two, activeBase_two (by rw [h]; rfl)⟩
  · exact ⟨.sm .eight, activeBase_sm (by rw [h]; rfl)⟩
  · exact ⟨.sm .ten, activeBase_sm (by rw [h]; rfl)⟩
  · exact ⟨.sm .sixteen, activeBase_sm (by rw [h]; rfl)⟩

/-- CVT.B2S of a canonical value to the active base, when nothing bounds the lengths (R216). -/
theorem exec_cvtB2s_active {s : State} {rd ra : VReg} {v : Int} {T : NumBase} (hl : s.params.lmax = none)
    (hT : activeBase s = .ok T) (h : s.reg ra = .held (.bin (canon v))) :
    exec (.cvtB2s rd ra 0) s = .next (s.wrote rd (valueOfInt T v)) := by
  have hexec := execCvtB2s_ok (rd := rd) (t := 0) h hT (admits_of_unbounded hl _)
  rwa [toBase_canon] at hexec

/-! ## The four commands -/

/-- The unit once both operands stand in the temporaries in base 2 (R235). -/
def State.loaded (s : State) (x y : Value) : State :=
  (s.wrote tempLeft (.bin (toBinary x))).wrote tempRight (.bin (toBinary y))

@[simp] theorem State.loaded_reg_left (s : State) (x y : Value) :
    (s.loaded x y).reg tempLeft = .held (.bin (toBinary x)) :=
  (State.wrote_reg_other _ _ _ (by decide)).trans (State.wrote_reg_self _ _ _)

@[simp] theorem State.loaded_reg_right (s : State) (x y : Value) :
    (s.loaded x y).reg tempRight = .held (.bin (toBinary y)) := State.wrote_reg_self _ _ _

section
variable {s : State} {a b : VReg} {x y : Value} (hl : s.params.lmax = none) (hb : b.val < 13)
  (hx : s.reg a = .held x) (hy : s.reg b = .held y)
include hl hb hx hy

/-- The two conversions put the operands in the temporaries: a named register is no temporary, so the first conversion
leaves the right operand (R231, R235). -/
theorem issueAll_load (l : List Instr) :
    issueAll (.cvtS2b tempLeft a :: .cvtS2b tempRight b :: l) s = issueAll l (s.loaded x y) := by
  have hne : b ≠ tempLeft := by
    rintro rfl
    exact absurd hb (by decide)
  have hy' : (s.wrote tempLeft (.bin (toBinary x))).reg b = .held y := (State.wrote_reg_other _ _ _ hne).trans hy
  calc issueAll (.cvtS2b tempLeft a :: .cvtS2b tempRight b :: l) s
      = issueAll (.cvtS2b tempRight b :: l) (s.wrote tempLeft (.bin (toBinary x))) :=
        issueAll_cons_wrote rfl (exec_cvtS2b_unbounded _ _ hl hx)
    _ = issueAll l (s.loaded x y) := issueAll_cons_wrote rfl (exec_cvtS2b_unbounded _ _ hl hy')

/-- The four commands of an operator write the value of `left op right` in the active base to the key's register
(R235, R236). -/
theorem issueAll_operator {op : RpnOp} {result : Int} {T : NumBase} (k : VReg) (hs : s.WF) (hT : activeBase s = .ok T)
    (h : op.Yields x.val y.val result) :
    issueAll [.cvtS2b tempLeft a, .cvtS2b tempRight b, op.command, .cvtB2s k tempResult 0] s =
      .next (((s.loaded x y).wrote tempResult (.bin (canon result))).wrote k (valueOfInt T result), 0) := by
  obtain ⟨hvx, hwx⟩ := val_toBinary (wf_of_held hs hx).1
  obtain ⟨hvy, hwy⟩ := val_toBinary (wf_of_held hs hy).1
  rw [← hvx, ← hvy] at h
  have hcommand : exec op.command (s.loaded x y) = .next ((s.loaded x y).wrote tempResult (.bin (canon result))) :=
    exec_command hl (s.loaded_reg_left x y) (s.loaded_reg_right x y) hwx hwy h
  have hwf : op.command.wellFormed = true := by cases op <;> rfl
  have hback : exec (.cvtB2s k tempResult 0) ((s.loaded x y).wrote tempResult (.bin (canon result))) =
      .next (((s.loaded x y).wrote tempResult (.bin (canon result))).wrote k (valueOfInt T result)) :=
    exec_cvtB2s_active hl hT (State.wrote_reg_self _ _ _)
  rw [issueAll_load hl hb hx hy, issueAll_cons_wrote hwf hcommand, issueAll_cons_wrote rfl hback, issueAll]

end

/-- Settles O59: the four commands run to their end, and the last writes the integer's value in the active base. -/
theorem driverOperatorOrder : Obligations.DriverOperatorOrder := by
  intro key left right rest d s a b k x y names hstack hleft hright _ hb halloc hs hl h0 hx hy op result hop
  obtain ⟨T, hT⟩ := hs.exists_activeBase h0
  have hissue := issueAll_operator hl hb hx hy k hs hT hop
  refine ⟨_, valueOfInt T result, runOperator_success hstack hleft hright halloc hissue, rfl, rfl, rfl,
    State.wrote_reg_self _ k _, val_valueOfInt T result, rfl, fun htwo => ?_, fun B hbase => ?_⟩
  · obtain rfl : T = .two := Except.ok.inj (hT.symm.trans (activeBase_two htwo))
    rfl
  · obtain rfl : T = .sm B := Except.ok.inj (hT.symm.trans (activeBase_sm hbase))
    rfl

end Sys2Proof.Machine
end

section
/-! Proofs of the family 60_exceptions.md: what a raise does (R270), how the error record stays and that no command's
work depends on it (R271), and the idle unit (R285). -/

namespace Sys2Proof.Machine

/-- Settles O9: the step of an idle unit is its own case. -/
theorem idleUnitHoldsState : Obligations.IdleUnitHoldsState := by
  intro s hpending
  rw [step, hpending]

/-! ## What a raise does -/

/-- ECODE after a raise: the first code stays (R270, R271). -/
theorem State.raise_ecode (s : State) (w : Word32) (e : ErrorCode) :
    (s.raise w e).ecode = if s.ecode = 0 then e.number.setWidth 32 else s.ecode := by
  split
  · exact (State.raise_records s w e ‹_›).1
  · exact (State.raise_sticky s w e ‹_›).1

/-- ECMD after a raise: the first word stays (R270, R271). -/
theorem State.raise_ecmd (s : State) (w : Word32) (e : ErrorCode) :
    (s.raise w e).ecmd = if s.ecode = 0 then w else s.ecmd := by
  split
  · exact (State.raise_records s w e ‹_›).2
  · exact (State.raise_sticky s w e ‹_›).2

/-- The codes of the unit: at most 13, and neither the driver's 6 nor the reserved 7 (R261). -/
theorem ErrorCode.number_of_unit {e : ErrorCode} (h : e ≠ .emptyStackUnderflow) :
    e.number.toNat ≤ 13 ∧ e.number ≠ 6 ∧ e.number ≠ 7 := by
  cases e with
  | emptyStackUnderflow => exact absurd rfl h
  | _ => decide

/-- Settles O14: a success has code 0, and a raise is the record of an error of the unit. -/
theorem raiseOnlyRecordsError : Obligations.RaiseOnlyRecordsError := by
  intro i s
  obtain ⟨d, hdid, hexec⟩ | ⟨code, hunit, hexec⟩ := exec_cases i s
  · obtain ⟨-, hresponses, -⟩ := hdid.pending_responses_params
    exact ⟨_, { code := 0, data := d.data }, hexec, by simp [hresponses], fun hne => absurd rfl hne⟩
  · obtain ⟨hle, hsix, hseven⟩ := code.number_of_unit hunit
    exact ⟨_, { code := code.number, data := [] }, hexec, s.raise_responses _ code, fun _ =>
      ⟨rfl, hle, hsix, hseven, s.raise_ecode _ code, s.raise_ecmd _ code, s.raise_regs _ code, s.raise_base _ code,
        s.raise_flags _ code, s.raise_params _ code, s.raise_pending _ code⟩⟩

/-! ## The record stays -/

section
variable {i : Instr} {s t : State}

/-- A command other than CLRERR writes the record only by a raise while none is recorded (R271). -/
theorem record_eq_of_exec (h : exec i s = .next t) (hclrerr : i ≠ .clrerr)
    (hrecords : s.ecode = 0 → ∀ r : Response, t.responses = s.responses ++ [r] → r.code = 0) :
    t.ecode = s.ecode ∧ t.ecmd = s.ecmd := by
  obtain ⟨-, -, hwriters⟩ := controlRegisterWriters i s t h
  by_contra hne
  obtain hi | ⟨hzero, r, hresponses, hcode, -⟩ := hwriters (not_and_or.1 hne)
  · exact hclrerr hi
  · exact hcode (hrecords hzero r hresponses)

/-- The response tells a command's raise, and its error (R261, R270). -/
theorem eq_raise_of_responses {e : ErrorCode} (h : exec i s = .next t)
    (hresponses : t.responses = s.responses ++ [{ code := e.number, data := [] }]) : t = s.raise (encodeWord i) e := by
  obtain ⟨d, hdid, rfl⟩ | ⟨code, -, rfl⟩ := exec_next h
  · obtain ⟨-, hkept, -⟩ := hdid.pending_responses_params
    obtain ⟨hzero, -⟩ : 0 = e.number ∧ d.data = [] := by simpa [hkept] using hresponses
    exact absurd hzero.symm e.number_ne_zero
  · have hnumber : code.number = e.number := by simpa using hresponses
    rw [ErrorCode.number_injective hnumber]

end

/-! ## The record changes nothing a command does -/

/-- The work of a command, with another error record. -/
def Done.setError (d : Done) (code cmd : Word32) : Done := { d with state := d.state.setError code cmd }

section
variable (i : Instr) (s : State) (code cmd : Word32)

/-- From `s` and from `s` with another error record, `i` goes to states that differ in the error record alone: what it
writes and answers does not depend on it (R271). -/
def IgnoresRecord : Prop :=
  ∃ t code' cmd', exec i s = .next t ∧ exec i (s.setError code cmd) = .next (t.setError code' cmd')

theorem State.setError_raise (w : Word32) (e : ErrorCode) :
    ∃ code' cmd', (s.setError code cmd).raise w e = (s.raise w e).setError code' cmd' := by
  refine ⟨((s.setError code cmd).raise w e).ecode, ((s.setError code cmd).raise w e).ecmd, ?_⟩
  unfold State.raise State.recordError
  split <;> split <;> rfl

variable {i s code cmd}

/-- A command ignores the record if its effect does. -/
theorem ignoresRecord_of_effect {e e' : Effect} (h : exec i s = finish (encodeWord i) s e)
    (h' : exec i (s.setError code cmd) = finish (encodeWord i) (s.setError code cmd) e')
    (heffect : e' = e.map (Done.setError · code cmd)) : IgnoresRecord i s code cmd := by
  subst heffect
  cases e with
  | ok d => exact ⟨_, code, cmd, h, h'⟩
  | error k =>
    obtain ⟨code', cmd', hraise⟩ := State.setError_raise s code cmd (encodeWord i) k
    exact ⟨_, code', cmd', h, h'.trans (congrArg _ hraise)⟩

/-- The capacity check and the write of a computed value do not look at the record. -/
theorem writeComputed_setError (rd : VReg) (r : Except ErrorCode Value) :
    writeComputed rd (s.setError code cmd) r = (writeComputed rd s r).map (Done.setError · code cmd) := by
  cases r with
  | error e => rfl
  | ok v =>
    cases ha : admits s.params v.size with
    | true => simp only [writeComputed, writeValue_admits ha, writeValue_admits (s := s.setError code cmd) ha]; rfl
    | false =>
      simp only [writeComputed, writeValue_not_admits ha, writeValue_not_admits (s := s.setError code cmd) ha]; rfl

theorem ignoresRecord_of_destination {rd : VReg} (h : destination i = some rd) : IgnoresRecord i s code cmd := by
  obtain ⟨g, hg⟩ := exec_computed i rd h
  exact ignoresRecord_of_effect (hg s) (hg (s.setError code cmd)) (writeComputed_setError rd _)

@[simp] theorem src_setError (ra : VReg) : src (s.setError code cmd) ra = src s ra := rfl
@[simp] theorem smPair_setError (ra rb : VReg) : smPair (s.setError code cmd) ra rb = smPair s ra rb := rfl
@[simp] theorem binPair_setError (ra rb : VReg) : binPair (s.setError code cmd) ra rb = binPair s ra rb := rfl

/-- Every command ignores the record, but for the two reads of the record itself (R271). -/
theorem exec_ignoresRecord (hecode : i ≠ .csrr .ecode) (hecmd : i ≠ .csrr .ecmd) : IgnoresRecord i s code cmd := by
  cases hd : destination i with
  | some rd => exact ignoresRecord_of_destination hd
  | none =>
    cases i with
    | setbase n =>
      refine ignoresRecord_of_effect rfl rfl ?_
      cases resolveBase n.toNat <;> rfl
    | disp ra =>
      refine ignoresRecord_of_effect rfl rfl ?_
      rw [src_setError]
      cases src s ra <;> rfl
    | digit ra k =>
      refine ignoresRecord_of_effect rfl rfl ?_
      rw [src_setError]
      cases src s ra with
      | error e => rfl
      | ok v => dsimp only; cases (digitList v)[k.toNat]? <;> rfl
    | csrr c =>
      cases c with
      | base | flags => exact ⟨_, code, cmd, execCsrr_eq _ s, execCsrr_eq _ (s.setError code cmd)⟩
      | ecode => exact absurd rfl hecode
      | ecmd => exact absurd rfl hecmd
    | clrerr => exact ⟨_, 0, 0, rfl, rfl⟩
    | smCmp ra rb =>
      refine ignoresRecord_of_effect rfl rfl ?_
      rw [smPair_setError]
      cases smPair s ra rb <;> rfl
    | binCmp ra rb =>
      refine ignoresRecord_of_effect rfl rfl ?_
      rw [binPair_setError]
      cases binPair s ra rb <;> rfl
    | _ => cases hd

end

/-- Settles O15: the writers of the record (O21) leave a recorded error and a success alone, and a command that is not a
read of the record goes to states that differ in the record alone. -/
theorem errorRecordIsSticky : Obligations.ErrorRecordIsSticky := by
  refine ⟨fun i s t e hexec hresponses hzero => ?_, fun i s t hexec hne hi => ?_,
    fun i s t data hexec hresponses hi => ?_, fun s => ⟨_, rfl, rfl, rfl⟩, fun i s code cmd => ?_⟩
  · rw [eq_raise_of_responses hexec hresponses]
    exact State.raise_records s (encodeWord i) e hzero
  · exact record_eq_of_exec hexec hi fun hzero => absurd hzero hne
  · refine record_eq_of_exec hexec hi fun _ r hr => ?_
    obtain rfl : r = { code := 0, data := data } := by simpa [hresponses, eq_comm] using hr
    rfl
  · by_cases hecode : i = .csrr .ecode
    · subst hecode
      exact ⟨_, _, execCsrr_eq .ecode s, execCsrr_eq .ecode (s.setError code cmd),
        rfl, rfl, rfl, rfl, rfl, fun hne => absurd rfl hne⟩
    by_cases hecmd : i = .csrr .ecmd
    · subst hecmd
      exact ⟨_, _, execCsrr_eq .ecmd s, execCsrr_eq .ecmd (s.setError code cmd),
        rfl, rfl, rfl, rfl, rfl, fun _ hne => absurd rfl hne⟩
    obtain ⟨t, code', cmd', hexec, hexec'⟩ := exec_ignoresRecord (s := s) (code := code) (cmd := cmd) hecode hecmd
    exact ⟨t, _, hexec, hexec', rfl, rfl, rfl, rfl, rfl, fun _ _ => rfl⟩

end Sys2Proof.Machine
end

section
/-! Proofs of the family 70_reset_and_hazards.md: the reset event (R290) and the capacity check as the last check of a
command (R297). -/

namespace Sys2Proof.Machine

/-- Settles O8: the step over a reset event is `applyReset` on the rest of the host's list. -/
theorem resetEventClearsState : Obligations.ResetEventClearsState := by
  intro s rest hpending
  refine ⟨(s.setPending rest).applyReset, ?_, State.applyReset_reg _, rfl, rfl, rfl, rfl, rfl, rfl, rfl⟩
  rw [step, hpending]

/-! ## The capacity check -/

section
variable {i : Instr} {rd : VReg}

/-- The error a raise reports can be read off the state it leaves. -/
theorem State.raise_injective (s : State) (w : Word32) : Function.Injective (s.raise w) := by
  intro e e' h
  have hnumber : e.number = e'.number := by simpa using congrArg State.responses h
  exact ErrorCode.number_injective hnumber

/-- Under every choice of the parameters a command with a destination raises one and the same error, or has one and the
same result, which the capacity check alone may still refuse (R297). -/
theorem exec_withParams_cases (hd : destination i = some rd) (s : State) :
    (∃ e, ∀ p, exec i (s.withParams p) = .next ((s.withParams p).raise (encodeWord i) e)) ∨
    (∃ v, ∀ p,
      (admits p v.size = true → exec i (s.withParams p) = .next ((s.wrote rd v).withParams p)) ∧
      (admits p v.size = false →
        exec i (s.withParams p) = .next ((s.withParams p).raise (encodeWord i) .capacityExceeded))) := by
  obtain ⟨g, hg⟩ := exec_computed i rd hd
  have hexec (p : Params) : exec i (s.withParams p) =
      finish (encodeWord i) (s.withParams p) (writeComputed rd (s.withParams p) (g s.regs s.base)) := hg (s.withParams p)
  cases hresult : g s.regs s.base with
  | error e => exact .inl ⟨e, fun p => by rw [hexec, hresult]; rfl⟩
  | ok v =>
    refine .inr ⟨v, fun p => ⟨fun hfits => ?_, fun hlong => ?_⟩⟩ <;> rw [hexec, hresult, writeComputed]
    · rw [writeValue_admits hfits]; rfl
    · rw [writeValue_not_admits hlong]; rfl

end

/-- Settles O22: without a bound the check refuses nothing; with one, a command's error or its result is the one it has
without a bound, and the check refuses the result exactly when it is longer than the bound. -/
theorem capacityIsLastCheck : Obligations.CapacityIsLastCheck := by
  refine ⟨fun i s hunbounded hraise => exec_capacity hraise hunbounded, fun i rd s rev most hd => ?_⟩
  obtain ⟨e, herror⟩ | ⟨v, hresult⟩ := exec_withParams_cases hd s
  · refine ⟨fun t v hexec hresponses _ => ?_, fun e' hexec => ?_⟩
    · cases (herror _).symm.trans hexec
      exact absurd hresponses (State.raise_responses_ne_success _ _ e)
    · have hraise := Host.Outcome.next.inj ((herror _).symm.trans hexec)
      cases State.raise_injective _ _ hraise
      exact herror _
  · have hwrote := (hresult { lmax := none, negOrderReversed := rev }).1 rfl
    obtain ⟨hfits, hlong⟩ := hresult { lmax := some most, negOrderReversed := rev }
    refine ⟨fun t v' hexec _ hreg => ?_, fun e hexec => ?_⟩
    · cases hwrote.symm.trans hexec
      cases (State.wrote_reg_self s rd v).symm.trans hreg
      exact ⟨fun hle => hfits (decide_eq_true hle), fun hlt => hlong (decide_eq_false (Nat.not_le.2 hlt))⟩
    · have hraise := Host.Outcome.next.inj (hwrote.symm.trans hexec)
      exact absurd (congrArg State.responses hraise).symm (State.raise_responses_ne_success _ _ e)

end Sys2Proof.Machine
end
